-- ==== Sys2Proof/Word.lean ====
section
/-! DEFINITION. The word types of the block (00_scope.md R10, R11): a byte, and a cell that may hold no value. -/

namespace Sys2Proof

/-- A byte is 8 bits; bit 0 is the least significant (00_scope.md R10). -/
abbrev Byte := BitVec 8

/-- A cell of `w` bits: a value of its width, or UNDEF (`none`), the content of a cell that holds no value
(10_state.md R21). UNDEF is the spec's own content of a cell, at reset (R47) and after a failure
(60_exceptions.md R252). -/
abbrev Cell (w : Nat) := Option (BitVec w)

/-- A cell of RSSI_W bits (10_state.md R34). RSSI_W is a build parameter, so the value is the natural number that
the two's complement pattern spells, below 2^RSSI_W. DESIGN CHOICE, safe (log 5). -/
abbrev RssiCell := Option Nat

end Sys2Proof
end

