-- ==== Sys2Proof/Config.lean ====
section
/-! DEFINITION. The build parameters of 00_scope.md R8 and the free draw of 45_pipeline.md R242.
The default values stand in Machine/Defaults.lean. -/

namespace Sys2Proof

/-- MFR_ORDER: byte order of the manufacturer word (42_frame_parser.md R143). -/
inductive MfrOrder where
  | be
  | le
deriving DecidableEq, Repr

/-- YEAR_ORDER: significance of the two year parts (44_reading_parser.md R202). -/
inductive YearOrder where
  | doc
  | typeG
deriving DecidableEq, Repr

/-- MAILBOX_POLICY: what a packet arriving while the mailbox is full does (45_pipeline.md R230). -/
inductive MailboxPolicy where
  | dropNew
  | overwrite
deriving DecidableEq, Repr

/-- IDENT_MAP (42_frame_parser.md R145, R146) as bit positions, most significant first.
Position p is bit (p mod 8) of FRAME[4 + p div 8], so 0..47 spans the address field. DESIGN CHOICE, safe (log 14).
Every position may stand in it, also twice: DESIGN CHOICE, unsafe for maps beside the default (log 25). -/
structure IdentMap where
  /-- the 26 bits of the identity integer -/
  id26 : Vector (Fin 48) 26
  /-- the 15 letter bits: supplier, then type, then diameter, 5 bits each -/
  letters : Vector (Fin 48) 15
deriving DecidableEq, Repr

/-- ALARM_MAP (44_reading_parser.md R194, R195) as bit positions, most significant first.
Position p is bit (p mod 8) of status byte p div 8: 0..7 is s0, 8..15 is s1, 16..23 is s2. DESIGN CHOICE, safe
(log 14). -/
structure AlarmMap where
  /-- the 12 alarm bits in the order of 10_state.md R38, bit 11 of RD_ALARMS first -/
  alarms : Vector (Fin 24) 12
  /-- the 2 bits of the random-generator field; the model admits every position, also s0[4]. DESIGN CHOICE, unsafe for
  maps beside the default (log 24) -/
  randGen : Vector (Fin 24) 2
deriving DecidableEq, Repr

/-- The parameters of 00_scope.md R8. They are fixed when the block is built; no step changes them
(10_state.md R45). -/
structure Config where
  /-- RAW_MAX: capacity of RAW and of the mailbox, in bytes -/
  rawMax : Nat
  /-- FRAME_MAX: capacity of FRAME, in bytes -/
  frameMax : Nat
  /-- RSSI_W: width of the RSSI value in bits -/
  rssiW : Nat
  /-- SIXBIT_TABLE: entry k is the codeword of nibble k -/
  sixbitTable : Vector (BitVec 6) 16
  /-- MFR_ORDER -/
  mfrOrder : MfrOrder
  /-- LETTER_ZERO: the ASCII code emitted for letter value 0. R8 names 0x40 and 0x20; the model admits every byte.
  DESIGN CHOICE, safe for statements (log 23) -/
  letterZero : Byte
  /-- IDENT_MAP -/
  identMap : IdentMap
  /-- CIPHER_OFF: offset in the transport payload at which decryption starts -/
  cipherOff : Nat
  /-- ALARM_MAP -/
  alarmMap : AlarmMap
  /-- YEAR_ORDER -/
  yearOrder : YearOrder
  /-- UNIT_FIELD: positions of the units byte compared with 0x02, most significant first (R198); the model
  admits every list of positions. DESIGN CHOICE, unsafe for fields beside the default (log 25) -/
  unitField : List (Fin 8)
  /-- MAILBOX_POLICY -/
  mailboxPolicy : MailboxPolicy
deriving DecidableEq, Repr

/-- FREE VALUE: what the k-th Host read of a cell holding UNDEF draws, before it is cut to the cell's width
(45_pipeline.md R242, 93_implementation_defined.md U2: "a free draw of the cell's width, and no claim may rest on
it"). It has no body, so nothing can evaluate it. DESIGN CHOICE, safe (log 6). -/
opaque Config.freeDraw : Nat → Nat

end Sys2Proof
end

