-- ==== Sys2Proof/Syntax.lean ====
section
/-! DEFINITION. The 13 commands of 30_encoding.md R83, one constructor per row of spec/opcode_table.json.
A command word holds no operands (R85); they come from OPA, OPB and OPC (R84). -/

namespace Sys2Proof

/-- The commands, in the order of 30_encoding.md R83. -/
inductive Instr where
  /-- decode one 6-bit symbol (40_line_codec.md R102) -/
  | dnib
  /-- decode a raw buffer (40_line_codec.md R104) -/
  | dbuf
  /-- compute a CRC (41_frame_crc.md R122) -/
  | crc
  /-- verify a CRC (41_frame_crc.md R124) -/
  | crcv
  /-- parse the data-link header (42_frame_parser.md R141) -/
  | phdr
  /-- split off and check the transport payload (42_frame_parser.md R150) -/
  | stpl
  /-- derive the LFSR seed (43_cipher.md R171) -/
  | dkey
  /-- decrypt a region of FRAME in place (43_cipher.md R175) -/
  | dcry
  /-- extract the reading (44_reading_parser.md R190) -/
  | prdg
  /-- drain the mailbox (45_pipeline.md R220) -/
  | take
  /-- decode and validate a frame (45_pipeline.md R221) -/
  | pfrm
  /-- decrypt and parse the payload (45_pipeline.md R224) -/
  | ppay
  /-- the whole chain (45_pipeline.md R227) -/
  | ppkt
deriving DecidableEq, Repr

end Sys2Proof
end

