-- ==== Sys2Proof/WellFormed.lean ====
section
/-! DEFINITION. Well-formed instructions, command words and build parameters. -/

namespace Sys2Proof

/-- A command has no operand fields (30_encoding.md R85), so every command is well formed. -/
def Instr.wf : Instr → Bool
  | .dnib | .dbuf | .crc | .crcv | .phdr | .stpl | .dkey | .dcry | .prdg | .take | .pfrm | .ppay | .ppkt => true

/-- A well-formed command word: RSV is 0000 and OPCODE is none of 0x0, 0xE, 0xF (30_encoding.md R81). -/
def wordWf (w : Byte) : Bool :=
  w.extractLsb' 4 4 == 0#4 && !([0x0#4, 0xE#4, 0xF#4].contains (w.extractLsb' 0 4))

/-- The number of bits of a codeword that are 1. -/
def weight (c : BitVec 6) : Nat :=
  ((List.range 6).filter fun i => c.getLsbD i).length

/-- The bytes DBUF writes for n raw bytes, ceil(floor(8n/6)/2) (40_line_codec.md R105). -/
def frameBytes (n : Nat) : Nat := (8 * n / 6 + 1) / 2

/-- RAW_MAX lies in 2..65535 (00_scope.md R8). -/
def Config.rawMaxWf (c : Config) : Bool := decide (2 ≤ c.rawMax ∧ c.rawMax ≤ 65535)

/-- FRAME_MAX holds 16 bytes and whatever DBUF makes of a full RAW (00_scope.md R8). R8 sets no upper bound, although
20_memory.md R60 gives FRAME a 16-bit index; the model sets none. DESIGN CHOICE, unsafe for FRAME_MAX above 65536
(log 22). -/
def Config.frameMaxWf (c : Config) : Bool := decide (max 16 (frameBytes c.rawMax) ≤ c.frameMax)

/-- RSSI_W is at least 1: a two's complement value has a sign bit. DEDUCED, safe (log 5). -/
def Config.rssiWWf (c : Config) : Bool := decide (1 ≤ c.rssiW)

/-- SIXBIT_TABLE is injective, uses weight-3 codewords only, and holds the source's three rows
(40_line_codec.md R101). -/
def Config.sixbitWf (c : Config) : Bool :=
  decide c.sixbitTable.toList.Nodup && c.sixbitTable.toList.all (fun w => weight w == 3) &&
    c.sixbitTable[0] == 0x16#6 && c.sixbitTable[1] == 0x0D#6 && c.sixbitTable[15] == 0x29#6

/-- ALARM_MAP: 12 distinct positions, disjoint from s0[3:0], from s1[4:0] and from the random-generator pair
(44_reading_parser.md R195). A map beside the default may name s0[4], which R195's bounds admit: R207's "bits PRDG never
reads" is read as about the default map. The random-generator pair has no bound of its own. DESIGN CHOICE, unsafe for
maps beside the default (log 24). -/
def Config.alarmWf (c : Config) : Bool :=
  decide c.alarmMap.alarms.toList.Nodup &&
    c.alarmMap.alarms.toList.all (fun p => !(p.val < 4) && !(8 ≤ p.val && p.val < 13) &&
      !(c.alarmMap.randGen.toList.contains p))

/-- The build parameters obey every bound the spec gives them. LETTER_ZERO has none here: R8 and 92_eei_decisions.md D10
name 0x40 and 0x20 and do not say whether other bytes are allowed; the model admits all 256. DESIGN CHOICE (log 23).
IDENT_MAP and UNIT_FIELD have none either: DESIGN CHOICE (log 25). -/
def Config.wf (c : Config) : Bool :=
  c.rawMaxWf && c.frameMaxWf && c.rssiWWf && c.sixbitWf && c.alarmWf

end Sys2Proof
end

