-- ==== Sys2Proof/Decode.lean ====
section
/-! DEFINITION. The command decoder and encoder (30_encoding.md R80 to R86). -/

namespace Sys2Proof

/-- Why a byte sequence is no command. -/
inductive DecodeError where
  /-- there is no byte to read -/
  | noWord
  /-- RSV, bits 7:4, is not 0000 (30_encoding.md R81) -/
  | reservedBits (w : Byte)
  /-- OPCODE is 0x0, 0xE or 0xF (30_encoding.md R81) -/
  | reservedOpcode (w : Byte)
deriving DecidableEq, Repr

/-- OPCODE = w[3:0] (30_encoding.md R80). -/
def opcodeField (w : Byte) : BitVec 4 := w.extractLsb' 0 4

/-- RSV = w[7:4] (30_encoding.md R80). -/
def rsvField (w : Byte) : BitVec 4 := w.extractLsb' 4 4

/-- The opcode map (30_encoding.md R83); 0x0, 0xE and 0xF are reserved. -/
def decodeOpcode (op : BitVec 4) : Option Instr :=
  match op.toNat with
  | 0x1 => some .dnib
  | 0x2 => some .dbuf
  | 0x3 => some .crc
  | 0x4 => some .crcv
  | 0x5 => some .phdr
  | 0x6 => some .stpl
  | 0x7 => some .dkey
  | 0x8 => some .dcry
  | 0x9 => some .prdg
  | 0xA => some .take
  | 0xB => some .pfrm
  | 0xC => some .ppay
  | 0xD => some .ppkt
  | _ => none

/-- Decoding of one command word; total (30_encoding.md R81). -/
def decode (w : Byte) : Except DecodeError Instr :=
  if rsvField w = 0#4 then
    match decodeOpcode (opcodeField w) with
    | some i => .ok i
    | none => .error (.reservedOpcode w)
  else .error (.reservedBits w)

/-- Decoding at the head of a byte sequence: every command is one byte (30_encoding.md R80). -/
def decodeBytes : List Byte → Except DecodeError (Instr × List Byte)
  | [] => .error .noWord
  | w :: rest =>
    match decode w with
    | .ok i => .ok (i, rest)
    | .error e => .error e

/-- The opcode of a command (30_encoding.md R83). -/
def opcodeOf : Instr → BitVec 4
  | .dnib => 0x1#4
  | .dbuf => 0x2#4
  | .crc => 0x3#4
  | .crcv => 0x4#4
  | .phdr => 0x5#4
  | .stpl => 0x6#4
  | .dkey => 0x7#4
  | .dcry => 0x8#4
  | .prdg => 0x9#4
  | .take => 0xA#4
  | .pfrm => 0xB#4
  | .ppay => 0xC#4
  | .ppkt => 0xD#4

/-- The command word of a command: RSV 0000, then OPCODE (30_encoding.md R80, R83). -/
def encode (i : Instr) : Byte := 0#4 ++ opcodeOf i

/-- The first command word of an instruction whose bits are `w`, bit 0 least significant, of which the lowest
`nbits` are given and every other bit is 0. -/
def tableWord (nbits w : Nat) : Byte := BitVec.ofNat 8 (w % 2 ^ nbits)

/-- The command the decoder reads from a row of spec/opcode_table.json. -/
def decodeTableWord (nbits w : Nat) : Option Instr :=
  match decodeBytes [tableWord nbits w] with
  | .ok (i, _) => some i
  | .error _ => none

end Sys2Proof
end

