-- ==== Sys2Proof/Machine/Defaults.lean ====
section
/-! DEFINITION. The default values of the build parameters (00_scope.md R8). -/

namespace Sys2Proof.Machine

/-- The default SIXBIT_TABLE, nibble 0x0 first (40_line_codec.md R101); 13 rows are the EN 13757-4 table the spec
supplies from general knowledge. PRESUMED by the spec, unsafe (log 18). -/
def defaultSixbitTable : Vector (BitVec 6) 16 :=
  #v[0x16, 0x0D, 0x0E, 0x0B, 0x1C, 0x19, 0x1A, 0x13, 0x2C, 0x25, 0x26, 0x23, 0x34, 0x31, 0x32, 0x29]

/-- The default IDENT_MAP: ID26 = {FRAME[7][1:0], FRAME[6], FRAME[5], FRAME[4]} (42_frame_parser.md R145);
S = {FRAME[9][3:0], FRAME[8][7]}, T = FRAME[8][6:2], D = {FRAME[8][1:0], FRAME[7][7:5]} (R146).
PRESUMED by the spec, unsafe (log 18). -/
def defaultIdentMap : IdentMap where
  id26 := #v[25, 24, 23, 22, 21, 20, 19, 18, 17, 16, 15, 14, 13, 12, 11, 10, 9, 8, 7, 6, 5, 4, 3, 2, 1, 0]
  letters := #v[43, 42, 41, 40, 39, 38, 37, 36, 35, 34, 33, 32, 31, 30, 29]

/-- The default ALARM_MAP: general s0[7]; leakage current, previous and blocked s1[7:5]; the other eight s2[7:0];
random generator s0[6:5] (44_reading_parser.md R194, R195). PRESUMED by the spec, unsafe (log 18). -/
def defaultAlarmMap : AlarmMap where
  alarms := #v[7, 15, 14, 13, 23, 22, 21, 20, 19, 18, 17, 16]
  randGen := #v[6, 5]

/-- Every parameter at its default (00_scope.md R8). RAW_MAX, FRAME_MAX and RSSI_W are open there: 390 admits every
L-field value, 260 is the least FRAME_MAX beside it, and 16 is R8's own default width. DESIGN CHOICE, safe for
statements over every state and unsafe for a run from State.reset (log 2). -/
def defaultConfig : Config where
  rawMax := 390
  frameMax := 260
  rssiW := 16
  sixbitTable := defaultSixbitTable
  mfrOrder := .be
  letterZero := 0x40
  identMap := defaultIdentMap
  cipherOff := 0
  alarmMap := defaultAlarmMap
  yearOrder := .doc
  unitField := [7, 6, 5, 4, 3]
  mailboxPolicy := .dropNew

end Sys2Proof.Machine
end

