-- ==== Sys2Proof/Machine/State.lean ====
section
/-! DEFINITION. The architectural state (10_state.md), the environment's actions, and what can stop a step. -/

namespace Sys2Proof.Machine

/-- A byte buffer: the (index, byte) pairs that hold a value, indices strictly rising. An unlisted byte is UNDEF
(10_state.md R21, R47), so no entry equals what an unlisted index reads as. -/
abbrev Memory := List Host.Cell

/-- The canonical form of a buffer: indices strictly rise. -/
abbrev Memory.wf (m : Memory) : Prop := List.Pairwise (fun x y => x.1 < y.1) m

/-- The status codes of STATUS.ERR (60_exceptions.md R250); their numbers are `Err.code`. Codes 0x0E to 0x1F do not
exist here, as the spec says they are never written. -/
inductive Err where
  | ok
  | illegal
  | codeword
  | bounds
  | short
  | length
  | crc
  | hdrCrc
  | tplShort
  | tplCrc
  | magic
  | rdgShort
  | noPkt
  | seq
deriving DecidableEq, Repr

/-- The Host-visible registers (10_state.md R23 to R37), in the order of their numbers. -/
inductive Reg where
  | cmd | status | opa | opb | opc | rawLen | dlen | nib | crcOut | key | seed | lfsr | rssi | tpOff | tpLen
  | hL | hC | hM | hMfr | hAddr | hVer | hType | hCrc | id26 | idYy | idSerial | idLet | idStr
  | rdCur | rdChk | rdExp | rdUnit | rdUnitsRaw | rdDay | rdMonth | rdYear | rdBatt | rdInterval | rdRandGen
  | rdAlarms | rdRssi | rdId
deriving DecidableEq, Repr

/-- The name of a cell that can hold UNDEF (10_state.md R21). -/
inductive CellName where
  | reg (r : Reg)
  | raw (i : Nat)
  | frame (i : Nat)
  | mbox (i : Nat)
  | mboxLen
  | mboxRssi
deriving DecidableEq, Repr

/-- The buffers an access can name (20_memory.md R60). MBOX is not the Host's to access (45_pipeline.md R240). -/
inductive Buffer where
  | raw
  | frame
  | mbox
deriving DecidableEq, Repr

/-- The values PHDR computes: the source's DataLinkHeader (10_state.md R36). -/
structure Header where
  l : BitVec 8
  c : BitVec 8
  m : BitVec 16
  mfr : BitVec 24
  addr : BitVec 48
  ver : BitVec 8
  devType : BitVec 8
  crc : BitVec 16
  id26 : BitVec 26
  idYy : BitVec 7
  idSerial : BitVec 20
  idLet : BitVec 15
  idStr : BitVec 88
deriving DecidableEq, Repr

/-- The header result registers (10_state.md R36). -/
structure HeaderRegs where
  /-- H_L -/
  l : Cell 8
  /-- H_C -/
  c : Cell 8
  /-- H_M -/
  m : Cell 16
  /-- H_MFR -/
  mfr : Cell 24
  /-- H_ADDR -/
  addr : Cell 48
  /-- H_VER -/
  ver : Cell 8
  /-- H_TYPE -/
  devType : Cell 8
  /-- H_CRC -/
  crc : Cell 16
  /-- ID26 -/
  id26 : Cell 26
  /-- ID_YY -/
  idYy : Cell 7
  /-- ID_SERIAL -/
  idSerial : Cell 20
  /-- ID_LET -/
  idLet : Cell 15
  /-- ID_STR -/
  idStr : Cell 88
deriving DecidableEq, Repr

/-- The values PRDG computes: the source's Reading record, and the record of a READING_EVENT
(10_state.md R37, 45_pipeline.md R226). -/
structure Reading where
  cur : BitVec 32
  chk : BitVec 32
  exp : BitVec 4
  unit : BitVec 1
  unitsRaw : BitVec 8
  day : BitVec 5
  month : BitVec 4
  year : BitVec 16
  batt : BitVec 5
  interval : BitVec 32
  randGen : BitVec 2
  alarms : BitVec 12
  rssi : Nat
  id : BitVec 88
deriving DecidableEq, Repr

/-- The reading result registers (10_state.md R37). -/
structure ReadingRegs where
  /-- RD_CUR -/
  cur : Cell 32
  /-- RD_CHK -/
  chk : Cell 32
  /-- RD_EXP, two's complement -/
  exp : Cell 4
  /-- RD_UNIT -/
  unit : Cell 1
  /-- RD_UNITS_RAW -/
  unitsRaw : Cell 8
  /-- RD_DAY -/
  day : Cell 5
  /-- RD_MONTH -/
  month : Cell 4
  /-- RD_YEAR -/
  year : Cell 16
  /-- RD_BATT -/
  batt : Cell 5
  /-- RD_INTERVAL -/
  interval : Cell 32
  /-- RD_RANDGEN -/
  randGen : Cell 2
  /-- RD_ALARMS -/
  alarms : Cell 12
  /-- RD_RSSI -/
  rssi : RssiCell
  /-- RD_ID -/
  id : Cell 88
deriving DecidableEq, Repr

/-- An event record of EVLOG (10_state.md R46). -/
inductive Event where
  /-- PKT_EVENT (45_pipeline.md R223) -/
  | pkt (id : BitVec 88) (frame : List Byte) (tpOff tpLen : BitVec 16) (rssi : Nat)
  /-- READING_EVENT (45_pipeline.md R226) -/
  | reading (r : Reading)
deriving DecidableEq, Repr

/-- One atomic step of an agent outside the Core (45_pipeline.md R230 to R242, 70_reset_and_hazards.md R280).
The Host's transactions are those of 30_encoding.md R87. -/
inductive Action where
  /-- W(num, value); a write to CMD executes a command -/
  | writeReg (num : BitVec 8) (value : Nat)
  /-- R(num) -/
  | readReg (num : BitVec 8)
  /-- WB(buffer, start, bytes) -/
  | writeBuf (b : Buffer) (start : Nat) (bytes : List Byte)
  /-- RB(buffer, start, count) -/
  | readBuf (b : Buffer) (start count : Nat)
  /-- the Host consumes the record at the head of EVLOG -/
  | consumeEvent
  /-- the Radio's Deliver(packet, rssi) -/
  | deliver (packet : List Byte) (rssi : Int)
  /-- the platform's reset signal -/
  | reset
deriving DecidableEq, Repr

/-- What a Host read returned (45_pipeline.md R242). -/
inductive ReadData where
  /-- no read yet, or an event consumption from an empty log -/
  | nothing
  | reg (r : Reg) (value : Nat)
  | bytes (b : Buffer) (start : Nat) (values : List Byte)
  | event (e : Event)
deriving DecidableEq, Repr

/-- What stops the machine. Every constructor is safe: a faulted run has no observation (60_exceptions.md R258,
70_reset_and_hazards.md R299), so no claim about a next state can rest on it. -/
inductive Fault where
  /-- ReadUndef(cell): a command read a cell holding UNDEF (10_state.md R21, 60_exceptions.md R258). Raised by the
  meanings of commands. Safe. -/
  | readUndef (c : CellName)
  /-- HostFault(action): the Host broke an access duty (45_pipeline.md R240, 60_exceptions.md R258). Raised by
  Machine/Bus.lean. Safe. -/
  | hostFault (a : Action)
  /-- A delivery that breaks the Radio's preconditions (45_pipeline.md R230), for which the spec gives no effect.
  Raised by Machine/Bus.lean. DESIGN CHOICE, safe (log 11). -/
  | radioFault (a : Action)
deriving DecidableEq, Repr

/-- Why an instruction has no meaning. No instruction of this model raises one. -/
inductive Refusal where
  /-- an instruction not modelled; only a refused arm of exec could raise it. Safe. -/
  | notModelled (mnemonic : String)
deriving DecidableEq, Repr

/-- The state of the block. The last four fields are the model's own (logs 2, 3, 6, 7). -/
structure State where
  /-- CMD: the last word written (10_state.md R23) -/
  cmd : BitVec 8
  /-- STATUS.ERR: outcome of the last command (10_state.md R24) -/
  err : Err
  /-- STATUS.FOK: frame ready for PPAY (10_state.md R25) -/
  fok : Bool
  /-- STATUS.PEND: mailbox holds a packet (10_state.md R24) -/
  pend : Bool
  /-- OPA (10_state.md R26) -/
  opa : Cell 16
  /-- OPB (10_state.md R26) -/
  opb : Cell 16
  /-- OPC (10_state.md R26) -/
  opc : Cell 16
  /-- RAW_LEN: number of valid bytes in RAW (10_state.md R27); no write set holds it, so it always has a value -/
  rawLen : BitVec 16
  /-- DLEN: number of valid bytes in FRAME (10_state.md R28) -/
  dlen : Cell 16
  /-- NIB (10_state.md R29) -/
  nib : Cell 4
  /-- CRC_OUT (10_state.md R30) -/
  crcOut : Cell 16
  /-- KEY; key byte 0 is most significant (10_state.md R31) -/
  key : Cell 64
  /-- SEED (10_state.md R32) -/
  seed : Cell 32
  /-- LFSR (10_state.md R33) -/
  lfsr : Cell 32
  /-- RSSI (10_state.md R34) -/
  rssi : RssiCell
  /-- TP_OFF (10_state.md R35) -/
  tpOff : Cell 16
  /-- TP_LEN (10_state.md R35) -/
  tpLen : Cell 16
  /-- H_* and ID* (10_state.md R36) -/
  hdr : HeaderRegs
  /-- RD_* (10_state.md R37) -/
  rd : ReadingRegs
  /-- RAW (10_state.md R39) -/
  raw : Memory
  /-- FRAME (10_state.md R40) -/
  frame : Memory
  /-- MBOX (10_state.md R42) -/
  mbox : Memory
  /-- MBOX_LEN (10_state.md R42) -/
  mboxLen : Cell 16
  /-- MBOX_RSSI (10_state.md R42) -/
  mboxRssi : RssiCell
  /-- EVLOG, oldest record first (10_state.md R46) -/
  evlog : List Event
  /-- the build parameters, fixed (00_scope.md R8, 10_state.md R45; log 2) -/
  build : Config
  /-- the actions of Host, Radio and platform still to come, next first (45_pipeline.md R231; log 3) -/
  schedule : List Action
  /-- what the last Host read returned (log 7) -/
  lastRead : ReadData
  /-- how many free draws Host reads have taken (log 6) -/
  draws : Nat
deriving DecidableEq, Repr

/-- Every header register UNDEF (10_state.md R36, R47). -/
def HeaderRegs.undef : HeaderRegs where
  l := none
  c := none
  m := none
  mfr := none
  addr := none
  ver := none
  devType := none
  crc := none
  id26 := none
  idYy := none
  idSerial := none
  idLet := none
  idStr := none

/-- Every reading register UNDEF (10_state.md R37, R47). -/
def ReadingRegs.undef : ReadingRegs where
  cur := none
  chk := none
  exp := none
  unit := none
  unitsRaw := none
  day := none
  month := none
  year := none
  batt := none
  interval := none
  randGen := none
  alarms := none
  rssi := none
  id := none

/-- The state right after reset of a block built with the parameters `c` (10_state.md R47,
70_reset_and_hazards.md R281). -/
def State.resetWith (c : Config) : State where
  cmd := 0x00
  err := .ok
  fok := false
  pend := false
  opa := none
  opb := none
  opc := none
  rawLen := 0
  dlen := some 0
  nib := none
  crcOut := none
  key := none
  seed := none
  lfsr := none
  rssi := none
  tpOff := none
  tpLen := none
  hdr := HeaderRegs.undef
  rd := ReadingRegs.undef
  raw := []
  frame := []
  mbox := []
  mboxLen := none
  mboxRssi := none
  evlog := []
  build := c
  schedule := []
  lastRead := .nothing
  draws := 0

/-- The state right after reset, at the default build parameters (log 2). -/
def State.reset : State := State.resetWith defaultConfig

end Sys2Proof.Machine
end

