-- ==== Sys2Proof/Machine/Ops.lean ====
section
/-! DEFINITION. The named operations over buffers and cells, and the end of a command: success, a raised status
(the block's only "exception", 60_exceptions.md R255) or the model fault ReadUndef. -/

namespace Sys2Proof.Machine

/-- The byte at index `a`; `none` is UNDEF. -/
def Memory.read : Memory → Nat → Option Byte
  | [], _ => none
  | (b, v) :: rest, a => if a = b then some v else Memory.read rest a

/-- B[a] <- v, keeping the canonical form. -/
def Memory.write : Memory → Nat → Byte → Memory
  | [], a, v => [(a, v)]
  | (b, w) :: rest, a, v =>
    if a < b then (a, v) :: (b, w) :: rest
    else if a = b then (a, v) :: rest
    else (b, w) :: Memory.write rest a v

/-- MemWrite(B, a, n, v) for the n bytes of a list (00_scope.md R12). -/
def Memory.writeBytes (m : Memory) (a : Nat) : List Byte → Memory
  | [] => m
  | v :: rest => Memory.writeBytes (Memory.write m a v) (a + 1) rest

/-- poison of the bytes lo <= j < hi: each holds UNDEF after it (00_scope.md R12). -/
def Memory.poison (m : Memory) (lo hi : Nat) : Memory :=
  m.filter fun x => !(lo ≤ x.1 && x.1 < hi)

/-- Why a command's computation ended early. -/
inductive Stop where
  /-- raise Status(E) (00_scope.md R12) -/
  | status (e : Err)
  /-- ReadUndef(cell) (10_state.md R21) -/
  | undef (c : CellName)
deriving DecidableEq, Repr

/-- Reading a cell while computing a result: its value, or ReadUndef (10_state.md R21). -/
def need {α : Type} (name : CellName) : Option α → Except Stop α
  | some v => .ok v
  | none => .error (.undef name)

/-- MemRead(B, a, n) (00_scope.md R12), each byte a read of its cell. -/
def memRead (name : Nat → CellName) (m : Memory) : Nat → Nat → Except Stop (List Byte)
  | _, 0 => .ok []
  | a, n + 1 => do
    let v ← need (name a) (Memory.read m a)
    let rest ← memRead name m (a + 1) n
    .ok (v :: rest)

/-- raise Status(e) on the state whose write set is already poisoned (60_exceptions.md R252). This is what the block
has for taking an exception: "Trap entry is the write of STATUS.ERR. Trap return is the Host's next action" (R255). -/
def raiseStatus (e : Err) (poisoned : State) : State := { poisoned with err := e }

/-- The end of a command (30_encoding.md R82, 60_exceptions.md R252): on success STATUS.ERR <- OK over `good`; on a
raised status the code over `poisoned`, the state with the command's write set at UNDEF and FOK as its rule says; on
a read of UNDEF the model fault. -/
def conclude {α : Type} (r : Except Stop α) (good : α → State) (poisoned : State) :
    Host.Outcome State Fault Refusal :=
  match r with
  | .ok a => .next { good a with err := .ok }
  | .error (.status e) => .next (raiseStatus e poisoned)
  | .error (.undef c) => .fault (.readUndef c)

end Sys2Proof.Machine
end

