-- ==== Sys2Proof/Machine/Operands.lean ====
section
/-! DEFINITION. Operands (30_encoding.md R84), byte orders (20_memory.md R64), bit-field gathering, and the register
map (10_state.md R22 to R37). -/

namespace Sys2Proof.Machine

/-- {b0, b1} (00_scope.md R12, BE16). -/
def be16 (b0 b1 : Byte) : BitVec 16 := b0 ++ b1

/-- {b0, b1, b2, b3} (00_scope.md R12, BE32). -/
def be32 (b0 b1 b2 b3 : Byte) : BitVec 32 := b0 ++ b1 ++ b2 ++ b3

/-- {b3, b2, b1, b0} (00_scope.md R12, LE32). -/
def le32 (b0 b1 b2 b3 : Byte) : BitVec 32 := b3 ++ b2 ++ b1 ++ b0

/-- The number whose base-256 digits are the bytes, first byte most significant. -/
def beNat (bs : List Byte) : Nat := bs.foldl (fun acc b => acc * 256 + b.toNat) 0

/-- The number whose bits stand at the given positions of `w`, most significant position first. -/
def gather {n : Nat} (w : BitVec n) (positions : List Nat) : Nat :=
  positions.foldl (fun acc p => 2 * acc + (w.getLsbD p).toNat) 0

/-- Byte i of a list of bytes that is known to reach past i. -/
def byteAt (bs : List Byte) (i : Nat) : Byte := bs.getD i 0

/-- FRAME[a], read as a cell. -/
def frameByte (frame : Memory) (a : Nat) : Except Stop Byte := need (.frame a) (Memory.read frame a)

/-- BE16(FRAME, a). -/
def frameBe16 (frame : Memory) (a : Nat) : Except Stop (BitVec 16) := do
  let b0 ← frameByte frame a
  let b1 ← frameByte frame (a + 1)
  .ok (be16 b0 b1)

/-- BE32(FRAME, a). -/
def frameBe32 (frame : Memory) (a : Nat) : Except Stop (BitVec 32) := do
  let b0 ← frameByte frame a
  let b1 ← frameByte frame (a + 1)
  let b2 ← frameByte frame (a + 2)
  let b3 ← frameByte frame (a + 3)
  .ok (be32 b0 b1 b2 b3)

/-- MemRead(FRAME, a, n). -/
def frameRead (frame : Memory) (a n : Nat) : Except Stop (List Byte) := memRead .frame frame a n

/-- OPA as an unsigned 16-bit natural (30_encoding.md R84). -/
def opaNat (s : State) : Except Stop Nat := do
  let v ← need (.reg .opa) s.opa
  .ok v.toNat

/-- OPB as an unsigned 16-bit natural (30_encoding.md R84). -/
def opbNat (s : State) : Except Stop Nat := do
  let v ← need (.reg .opb) s.opb
  .ok v.toNat

/-- DLEN as a natural. -/
def dlenNat (dlen : Cell 16) : Except Stop Nat := do
  let v ← need (.reg .dlen) dlen
  .ok v.toNat

/-- The register number map (10_state.md R22 to R37): `none` is an unassigned number. -/
def Reg.ofNumber (num : BitVec 8) : Option Reg :=
  match num.toNat with
  | 0x00 => some .cmd
  | 0x01 => some .status
  | 0x02 => some .opa
  | 0x03 => some .opb
  | 0x04 => some .opc
  | 0x05 => some .rawLen
  | 0x06 => some .dlen
  | 0x07 => some .nib
  | 0x08 => some .crcOut
  | 0x09 => some .key
  | 0x0A => some .seed
  | 0x0B => some .lfsr
  | 0x0C => some .rssi
  | 0x0D => some .tpOff
  | 0x0E => some .tpLen
  | 0x10 => some .hL
  | 0x11 => some .hC
  | 0x12 => some .hM
  | 0x13 => some .hMfr
  | 0x14 => some .hAddr
  | 0x15 => some .hVer
  | 0x16 => some .hType
  | 0x17 => some .hCrc
  | 0x18 => some .id26
  | 0x19 => some .idYy
  | 0x1A => some .idSerial
  | 0x1B => some .idLet
  | 0x1C => some .idStr
  | 0x20 => some .rdCur
  | 0x21 => some .rdChk
  | 0x22 => some .rdExp
  | 0x23 => some .rdUnit
  | 0x24 => some .rdUnitsRaw
  | 0x25 => some .rdDay
  | 0x26 => some .rdMonth
  | 0x27 => some .rdYear
  | 0x28 => some .rdBatt
  | 0x29 => some .rdInterval
  | 0x2A => some .rdRandGen
  | 0x2B => some .rdAlarms
  | 0x2C => some .rdRssi
  | 0x2D => some .rdId
  | _ => none

/-- The width of a register in bits (10_state.md R23 to R37). -/
def Reg.width (c : Config) : Reg → Nat
  | .cmd | .status => 8
  | .opa | .opb | .opc | .rawLen | .dlen | .crcOut | .tpOff | .tpLen => 16
  | .nib => 4
  | .key => 64
  | .seed | .lfsr => 32
  | .rssi | .rdRssi => c.rssiW
  | .hL | .hC | .hVer | .hType | .rdUnitsRaw => 8
  | .hM | .hCrc | .rdYear => 16
  | .hMfr => 24
  | .hAddr => 48
  | .id26 => 26
  | .idYy => 7
  | .idSerial => 20
  | .idLet => 15
  | .idStr | .rdId => 88
  | .rdCur | .rdChk | .rdInterval => 32
  | .rdExp | .rdMonth => 4
  | .rdUnit => 1
  | .rdDay | .rdBatt => 5
  | .rdRandGen => 2
  | .rdAlarms => 12

end Sys2Proof.Machine
end

