-- ==== Sys2Proof/Machine/Flags.lean ====
section
/-! DEFINITION. STATUS: its codes, its byte (10_state.md R24, 60_exceptions.md R250), and the value of every register
as the Host reads it. -/

namespace Sys2Proof.Machine

/-- The numbers of the status codes (60_exceptions.md R250). -/
def Err.code : Err → BitVec 5
  | .ok => 0x00
  | .illegal => 0x01
  | .codeword => 0x02
  | .bounds => 0x03
  | .short => 0x04
  | .length => 0x05
  | .crc => 0x06
  | .hdrCrc => 0x07
  | .tplShort => 0x08
  | .tplCrc => 0x09
  | .magic => 0x0A
  | .rdgShort => 0x0B
  | .noPkt => 0x0C
  | .seq => 0x0D

/-- STATUS = {RSV = 0, PEND, FOK, ERR} (10_state.md R24). -/
def statusByte (s : State) : BitVec 8 :=
  0#1 ++ BitVec.ofBool s.pend ++ BitVec.ofBool s.fok ++ s.err.code

/-- STATUS.FOK <- 0 (10_state.md R25). -/
def clearFok (s : State) : State := { s with fok := false }

/-- The number a cell holds; `none` is UNDEF. -/
def cellNat {w : Nat} (c : Cell w) : Option Nat := c.map BitVec.toNat

/-- The value of a register as a natural number, `none` where it holds UNDEF (45_pipeline.md R242, R243). -/
def regValue (s : State) : Reg → Option Nat
  | .cmd => some s.cmd.toNat
  | .status => some (statusByte s).toNat
  | .opa => cellNat s.opa
  | .opb => cellNat s.opb
  | .opc => cellNat s.opc
  | .rawLen => some s.rawLen.toNat
  | .dlen => cellNat s.dlen
  | .nib => cellNat s.nib
  | .crcOut => cellNat s.crcOut
  | .key => cellNat s.key
  | .seed => cellNat s.seed
  | .lfsr => cellNat s.lfsr
  | .rssi => s.rssi
  | .tpOff => cellNat s.tpOff
  | .tpLen => cellNat s.tpLen
  | .hL => cellNat s.hdr.l
  | .hC => cellNat s.hdr.c
  | .hM => cellNat s.hdr.m
  | .hMfr => cellNat s.hdr.mfr
  | .hAddr => cellNat s.hdr.addr
  | .hVer => cellNat s.hdr.ver
  | .hType => cellNat s.hdr.devType
  | .hCrc => cellNat s.hdr.crc
  | .id26 => cellNat s.hdr.id26
  | .idYy => cellNat s.hdr.idYy
  | .idSerial => cellNat s.hdr.idSerial
  | .idLet => cellNat s.hdr.idLet
  | .idStr => cellNat s.hdr.idStr
  | .rdCur => cellNat s.rd.cur
  | .rdChk => cellNat s.rd.chk
  | .rdExp => cellNat s.rd.exp
  | .rdUnit => cellNat s.rd.unit
  | .rdUnitsRaw => cellNat s.rd.unitsRaw
  | .rdDay => cellNat s.rd.day
  | .rdMonth => cellNat s.rd.month
  | .rdYear => cellNat s.rd.year
  | .rdBatt => cellNat s.rd.batt
  | .rdInterval => cellNat s.rd.interval
  | .rdRandGen => cellNat s.rd.randGen
  | .rdAlarms => cellNat s.rd.alarms
  | .rdRssi => s.rd.rssi
  | .rdId => cellNat s.rd.id

end Sys2Proof.Machine
end

