-- ==== Sys2Proof/Machine/FrameCrc.lean ====
section
/-! DEFINITION. FrameCRC, CRC-16 EN 13757: CRC and CRCV (41_frame_crc.md). -/

namespace Sys2Proof.Machine

/-- One turn of the inner loop (41_frame_crc.md R121). -/
def crcBit (c : BitVec 16) : BitVec 16 := if c.getLsbD 15 then (c <<< 1) ^^^ 0x3D65#16 else c <<< 1

/-- `n` turns of the inner loop. -/
def crcBits : Nat → BitVec 16 → BitVec 16
  | 0, c => c
  | n + 1, c => crcBits n (crcBit c)

/-- One byte into the register: c ^ (d << 8), then 8 turns (41_frame_crc.md R121). -/
def crcByte (c : BitVec 16) (d : Byte) : BitVec 16 := crcBits 8 (c ^^^ (d.setWidth 16 <<< 8))

/-- crc16 of a list of bytes: initial value 0x0000, final XOR 0xFFFF (41_frame_crc.md R120, R121). -/
def crc16 (d : List Byte) : BitVec 16 := d.foldl crcByte 0x0000#16 ^^^ 0xFFFF#16

/-- A FRAME region checked against DLEN and read: E_BOUNDS when off + len > DLEN (41_frame_crc.md R122). -/
def regionRead (s : State) (off len : Nat) : Except Stop (List Byte) := do
  let d ← dlenNat s.dlen
  if d < off + len then .error (.status .bounds) else frameRead s.frame off len

/-- CRC (41_frame_crc.md R122). -/
def execCrc (s : State) : Host.Outcome State Fault Refusal :=
  conclude
    (do
      let off ← opaNat s
      let len ← opbNat s
      let bs ← regionRead s off len
      .ok (crc16 bs))
    (fun c => { s with crcOut := some c })
    { s with crcOut := none }

/-- What CRCV computes: the checksum and the expected value (41_frame_crc.md R124). -/
def crcvPair (s : State) : Except Stop (BitVec 16 × BitVec 16) := do
  let off ← opaNat s
  let len ← opbNat s
  let bs ← regionRead s off len
  let expected ← need (.reg .opc) s.opc
  .ok (crc16 bs, expected)

/-- CRCV (41_frame_crc.md R124): E_CRC keeps the recomputed CRC_OUT, every other failure poisons it. -/
def execCrcv (s : State) : Host.Outcome State Fault Refusal :=
  match crcvPair s with
  | .ok (c, expected) => .next { s with crcOut := some c, err := if c = expected then .ok else .crc }
  | .error (.status e) => .next (raiseStatus e { s with crcOut := none })
  | .error (.undef cell) => .fault (.readUndef cell)

end Sys2Proof.Machine
end

