-- ==== Sys2Proof/Machine/FrameParser.lean ====
section
/-! DEFINITION. FrameParser: PHDR and STPL (42_frame_parser.md). -/

namespace Sys2Proof.Machine

/-- The ASCII code of a 5-bit letter value: LETTER_ZERO for 0, else 0x40 + v (42_frame_parser.md R144). -/
def letterChar (c : Config) (v : BitVec 5) : Byte := if v = 0#5 then c.letterZero else 0x40#8 + v.setWidth 8

/-- The manufacturer word of FRAME[2], FRAME[3] (42_frame_parser.md R143). -/
def manufacturerWord (o : MfrOrder) (b2 b3 : Byte) : BitVec 16 :=
  match o with
  | .be => be16 b2 b3
  | .le => be16 b3 b2

/-- The three manufacturer letters, H_M[14:10], H_M[9:5], H_M[4:0] (42_frame_parser.md R143). -/
def manufacturerLetters (c : Config) (m : BitVec 16) : BitVec 24 :=
  letterChar c (m.extractLsb' 10 5) ++ letterChar c (m.extractLsb' 5 5) ++ letterChar c (m.extractLsb' 0 5)

/-- The address field as the little-endian number whose bit p is bit (p mod 8) of FRAME[4 + p div 8]; IDENT_MAP
names its bits. -/
def addressBits (b4 b5 b6 b7 b8 b9 : Byte) : BitVec 48 := b9 ++ b8 ++ b7 ++ b6 ++ b5 ++ b4

/-- ID26 (42_frame_parser.md R145). -/
def identInteger (c : Config) (a : BitVec 48) : BitVec 26 :=
  BitVec.ofNat 26 (gather a (c.identMap.id26.toList.map Fin.val))

/-- ID_LET = {S, T, D} (42_frame_parser.md R146). -/
def identLetters (c : Config) (a : BitVec 48) : BitVec 15 :=
  BitVec.ofNat 15 (gather a (c.identMap.letters.toList.map Fin.val))

/-- The ASCII code of a decimal digit. -/
def digitChar (n : Nat) : Byte := BitVec.ofNat 8 (0x30 + n % 10)

/-- The 11 characters of the meter identity (42_frame_parser.md R147). -/
def identChars (c : Config) (yy serial : Nat) (letters : BitVec 15) : List Byte :=
  [letterChar c (letters.extractLsb' 10 5),
   digitChar (yy / 10), digitChar yy,
   letterChar c (letters.extractLsb' 5 5), letterChar c (letters.extractLsb' 0 5),
   digitChar (serial / 100000), digitChar (serial / 10000), digitChar (serial / 1000),
   digitChar (serial / 100), digitChar (serial / 10), digitChar serial]

/-- The header values of the 10 bytes FRAME[0..10) and the declared CRC (42_frame_parser.md R141). -/
def headerOf (c : Config) (b : List Byte) (hc : BitVec 16) : Header :=
  let m := manufacturerWord c.mfrOrder (byteAt b 2) (byteAt b 3)
  let a := addressBits (byteAt b 4) (byteAt b 5) (byteAt b 6) (byteAt b 7) (byteAt b 8) (byteAt b 9)
  let id := identInteger c a
  let yy := id.toNat / 1000000
  let serial := id.toNat % 1000000
  let letters := identLetters c a
  { l := byteAt b 0
    c := byteAt b 1
    m := m
    mfr := manufacturerLetters c m
    addr := BitVec.ofNat 48 (beNat [byteAt b 4, byteAt b 5, byteAt b 6, byteAt b 7, byteAt b 8, byteAt b 9])
    ver := byteAt b 8
    devType := byteAt b 9
    crc := hc
    id26 := id
    idYy := BitVec.ofNat 7 yy
    idSerial := BitVec.ofNat 20 serial
    idLet := letters
    idStr := BitVec.ofNat 88 (beNat (identChars c yy serial letters)) }

/-- The 13 header registers holding a header (10_state.md R36). -/
def headerRegsOf (h : Header) : HeaderRegs where
  l := some h.l
  c := some h.c
  m := some h.m
  mfr := some h.mfr
  addr := some h.addr
  ver := some h.ver
  devType := some h.devType
  crc := some h.crc
  id26 := some h.id26
  idYy := some h.idYy
  idSerial := some h.idSerial
  idLet := some h.idLet
  idStr := some h.idStr

/-- PHDR's computation (42_frame_parser.md R141, R142): E_SHORT, then E_HDR_CRC, then the fields. -/
def parseHeader (c : Config) (frame : Memory) (dlen : Cell 16) : Except Stop Header := do
  let d ← dlenNat dlen
  if d < 12 then .error (.status .short) else do
    let hc ← frameBe16 frame 10
    let b ← frameRead frame 0 10
    if crc16 b = hc then .ok (headerOf c b hc) else .error (.status .hdrCrc)

/-- PHDR (42_frame_parser.md R141): FOK unchanged on success, 0 on failure. -/
def execPhdr (s : State) : Host.Outcome State Fault Refusal :=
  conclude (parseHeader s.build s.frame s.dlen)
    (fun h => { s with hdr := headerRegsOf h })
    { s with hdr := HeaderRegs.undef, fok := false }

/-- STPL's computation (42_frame_parser.md R150): TP_LEN; TP_OFF is 12. -/
def splitTransport (frame : Memory) (dlen : Cell 16) : Except Stop Nat := do
  let d ← dlenNat dlen
  if d < 14 then .error (.status .tplShort) else do
    let payload ← frameRead frame 12 (d - 14)
    let tc ← frameBe16 frame (d - 2)
    if crc16 payload = tc then .ok (d - 14) else .error (.status .tplCrc)

/-- STPL (42_frame_parser.md R150): FOK unchanged on success, 0 on failure. -/
def execStpl (s : State) : Host.Outcome State Fault Refusal :=
  conclude (splitTransport s.frame s.dlen)
    (fun n => { s with tpOff := some 12, tpLen := some (BitVec.ofNat 16 n) })
    { s with tpOff := none, tpLen := none, fok := false }

end Sys2Proof.Machine
end

