-- ==== Sys2Proof/Machine/LineCodec.lean ====
section
/-! DEFINITION. LineCodec, the 3-out-of-6 decoder: DNIB and DBUF (40_line_codec.md). -/

namespace Sys2Proof.Machine

/-- The nibble whose codeword is `sym`, if it is one of the 16 (40_line_codec.md R100, R101). -/
def nibbleOf (c : Config) (sym : BitVec 6) : Option (BitVec 4) :=
  (c.sixbitTable.toList.findIdx? fun w => w == sym).map (BitVec.ofNat 4)

/-- The six stream bits that begin `sh` bits into the 16-bit window {b0, b1}, first bit most significant
(40_line_codec.md R103). -/
def symbolAt (b0 b1 : Byte) (sh : Nat) : BitVec 6 := ((b0 ++ b1 : BitVec 16) >>> (10 - sh)).setWidth 6

/-- Symbol k of the raw stream: stream bits 6k to 6k+5, which lie in the bytes 6k div 8 and (6k+5) div 8
(40_line_codec.md R103). -/
def symbol (raw : Memory) (k : Nat) : Except Stop (BitVec 6) := do
  let b0 ← need (.raw (6 * k / 8)) (Memory.read raw (6 * k / 8))
  let b1 ← need (.raw ((6 * k + 5) / 8)) (Memory.read raw ((6 * k + 5) / 8))
  .ok (symbolAt b0 b1 (6 * k % 8))

/-- DBUF's loop: the nibbles of `g` symbols from symbol `k` on, in stream order; the first symbol that is no
codeword raises E_CODEWORD (40_line_codec.md R104). -/
def decodeSymbols (c : Config) (raw : Memory) : Nat → Nat → Except Stop (List (BitVec 4))
  | _, 0 => .ok []
  | k, g + 1 => do
    let sym ← symbol raw k
    match nibbleOf c sym with
    | none => .error (.status .codeword)
    | some nb => do
      let rest ← decodeSymbols c raw (k + 1) g
      .ok (nb :: rest)

/-- Nibbles packed high then low; the low nibble of a last odd one is 0 (20_memory.md R63, 40_line_codec.md R104). -/
def packNibbles : List (BitVec 4) → List Byte
  | [] => []
  | [hi] => [hi ++ 0#4]
  | hi :: lo :: rest => (hi ++ lo) :: packNibbles rest

/-- g = floor(8n/6), the complete symbols in n raw bytes (40_line_codec.md R104). -/
def symbolCount (n : Nat) : Nat := 8 * n / 6

/-- m = (g + 1) div 2, the bytes DBUF writes for n raw bytes (40_line_codec.md R104, R105). -/
def decodedLength (n : Nat) : Nat := (symbolCount n + 1) / 2

/-- The bytes decoded from RAW[0..n) (40_line_codec.md R104). -/
def lineDecode (c : Config) (raw : Memory) (n : Nat) : Except Stop (List Byte) := do
  let nibs ← decodeSymbols c raw 0 (symbolCount n)
  .ok (packNibbles nibs)

/-- need(E) = (3E + 1) div 2, the raw bytes a frame of E decoded bytes takes (40_line_codec.md R106). -/
def requiredRaw (e : Nat) : Nat := (3 * e + 1) / 2

/-- DNIB (40_line_codec.md R102): sym = OPA[5:0], OPA[15:6] ignored. -/
def execDnib (s : State) : Host.Outcome State Fault Refusal :=
  conclude
    (do
      let a ← need (.reg .opa) s.opa
      match nibbleOf s.build (a.setWidth 6) with
      | some nb => .ok nb
      | none => .error (.status .codeword))
    (fun nb => { s with nib := some nb })
    { s with nib := none }

/-- DBUF with n raw bytes: the check against RAW_LEN, then the decoding (40_line_codec.md R104). -/
def dbufBytes (s : State) (n : Nat) : Except Stop (List Byte) :=
  if s.rawLen.toNat < n then .error (.status .bounds) else lineDecode s.build s.raw n

/-- DBUF's write set at UNDEF and FOK <- 0 (40_line_codec.md R104): FRAME[0..m) and DLEN. FRAME has no cell at or
above FRAME_MAX, so the rule's min(m, FRAME_MAX) is met by m (log 13). -/
def dbufPoisoned (s : State) (n : Nat) : State :=
  { s with frame := Memory.poison s.frame 0 (decodedLength n), dlen := none, fok := false }

/-- DBUF (40_line_codec.md R104): n = OPB. -/
def execDbuf (s : State) : Host.Outcome State Fault Refusal :=
  match s.opb with
  | none => .fault (.readUndef (.reg .opb))
  | some n =>
    conclude (dbufBytes s n.toNat)
      (fun bs => { s with frame := Memory.writeBytes s.frame 0 bs, dlen := some (BitVec.ofNat 16 bs.length), fok := false })
      (dbufPoisoned s n.toNat)

end Sys2Proof.Machine
end

