-- ==== Sys2Proof/Machine/Cipher.lean ====
section
/-! DEFINITION. CipherLayer, the PRIOS LFSR stream cipher: DKEY and DCRY (43_cipher.md). -/

namespace Sys2Proof.Machine

/-- One LFSR step, taps 1, 2, 11 and 31 (43_cipher.md R174). -/
def lfsrStep (s : BitVec 32) : BitVec 32 :=
  (s <<< 1) ||| (BitVec.ofBool (((s.getLsbD 1 ^^ s.getLsbD 2) ^^ s.getLsbD 11) ^^ s.getLsbD 31)).setWidth 32

/-- `n` LFSR steps. -/
def lfsrSteps : Nat → BitVec 32 → BitVec 32
  | 0, s => s
  | n + 1, s => lfsrSteps n (lfsrStep s)

/-- s_{i+1} = step^8(s_i) (43_cipher.md R177). -/
def lfsrByte (s : BitVec 32) : BitVec 32 := lfsrSteps 8 s

/-- The keystream byte: the low 8 bits of the stepped state (43_cipher.md R177). -/
def keystreamByte (s : BitVec 32) : Byte := s.setWidth 8

/-- The magic byte (43_cipher.md R178). -/
def magicByte : Byte := 0x4B

/-- DKEY's computation (43_cipher.md R171): the length check comes before KEY is read. -/
def deriveKey (key : Cell 64) (frame : Memory) (dlen : Cell 16) : Except Stop (BitVec 32) := do
  let d ← dlenNat dlen
  if d < 16 then .error (.status .short) else do
    let k ← need (.reg .key) key
    let w2 ← frameBe32 frame 2
    let w6 ← frameBe32 frame 6
    let w12 ← frameBe32 frame 12
    .ok (k.extractLsb' 32 32 ^^^ k.extractLsb' 0 32 ^^^ w2 ^^^ w6 ^^^ w12)

/-- DKEY (43_cipher.md R171). -/
def execDkey (s : State) : Host.Outcome State Fault Refusal :=
  conclude (deriveKey s.key s.frame s.dlen)
    (fun seed => { s with seed := some seed })
    { s with seed := none }

/-- The plaintext of the `n` bytes FRAME[a..a+n) with the LFSR at `s` before the first, and the LFSR after the last
(43_cipher.md R175, R179). -/
def decryptFrom (frame : Memory) : BitVec 32 → Nat → Nat → Except Stop (List Byte × BitVec 32)
  | s, _, 0 => .ok ([], s)
  | s, a, n + 1 => do
    let ct ← frameByte frame a
    let rest ← decryptFrom frame (lfsrByte s) (a + 1) n
    .ok ((ct ^^^ keystreamByte (lfsrByte s)) :: rest.1, rest.2)

/-- DCRY's computation on the region (off, len) (43_cipher.md R175): E_BOUNDS; E_MAGIC for an empty region (R181);
E_MAGIC when the first plaintext byte is not 0x4B (R178), before any further byte; then the rest. -/
def decrypt (seed : Cell 32) (frame : Memory) (dlen : Cell 16) (off len : Nat) :
    Except Stop (List Byte × BitVec 32) := do
  let d ← dlenNat dlen
  if d < off + len then .error (.status .bounds) else
    if len = 0 then .error (.status .magic) else do
      let s ← need (.reg .seed) seed
      let ct ← frameByte frame off
      if ct ^^^ keystreamByte (lfsrByte s) = magicByte then decryptFrom frame s off len
      else .error (.status .magic)

/-- DCRY's write set at UNDEF and FOK <- 0 (43_cipher.md R175): the region and LFSR. FRAME has no cell at or above
FRAME_MAX, so the rule's min with FRAME_MAX is met by the region itself (log 13). -/
def dcryPoisoned (s : State) (off len : Nat) : State :=
  { s with frame := Memory.poison s.frame off (off + len), lfsr := none, fok := false }

/-- DCRY (43_cipher.md R175): off = OPA, len = OPB. -/
def execDcry (s : State) : Host.Outcome State Fault Refusal :=
  match s.opa, s.opb with
  | none, _ => .fault (.readUndef (.reg .opa))
  | some _, none => .fault (.readUndef (.reg .opb))
  | some off, some len =>
    conclude (decrypt s.seed s.frame s.dlen off.toNat len.toNat)
      (fun r => { s with frame := Memory.writeBytes s.frame off.toNat r.1, lfsr := some r.2, fok := false })
      (dcryPoisoned s off.toNat len.toNat)

end Sys2Proof.Machine
end

