-- ==== Sys2Proof/Machine/ReadingParser.lean ====
section
/-! DEFINITION. ReadingParser, the payload bit-field extractor: PRDG (44_reading_parser.md). -/

namespace Sys2Proof.Machine

/-- y7 from the year parts hi3 = P[14][7:5] and lo4 = P[15][7:4] (44_reading_parser.md R202). -/
def yearBits (o : YearOrder) (p14 p15 : Byte) : Nat :=
  match o with
  | .doc => (p14.extractLsb' 5 3).toNat * 16 + (p15.extractLsb' 4 4).toNat
  | .typeG => (p15.extractLsb' 4 4).toNat * 8 + (p14.extractLsb' 5 3).toNat

/-- The century rule (44_reading_parser.md R203). -/
def fullYear (y7 : Nat) : Nat := if 80 < y7 then 1900 + y7 else 2000 + y7

/-- The three status bytes as one word: bit p is bit (p mod 8) of status byte p div 8; ALARM_MAP names its bits. -/
def statusBits (s0 s1 s2 : Byte) : BitVec 24 := s2 ++ s1 ++ s0

/-- RD_ALARMS (44_reading_parser.md R195). -/
def alarmField (c : Config) (s0 s1 s2 : Byte) : BitVec 12 :=
  BitVec.ofNat 12 (gather (statusBits s0 s1 s2) (c.alarmMap.alarms.toList.map Fin.val))

/-- RD_RANDGEN (44_reading_parser.md R194). -/
def randGenField (c : Config) (s0 s1 s2 : Byte) : BitVec 2 :=
  BitVec.ofNat 2 (gather (statusBits s0 s1 s2) (c.alarmMap.randGen.toList.map Fin.val))

/-- RD_UNIT: 1 when the unit field of the units byte is 0x02 (44_reading_parser.md R198). -/
def unitField (c : Config) (u : Byte) : BitVec 1 :=
  if gather u (c.unitField.map Fin.val) = 0x02 then 1#1 else 0#1

/-- RD_EXP = u[2:0] - 6, 4 bits signed (44_reading_parser.md R197). -/
def exponentField (u : Byte) : BitVec 4 := (u.extractLsb' 0 3).setWidth 4 - 6#4

/-- RD_INTERVAL = 1 << (s0[3:0] + 2) (44_reading_parser.md R193). -/
def intervalField (s0 : Byte) : BitVec 32 := 1#32 <<< ((s0.extractLsb' 0 4).toNat + 2)

/-- The reading of the payload bytes P[0..5) and P[6..16) with the passthrough values (44_reading_parser.md R190).
`lo` holds P[0..5), `hi` holds P[6..16). -/
def readingOf (c : Config) (lo hi : List Byte) (id : BitVec 88) (rssi : Nat) : Reading :=
  let s0 := byteAt lo 1
  let s1 := byteAt lo 2
  let s2 := byteAt lo 3
  let u := byteAt lo 4
  let p14 := byteAt hi 8
  let p15 := byteAt hi 9
  { cur := le32 (byteAt hi 0) (byteAt hi 1) (byteAt hi 2) (byteAt hi 3)
    chk := le32 (byteAt hi 4) (byteAt hi 5) (byteAt hi 6) (byteAt hi 7)
    exp := exponentField u
    unit := unitField c u
    unitsRaw := u
    day := p14.extractLsb' 0 5
    month := p15.extractLsb' 0 4
    year := BitVec.ofNat 16 (fullYear (yearBits c.yearOrder p14 p15))
    batt := s1.extractLsb' 0 5
    interval := intervalField s0
    randGen := randGenField c s0 s1 s2
    alarms := alarmField c s0 s1 s2
    rssi := rssi
    id := id }

/-- The 14 reading registers holding a reading (10_state.md R37). -/
def readingRegsOf (r : Reading) : ReadingRegs where
  cur := some r.cur
  chk := some r.chk
  exp := some r.exp
  unit := some r.unit
  unitsRaw := some r.unitsRaw
  day := some r.day
  month := some r.month
  year := some r.year
  batt := some r.batt
  interval := some r.interval
  randGen := some r.randGen
  alarms := some r.alarms
  rssi := some r.rssi
  id := some r.id

/-- PRDG's computation on the region (off, len) (44_reading_parser.md R190, R191): E_BOUNDS, E_RDG_SHORT, then the
payload is read, then E_MAGIC, then the fields. P[5] is never read (R207; log 9). -/
def parseReading (c : Config) (idStr : Cell 88) (rssi : RssiCell) (frame : Memory) (dlen : Cell 16)
    (off len : Nat) : Except Stop Reading := do
  let d ← dlenNat dlen
  if d < off + len then .error (.status .bounds) else
    if len < 16 then .error (.status .rdgShort) else do
      let lo ← frameRead frame off 5
      let hi ← frameRead frame (off + 6) 10
      if byteAt lo 0 = magicByte then do
        let id ← need (.reg .idStr) idStr
        let r ← need (.reg .rssi) rssi
        .ok (readingOf c lo hi id r)
      else .error (.status .magic)

/-- PRDG (44_reading_parser.md R190): off = OPA, len = OPB. -/
def execPrdg (s : State) : Host.Outcome State Fault Refusal :=
  conclude
    (do
      let off ← opaNat s
      let len ← opbNat s
      parseReading s.build s.hdr.idStr s.rssi s.frame s.dlen off len)
    (fun r => { s with rd := readingRegsOf r })
    { s with rd := ReadingRegs.undef }

end Sys2Proof.Machine
end

