-- ==== Sys2Proof/Machine/Pipeline.lean ====
section
/-! DEFINITION. The mailbox and the composite decode chain: TAKE, PFRM, PPAY, PPKT (45_pipeline.md). -/

namespace Sys2Proof.Machine

/-- What TAKE reads from the mailbox: the length, the bytes, the signal strength (45_pipeline.md R220). -/
def mailboxPacket (s : State) : Except Stop (BitVec 16 × List Byte × Nat) := do
  let n ← need .mboxLen s.mboxLen
  let bs ← memRead .mbox s.mbox 0 n.toNat
  let r ← need .mboxRssi s.mboxRssi
  .ok (n, bs, r)

/-- TAKE (45_pipeline.md R220): E_NOPKT changes only ERR. -/
def execTake (s : State) : Host.Outcome State Fault Refusal :=
  if s.pend then
    conclude (mailboxPacket s)
      (fun p => { s with
        raw := Memory.writeBytes s.raw 0 p.2.1, rawLen := p.1, rssi := some p.2.2, pend := false, fok := false })
      s
  else .next (raiseStatus .noPkt s)

/-- What PFRM computes: the new FRAME and its bytes, the header, TP_LEN and RSSI (45_pipeline.md R221). -/
structure FrameResult where
  frame : Memory
  bytes : List Byte
  header : Header
  tpLen : Nat
  rssi : Nat
deriving DecidableEq, Repr

/-- PFRM's first pass: the L-field from RAW[0..2) (45_pipeline.md R222). -/
def firstPass (s : State) : Except Stop Nat :=
  if s.rawLen.toNat < 2 then .error (.status .short) else do
    let bs ← lineDecode s.build s.raw 2
    .ok (byteAt bs 0).toNat

/-- E = L + 5, the decoded length of a frame (45_pipeline.md R221). -/
def expectedLength (l : Nat) : Nat := l + 5

/-- PFRM's computation, in the order of its pseudocode (45_pipeline.md R221). -/
def frameStage (s : State) : Except Stop FrameResult := do
  let l ← firstPass s
  if s.rawLen.toNat < requiredRaw (expectedLength l) then .error (.status .length) else do
    let bs ← dbufBytes s (requiredRaw (expectedLength l))
    let frame := Memory.writeBytes s.frame 0 bs
    let dlen : Cell 16 := some (BitVec.ofNat 16 bs.length)
    let h ← parseHeader s.build frame dlen
    let n ← splitTransport frame dlen
    let r ← need (.reg .rssi) s.rssi
    .ok { frame := frame, bytes := bs, header := h, tpLen := n, rssi := r }

/-- The PKT_EVENT of a decoded frame (45_pipeline.md R223). -/
def pktEvent (r : FrameResult) : Event :=
  .pkt r.header.idStr r.bytes 12 (BitVec.ofNat 16 r.tpLen) r.rssi

/-- PFRM's effect on success (45_pipeline.md R221). -/
def frameDone (s : State) (r : FrameResult) : State :=
  { s with
    frame := r.frame
    dlen := some (BitVec.ofNat 16 r.bytes.length)
    hdr := headerRegsOf r.header
    tpOff := some 12
    tpLen := some (BitVec.ofNat 16 r.tpLen)
    evlog := s.evlog ++ [pktEvent r]
    fok := true }

/-- PFRM's write set at UNDEF and FOK = 0 (45_pipeline.md R221): DLEN, all of FRAME, W(PHDR), W(STPL). -/
def framePoisoned (s : State) : State :=
  { s with frame := [], dlen := none, hdr := HeaderRegs.undef, tpOff := none, tpLen := none, fok := false }

/-- PFRM, shared by the commands PFRM and PPKT (45_pipeline.md R221, R227). -/
def runFrameStage (s : State) : Host.Outcome State Fault Refusal :=
  conclude (frameStage s) (frameDone s) (framePoisoned s)

/-- What PPAY computes: the seed, the LFSR after the last byte, the decrypted FRAME and the reading
(45_pipeline.md R224). -/
structure PayloadResult where
  seed : BitVec 32
  lfsr : BitVec 32
  frame : Memory
  reading : Reading
deriving DecidableEq, Repr

/-- PPAY's computation on the region from `off` + CIPHER_OFF to `off` + `len` (45_pipeline.md R224): DKEY, the
CIPHER_OFF check, DCRY, PRDG. -/
def payloadStage (s : State) (off len : Nat) : Except Stop PayloadResult := do
  let seed ← deriveKey s.key s.frame s.dlen
  if len < s.build.cipherOff then .error (.status .rdgShort) else do
    let start := off + s.build.cipherOff
    let count := len - s.build.cipherOff
    let p ← decrypt (some seed) s.frame s.dlen start count
    let frame := Memory.writeBytes s.frame start p.1
    let r ← parseReading s.build s.hdr.idStr s.rssi frame s.dlen start count
    .ok { seed := seed, lfsr := p.2, frame := frame, reading := r }

/-- PPAY's effect on success (45_pipeline.md R224, R226). -/
def payloadDone (s : State) (r : PayloadResult) : State :=
  { s with
    seed := some r.seed
    lfsr := some r.lfsr
    frame := r.frame
    rd := readingRegsOf r.reading
    evlog := s.evlog ++ [.reading r.reading]
    fok := false }

/-- PPAY's write set at UNDEF and FOK = 0 (45_pipeline.md R224): SEED, LFSR, the region and W(PRDG). -/
def payloadPoisoned (s : State) (off len : Nat) : State :=
  { s with
    seed := none
    lfsr := none
    frame := Memory.poison s.frame (off + s.build.cipherOff) (off + len)
    rd := ReadingRegs.undef
    fok := false }

/-- PPAY, shared by the commands PPAY and PPKT (45_pipeline.md R224, R227). E_SEQ writes nothing else (R225). The
write set is named by TP_OFF and TP_LEN, so they are read first (log 17). -/
def runPayloadStage (s : State) : Host.Outcome State Fault Refusal :=
  if s.fok then
    match s.tpOff, s.tpLen with
    | none, _ => .fault (.readUndef (.reg .tpOff))
    | some _, none => .fault (.readUndef (.reg .tpLen))
    | some off, some len =>
      conclude (payloadStage s off.toNat len.toNat) (payloadDone s) (payloadPoisoned s off.toNat len.toNat)
  else .next (raiseStatus .seq s)

/-- PFRM (45_pipeline.md R221). -/
def execPfrm (s : State) : Host.Outcome State Fault Refusal := runFrameStage s

/-- PPAY (45_pipeline.md R224). -/
def execPpay (s : State) : Host.Outcome State Fault Refusal := runPayloadStage s

/-- PPKT (45_pipeline.md R227): PFRM then PPAY; on PFRM's failure it ends with PFRM's status. -/
def execPpkt (s : State) : Host.Outcome State Fault Refusal :=
  match runFrameStage s with
  | .next t => if t.err = .ok then runPayloadStage t else .next t
  | .fault f => .fault f
  | .refused r => .refused r

end Sys2Proof.Machine
end

