-- ==== Sys2Proof/Machine/Dispatch.lean ====
section
/-! DEFINITION. One arm per command (30_encoding.md R83), each a direct call of its meaning. -/

namespace Sys2Proof.Machine

def exec (i : Instr) (s : State) : Host.Outcome State Fault Refusal :=
  match i with
  | .dnib => Sys2Proof.Machine.execDnib s
  | .dbuf => Sys2Proof.Machine.execDbuf s
  | .crc => Sys2Proof.Machine.execCrc s
  | .crcv => Sys2Proof.Machine.execCrcv s
  | .phdr => Sys2Proof.Machine.execPhdr s
  | .stpl => Sys2Proof.Machine.execStpl s
  | .dkey => Sys2Proof.Machine.execDkey s
  | .dcry => Sys2Proof.Machine.execDcry s
  | .prdg => Sys2Proof.Machine.execPrdg s
  | .take => Sys2Proof.Machine.execTake s
  | .pfrm => Sys2Proof.Machine.execPfrm s
  | .ppay => Sys2Proof.Machine.execPpay s
  | .ppkt => Sys2Proof.Machine.execPpkt s

end Sys2Proof.Machine
end

