-- ==== Sys2Proof/Machine/Bus.lean ====
section
/-! DEFINITION. What the agents outside the Core do: the Host's transactions (45_pipeline.md R240 to R243), the
Radio's Deliver (R230) and the platform's reset (70_reset_and_hazards.md R280). -/

namespace Sys2Proof.Machine

/-- A Host write of CMD (10_state.md R23, 30_encoding.md R81, R82): a legal word executes its command; an illegal one
changes ERR alone. CMD holds the word in both cases; no command reads CMD, so it is stored first (log 4). -/
def writeCmd (s : State) (w : Byte) : Host.Outcome State Fault Refusal :=
  match decode w with
  | .ok i => exec i { s with cmd := w }
  | .error _ => .next (raiseStatus .illegal { s with cmd := w })

/-- A Host write of an assigned register (45_pipeline.md R241): the value is cut to the register's width; read-only
registers ignore it; DLEN clears FOK. RAW_LEN above RAW_MAX and DLEN above FRAME_MAX break R240 item 3, judged on the
value written (log 8). -/
def writeRegister (s : State) (a : Action) (r : Reg) (v : Nat) : Host.Outcome State Fault Refusal :=
  match r with
  | .cmd => writeCmd s (BitVec.ofNat 8 v)
  | .opa => .next { s with opa := some (BitVec.ofNat 16 v) }
  | .opb => .next { s with opb := some (BitVec.ofNat 16 v) }
  | .opc => .next { s with opc := some (BitVec.ofNat 16 v) }
  | .rawLen =>
    if v ≤ s.build.rawMax then .next { s with rawLen := BitVec.ofNat 16 v } else .fault (.hostFault a)
  | .dlen =>
    if v ≤ s.build.frameMax then .next (clearFok { s with dlen := some (BitVec.ofNat 16 v) })
    else .fault (.hostFault a)
  | .key => .next { s with key := some (BitVec.ofNat 64 v) }
  | .seed => .next { s with seed := some (BitVec.ofNat 32 v) }
  | .rssi => .next { s with rssi := some (v % 2 ^ s.build.rssiW) }
  | .status | .nib | .crcOut | .lfsr | .tpOff | .tpLen
  | .hL | .hC | .hM | .hMfr | .hAddr | .hVer | .hType | .hCrc | .id26 | .idYy | .idSerial | .idLet | .idStr
  | .rdCur | .rdChk | .rdExp | .rdUnit | .rdUnitsRaw | .rdDay | .rdMonth | .rdYear | .rdBatt | .rdInterval
  | .rdRandGen | .rdAlarms | .rdRssi | .rdId => .next s

/-- A Host read of an assigned register (45_pipeline.md R242): its value, or a free draw of its width. -/
def readRegister (s : State) (r : Reg) : State :=
  match regValue s r with
  | some v => { s with lastRead := .reg r v }
  | none =>
    { s with
      lastRead := .reg r (Config.freeDraw s.draws % 2 ^ Reg.width s.build r)
      draws := s.draws + 1 }

/-- The bytes a Host read of `n` cells from index `a` returns, each UNDEF one a free draw of 8 bits, and the number of
draws taken by then (45_pipeline.md R242). -/
def drawBytes (m : Memory) : Nat → Nat → Nat → List Byte × Nat
  | draws, _, 0 => ([], draws)
  | draws, a, n + 1 =>
    match Memory.read m a with
    | some v => let rest := drawBytes m draws (a + 1) n; (v :: rest.1, rest.2)
    | none =>
      let rest := drawBytes m (draws + 1) (a + 1) n
      (BitVec.ofNat 8 (Config.freeDraw draws) :: rest.1, rest.2)

/-- The Host may touch `n` cells from index `start` of a buffer: every index is below the capacity, and the buffer is
not MBOX (45_pipeline.md R240 items 2 and 5). An index is a natural below the capacity (00_scope.md R12, 20_memory.md R61),
not cut to the 16 bits of 20_memory.md R60: DESIGN CHOICE, unsafe for FRAME_MAX above 65536 (log 22). -/
def accessAllowed (c : Config) (b : Buffer) (start n : Nat) : Bool :=
  match b with
  | .raw => n = 0 || start + n ≤ c.rawMax
  | .frame => n = 0 || start + n ≤ c.frameMax
  | .mbox => false

/-- A Host write of buffer bytes (45_pipeline.md R241): a write to a FRAME byte clears FOK, a write to RAW does not.
A write of no byte writes nothing (log 12). -/
def writeBuffer (s : State) (b : Buffer) (start : Nat) (bs : List Byte) : State :=
  match b with
  | .raw => { s with raw := Memory.writeBytes s.raw start bs }
  | .frame => { s with frame := Memory.writeBytes s.frame start bs, fok := s.fok && bs.isEmpty }
  | .mbox => s

/-- A Host read of buffer bytes (45_pipeline.md R242). -/
def readBuffer (s : State) (b : Buffer) (start n : Nat) : State :=
  let m := match b with | .raw => s.raw | .frame => s.frame | .mbox => s.mbox
  let r := drawBytes m s.draws start n
  { s with lastRead := .bytes b start r.1, draws := r.2 }

/-- The Host consumes the record at the head of EVLOG; nothing else of the block changes (10_state.md R46). From an
empty log nothing is consumed (log 10). -/
def consumeHead (s : State) : State :=
  match s.evlog with
  | [] => { s with lastRead := .nothing }
  | e :: rest => { s with evlog := rest, lastRead := .event e }

/-- The signal strength fits RSSI_W bits, two's complement (45_pipeline.md R230). -/
def rssiFits (c : Config) (r : Int) : Bool :=
  decide (-(2 ^ (c.rssiW - 1) : Int) ≤ r ∧ r < (2 ^ (c.rssiW - 1) : Int))

/-- The two's complement pattern of a signal strength (10_state.md R34). -/
def rssiPattern (c : Config) (r : Int) : Nat := (r % (2 ^ c.rssiW : Int)).toNat

/-- The mailbox after it accepts a packet (45_pipeline.md R230). -/
def acceptPacket (s : State) (bs : List Byte) (r : Int) : State :=
  { s with
    mbox := Memory.writeBytes s.mbox 0 bs
    mboxLen := some (BitVec.ofNat 16 bs.length)
    mboxRssi := some (rssiPattern s.build r)
    pend := true }

/-- Deliver (45_pipeline.md R230): into an empty mailbox, or under OVERWRITE; under DROP_NEW a full one loses the
packet. -/
def deliverPacket (s : State) (bs : List Byte) (r : Int) : State :=
  if s.pend then
    match s.build.mailboxPolicy with
    | .dropNew => s
    | .overwrite => acceptPacket s bs r
  else acceptPacket s bs r

/-- Reset (70_reset_and_hazards.md R280, R281): every cell at its reset value. The build, the actions still to come and
the Host's own records are not the block's cells (log 16). -/
def resetBlock (s : State) : State :=
  { State.resetWith s.build with schedule := s.schedule, lastRead := s.lastRead, draws := s.draws }

/-- One action, on the state from whose schedule it is already taken. -/
def perform (a : Action) (s : State) : Host.Outcome State Fault Refusal :=
  match a with
  | .writeReg num v =>
    match Reg.ofNumber num with
    | some r => writeRegister s a r v
    | none => .fault (.hostFault a)
  | .readReg num =>
    match Reg.ofNumber num with
    | some r => .next (readRegister s r)
    | none => .fault (.hostFault a)
  | .writeBuf b start bs =>
    if accessAllowed s.build b start bs.length then .next (writeBuffer s b start bs) else .fault (.hostFault a)
  | .readBuf b start n =>
    if accessAllowed s.build b start n then .next (readBuffer s b start n) else .fault (.hostFault a)
  | .consumeEvent => .next (consumeHead s)
  | .deliver bs r =>
    if bs.length ≤ s.build.rawMax && rssiFits s.build r then .next (deliverPacket s bs r)
    else .fault (.radioFault a)
  | .reset => .next (resetBlock s)

/-- The next action of the schedule is performed; with none left the block idles and keeps all its state
(60_exceptions.md R267). -/
def runNext (s : State) : Host.Outcome State Fault Refusal :=
  match s.schedule with
  | [] => .next s
  | a :: rest => perform a { s with schedule := rest }

/-- The register number of CMD (10_state.md R23). -/
def cmdNumber : BitVec 8 := 0x00

/-- `s` with a Host write of the command word `w` as its next action: how a command comes to run (log 3). -/
def placeCommand (s : State) (w : Byte) : State :=
  { s with schedule := .writeReg cmdNumber w.toNat :: s.schedule }

end Sys2Proof.Machine
end

