-- ==== Sys2Proof/Safety.lean ====
section
/-! DEFINITION. What counts as a sound state of the block, in the terms the claims use. -/

namespace Sys2Proof.Machine

/-- The bytes `bs` stand in the buffer from index `a` on. -/
abbrev Memory.holds (m : Memory) (a : Nat) (bs : List Byte) : Prop :=
  ∀ i, ∀ _ : i < bs.length, Memory.read m (a + i) = some (byteAt bs i)

/-- The first `n` bytes of the buffer hold values. -/
abbrev Memory.filled (m : Memory) (n : Nat) : Prop :=
  ∀ i, ∀ _ : i < n, (Memory.read m i).isSome = true

/-- Every cell of the buffer lies below its capacity (20_memory.md R61). -/
abbrev Memory.below (m : Memory) (capacity : Nat) : Prop := ∀ x ∈ m, x.1 < capacity

/-- A cell, where it holds a value, holds one of at most `bound`. -/
def cellAtMost {w : Nat} (c : Cell w) (bound : Nat) : Bool := c.all fun v => v.toNat ≤ bound

/-- The three buffers are in canonical form. -/
abbrev BuffersCanonical (s : State) : Prop :=
  Memory.wf s.raw ∧ Memory.wf s.frame ∧ Memory.wf s.mbox

/-- No cell and no valid length lies beyond a capacity (20_memory.md R61, 45_pipeline.md R240), in a block whose
parameters obey 00_scope.md R8. -/
abbrev WithinCapacity (s : State) : Prop :=
  s.build.wf = true ∧
  Memory.below s.raw s.build.rawMax ∧ Memory.below s.frame s.build.frameMax ∧ Memory.below s.mbox s.build.rawMax ∧
  s.rawLen.toNat ≤ s.build.rawMax ∧ cellAtMost s.dlen s.build.frameMax = true ∧
  cellAtMost s.mboxLen s.build.rawMax = true

/-- Every signal strength held is a pattern of RSSI_W bits (10_state.md R34, R42). -/
abbrev RssiInWidth (s : State) : Prop :=
  s.rssi.all (fun r => r < 2 ^ s.build.rssiW) = true ∧ s.mboxRssi.all (fun r => r < 2 ^ s.build.rssiW) = true ∧
  s.rd.rssi.all (fun r => r < 2 ^ s.build.rssiW) = true

/-- A full mailbox holds a whole packet: its length, that many bytes, its signal strength (20_memory.md R74). -/
abbrev MailboxComplete (s : State) : Prop :=
  s.pend = true → ∃ n r, s.mboxLen = some n ∧ s.mboxRssi = some r ∧ Memory.filled s.mbox n.toNat

/-- The bytes `f` are a frame PFRM accepts (45_pipeline.md R221): 14 bytes at least, L + 5 long, with both CRCs right
(20_memory.md R69). -/
def acceptedFrame (f : List Byte) : Bool :=
  14 ≤ f.length && f.length == (byteAt f 0).toNat + 5 &&
  crc16 (f.take 10) == be16 (byteAt f 10) (byteAt f 11) &&
  crc16 ((f.drop 12).take (f.length - 14)) == be16 (byteAt f (f.length - 2)) (byteAt f (f.length - 1))

/-- What FOK = 1 promises (10_state.md R25, 45_pipeline.md R224, R225): FRAME holds a frame PFRM accepts, DLEN is its
length, the header registers hold its header, TP_OFF and TP_LEN its payload slice, and RSSI holds a value. -/
abbrev FrameValidated (s : State) : Prop :=
  s.fok = true → ∃ f : List Byte,
    acceptedFrame f = true ∧ Memory.holds s.frame 0 f ∧ s.dlen = some (BitVec.ofNat 16 f.length) ∧
    s.hdr = headerRegsOf (headerOf s.build (f.take 10) (be16 (byteAt f 10) (byteAt f 11))) ∧
    s.tpOff = some 12 ∧ s.tpLen = some (BitVec.ofNat 16 (f.length - 14)) ∧ s.rssi.isSome = true

/-- The command an action issues, if it is a Host write of CMD with a legal word (30_encoding.md R81, R82). -/
def issuedCommand (a : Action) : Option Instr :=
  match a with
  | .writeReg num v => if num = cmdNumber then (decode (BitVec.ofNat 8 v)).toOption else none
  | _ => none

/-- A run is safe to observe when its step is neither a fault nor a refusal (60_exceptions.md R258,
70_reset_and_hazards.md R299). -/
def observable (o : Host.Outcome State Fault Refusal) : Bool :=
  match o with
  | .next _ => true
  | .fault _ => false
  | .refused _ => false

end Sys2Proof.Machine
end

