-- ==== Sys2Proof/Certificates/Slice0/Obligations.lean ====
section
/-! DEFINITION. The statements for the provers, and the spec-level terms they use: tables the spec prints, the raw bit
stream, the fixture encoder and the frame layout. -/

namespace Sys2Proof.Spec

open Sys2Proof.Machine

/-- Rows 0 to 7 of the table of 41_frame_crc.md R123. -/
def crcTable0 : List (BitVec 16) :=
  [0x0000, 0x3D65, 0x7ACA, 0x47AF, 0xF594, 0xC8F1, 0x8F5E, 0xB23B,
   0xD64D, 0xEB28, 0xAC87, 0x91E2, 0x23D9, 0x1EBC, 0x5913, 0x6476,
   0x91FF, 0xAC9A, 0xEB35, 0xD650, 0x646B, 0x590E, 0x1EA1, 0x23C4,
   0x47B2, 0x7AD7, 0x3D78, 0x001D, 0xB226, 0x8F43, 0xC8EC, 0xF589,
   0x1E9B, 0x23FE, 0x6451, 0x5934, 0xEB0F, 0xD66A, 0x91C5, 0xACA0,
   0xC8D6, 0xF5B3, 0xB21C, 0x8F79, 0x3D42, 0x0027, 0x4788, 0x7AED,
   0x8F64, 0xB201, 0xF5AE, 0xC8CB, 0x7AF0, 0x4795, 0x003A, 0x3D5F,
   0x5929, 0x644C, 0x23E3, 0x1E86, 0xACBD, 0x91D8, 0xD677, 0xEB12]

/-- Rows 8 to 15 of the table of 41_frame_crc.md R123. -/
def crcTable1 : List (BitVec 16) :=
  [0x3D36, 0x0053, 0x47FC, 0x7A99, 0xC8A2, 0xF5C7, 0xB268, 0x8F0D,
   0xEB7B, 0xD61E, 0x91B1, 0xACD4, 0x1EEF, 0x238A, 0x6425, 0x5940,
   0xACC9, 0x91AC, 0xD603, 0xEB66, 0x595D, 0x6438, 0x2397, 0x1EF2,
   0x7A84, 0x47E1, 0x004E, 0x3D2B, 0x8F10, 0xB275, 0xF5DA, 0xC8BF,
   0x23AD, 0x1EC8, 0x5967, 0x6402, 0xD639, 0xEB5C, 0xACF3, 0x9196,
   0xF5E0, 0xC885, 0x8F2A, 0xB24F, 0x0074, 0x3D11, 0x7ABE, 0x47DB,
   0xB252, 0x8F37, 0xC898, 0xF5FD, 0x47C6, 0x7AA3, 0x3D0C, 0x0069,
   0x641F, 0x597A, 0x1ED5, 0x23B0, 0x918B, 0xACEE, 0xEB41, 0xD624]

/-- Rows 16 to 23 of the table of 41_frame_crc.md R123. -/
def crcTable2 : List (BitVec 16) :=
  [0x7A6C, 0x4709, 0x00A6, 0x3DC3, 0x8FF8, 0xB29D, 0xF532, 0xC857,
   0xAC21, 0x9144, 0xD6EB, 0xEB8E, 0x59B5, 0x64D0, 0x237F, 0x1E1A,
   0xEB93, 0xD6F6, 0x9159, 0xAC3C, 0x1E07, 0x2362, 0x64CD, 0x59A8,
   0x3DDE, 0x00BB, 0x4714, 0x7A71, 0xC84A, 0xF52F, 0xB280, 0x8FE5,
   0x64F7, 0x5992, 0x1E3D, 0x2358, 0x9163, 0xAC06, 0xEBA9, 0xD6CC,
   0xB2BA, 0x8FDF, 0xC870, 0xF515, 0x472E, 0x7A4B, 0x3DE4, 0x0081,
   0xF508, 0xC86D, 0x8FC2, 0xB2A7, 0x009C, 0x3DF9, 0x7A56, 0x4733,
   0x2345, 0x1E20, 0x598F, 0x64EA, 0xD6D1, 0xEBB4, 0xAC1B, 0x917E]

/-- Rows 24 to 31 of the table of 41_frame_crc.md R123. -/
def crcTable3 : List (BitVec 16) :=
  [0x475A, 0x7A3F, 0x3D90, 0x00F5, 0xB2CE, 0x8FAB, 0xC804, 0xF561,
   0x9117, 0xAC72, 0xEBDD, 0xD6B8, 0x6483, 0x59E6, 0x1E49, 0x232C,
   0xD6A5, 0xEBC0, 0xAC6F, 0x910A, 0x2331, 0x1E54, 0x59FB, 0x649E,
   0x00E8, 0x3D8D, 0x7A22, 0x4747, 0xF57C, 0xC819, 0x8FB6, 0xB2D3,
   0x59C1, 0x64A4, 0x230B, 0x1E6E, 0xAC55, 0x9130, 0xD69F, 0xEBFA,
   0x8F8C, 0xB2E9, 0xF546, 0xC823, 0x7A18, 0x477D, 0x00D2, 0x3DB7,
   0xC83E, 0xF55B, 0xB2F4, 0x8F91, 0x3DAA, 0x00CF, 0x4760, 0x7A05,
   0x1E73, 0x2316, 0x64B9, 0x59DC, 0xEBE7, 0xD682, 0x912D, 0xAC48]

/-- The table T of 41_frame_crc.md R123. -/
def crcTable : List (BitVec 16) := crcTable0 ++ crcTable1 ++ crcTable2 ++ crcTable3

/-- The inverse map of 40_line_codec.md R108, symbols 0x00 to 0x1F. -/
def inverseLow : List (Option (BitVec 4)) :=
  [none, none, none, none, none, none, none, none, none, none, none, some 0x3, none, some 0x1, some 0x2, none,
   none, none, none, some 0x7, none, none, some 0x0, none, none, some 0x5, some 0x6, none, some 0x4, none, none, none]

/-- The inverse map of 40_line_codec.md R108, symbols 0x20 to 0x3F. -/
def inverseHigh : List (Option (BitVec 4)) :=
  [none, none, none, some 0xB, none, some 0x9, some 0xA, none, none, some 0xF, none, none, some 0x8, none, none, none,
   none, some 0xD, some 0xE, none, some 0xC, none, none, none, none, none, none, none, none, none, none, none]

/-- Stream bit p of raw bytes: bit 7 - (p mod 8) of byte p div 8 (40_line_codec.md R103). -/
def streamBit (bs : List Byte) (p : Nat) : Bool := (byteAt bs (p / 8)).getLsbD (7 - p % 8)

/-- The codeword of a nibble (40_line_codec.md R101). -/
def codeword (c : Config) (nb : BitVec 4) : BitVec 6 := c.sixbitTable.get ⟨nb.toNat, nb.isLt⟩

/-- Symbol k of the stream spells the codeword `w`, first stream bit as bit 5 (40_line_codec.md R103). -/
abbrev spells (bs : List Byte) (k : Nat) (w : BitVec 6) : Prop :=
  ∀ j, ∀ _ : j < 6, streamBit bs (6 * k + j) = w.getLsbD (5 - j)

/-- Symbol k of the stream is no codeword. -/
abbrev badSymbol (c : Config) (bs : List Byte) (k : Nat) : Prop :=
  ∀ w ∈ c.sixbitTable.toList, ¬ spells bs k w

/-- Nibble k of decoded bytes: high nibble first (20_memory.md R63). -/
def nibbleAt (f : List Byte) (k : Nat) : BitVec 4 :=
  if k % 2 = 0 then (byteAt f (k / 2)).extractLsb' 4 4 else (byteAt f (k / 2)).extractLsb' 0 4

/-- The raw bytes `bs` are the line code of the decoded bytes `f`: need(E) of them, every symbol the codeword of its
nibble (40_line_codec.md R104, R106). -/
abbrev rawEncodes (c : Config) (bs f : List Byte) : Prop :=
  bs.length = (3 * f.length + 1) / 2 ∧
    ∀ k, ∀ _ : k < 2 * f.length, spells bs k (codeword c (nibbleAt f k))

/-- The stream bits of a nibble sequence under the table, each codeword most significant bit first. -/
def streamOf (c : Config) (nibs : List (BitVec 4)) : List Bool :=
  nibs.flatMap fun nb => (List.range 6).map fun j => (codeword c nb).getLsbD (5 - j)

/-- Byte i of a bit list packed most significant bit first, zero-padded. -/
def packedByte (bits : List Bool) (i : Nat) : Byte :=
  BitVec.ofNat 8 ((List.range 8).foldl (fun acc j => 2 * acc + (bits.getD (8 * i + j) false).toNat) 0)

/-- The test-fixture encoder of 40_line_codec.md R109: codewords packed MSB-first, zero-padded to a whole byte. -/
def encodeNibbles (c : Config) (nibs : List (BitVec 4)) : List Byte :=
  (List.range ((6 * nibs.length + 7) / 8)).map (packedByte (streamOf c nibs))

/-- ch(v) of 42_frame_parser.md R144. -/
def letter (c : Config) (v : BitVec 5) : Byte :=
  if v.toNat = 0 then c.letterZero else BitVec.ofNat 8 (0x40 + v.toNat)

/-- The ASCII digit of `n` mod 10. -/
def digit (n : Nat) : Byte := BitVec.ofNat 8 (0x30 + n % 10)

/-- ID_STR of 42_frame_parser.md R147 from ID26 and ID_LET = {S, T, D}. -/
def identString (c : Config) (id26 : BitVec 26) (idLet : BitVec 15) : BitVec 88 :=
  let yy := id26.toNat / 1000000
  let serial := id26.toNat % 1000000
  letter c (idLet.extractLsb' 10 5) ++ digit (yy / 10) ++ digit yy ++
    letter c (idLet.extractLsb' 5 5) ++ letter c (idLet.extractLsb' 0 5) ++
    digit (serial / 100000) ++ digit (serial / 10000) ++ digit (serial / 1000) ++
    digit (serial / 100) ++ digit (serial / 10) ++ digit serial

/-- BE32(f, a) (00_scope.md R12). -/
def be32At (f : List Byte) (a : Nat) : BitVec 32 :=
  byteAt f a ++ byteAt f (a + 1) ++ byteAt f (a + 2) ++ byteAt f (a + 3)

/-- The seed of 43_cipher.md R171 for a frame. -/
def seedOf (key : BitVec 64) (f : List Byte) : BitVec 32 :=
  key.extractLsb' 32 32 ^^^ key.extractLsb' 0 32 ^^^ be32At f 2 ^^^ be32At f 6 ^^^ be32At f 12

/-- ks_i of 43_cipher.md R177 for a seed. -/
def ks (seed : BitVec 32) (i : Nat) : Byte := (lfsrStep^[8 * (i + 1)] seed).extractLsb' 0 8

/-- The plaintext of the ciphertext `cts` under a seed (43_cipher.md R175). -/
def plain (seed : BitVec 32) (cts : List Byte) : List Byte :=
  (List.range cts.length).map fun i => byteAt cts i ^^^ ks seed i

/-- Every byte of one buffer reads as in the other. -/
abbrev sameBytes (m n : Memory) : Prop := ∀ a, Memory.read m a = Memory.read n a

/-- Every byte outside lo <= a < hi reads as in the other buffer. -/
abbrev sameOutside (m n : Memory) (lo hi : Nat) : Prop :=
  ∀ a, (a < lo ∨ hi ≤ a) → Memory.read m a = Memory.read n a

/-- Every byte with lo <= a < hi is UNDEF. -/
abbrev undefWithin (m : Memory) (lo hi : Nat) : Prop := ∀ a, lo ≤ a → a < hi → Memory.read m a = none

/-- The bytes `vs` are the values of the cells from index `start` on, wherever a cell holds one. -/
abbrev returns (m : Memory) (start : Nat) (vs : List Byte) : Prop :=
  ∀ i v, i < vs.length → Memory.read m (start + i) = some v → byteAt vs i = v

/-- A reserved command word (30_encoding.md R81, R86). -/
abbrev reservedWord (w : Byte) : Prop :=
  w.extractLsb' 4 4 ≠ 0#4 ∨ w.extractLsb' 0 4 = 0x0#4 ∨ w.extractLsb' 0 4 = 0xE#4 ∨ w.extractLsb' 0 4 = 0xF#4

/-- The registers a Host write ignores (45_pipeline.md R241, R243). -/
def readOnly : Reg → Bool
  | .cmd | .opa | .opb | .opc | .rawLen | .dlen | .key | .seed | .rssi => false
  | _ => true

/-- What the block holds, the model's own fields apart. -/
def blockPart (s : State) : State := { s with schedule := [], lastRead := .nothing, draws := 0 }

end Sys2Proof.Spec

open Sys2Proof Sys2Proof.Machine

/-! ## Command words -/

/-- 30_encoding.md R80, R83: the decoder reads back the word of every command, whatever follows it. -/
def Obligations.DecodeInvertsEncode : Prop :=
  ∀ i : Instr, i.wf = true → ∀ rest, decodeBytes (encode i :: rest) = .ok (i, rest)

/-- 30_encoding.md R83, R81: the 13 words of the map, written out, and two words outside it. -/
def Obligations.CommandWordsDecode : Prop :=
  decode 0x01#8 = .ok .dnib ∧ decode 0x02#8 = .ok .dbuf ∧ decode 0x03#8 = .ok .crc ∧ decode 0x04#8 = .ok .crcv ∧
    decode 0x05#8 = .ok .phdr ∧ decode 0x06#8 = .ok .stpl ∧ decode 0x07#8 = .ok .dkey ∧ decode 0x08#8 = .ok .dcry ∧
    decode 0x09#8 = .ok .prdg ∧ decode 0x0A#8 = .ok .take ∧ decode 0x0B#8 = .ok .pfrm ∧ decode 0x0C#8 = .ok .ppay ∧
    decode 0x0D#8 = .ok .ppkt ∧
    (decode 0x00#8).toOption = none ∧ (decode 0x1B#8).toOption = none

/-- 30_encoding.md R81: every 8-bit word is the word of exactly the command it decodes to, or reserved and rejected. -/
def Obligations.EveryWordIsACommandOrReserved : Prop :=
  ∀ w : Byte,
    (Spec.reservedWord w → ∃ e, decode w = .error e) ∧
    (¬ Spec.reservedWord w → ∃ i, decode w = .ok i ∧ encode i = w)

/-- 10_state.md R23, 30_encoding.md R82: a step whose next action is a Host write of a legal command word to CMD is
exactly that command's execution, with the word in CMD. That CMD is stored first is the model's choice (log 4); that
the action comes from a schedule is the model's form of the agents' interleaving (log 3). -/
def Obligations.StepRunsTheDecodedCommand : Prop :=
  ∀ (s : State) (v : Nat) (rest : List Action) (i : Instr),
    s.schedule = .writeReg 0x00#8 v :: rest → decode (BitVec.ofNat 8 v) = .ok i →
      step s = exec i { s with schedule := rest, cmd := BitVec.ofNat 8 v }

/-- 30_encoding.md R81: an illegal word changes ERR alone, CMD apart, which holds the word the Host wrote
(10_state.md R23; log 4). -/
def Obligations.IllegalWordChangesErrAlone : Prop :=
  ∀ (s : State) (v : Nat) (rest : List Action),
    s.schedule = .writeReg 0x00#8 v :: rest → Spec.reservedWord (BitVec.ofNat 8 v) →
      step s = .next { s with schedule := rest, cmd := BitVec.ofNat 8 v, err := .illegal }

/-- 10_state.md R24, 60_exceptions.md R250: the STATUS byte, and the number of every status. -/
def Obligations.StatusByteLayout : Prop :=
  (∀ s : State,
    (statusByte s).extractLsb' 0 5 = s.err.code ∧ (statusByte s).getLsbD 5 = s.fok ∧
      (statusByte s).getLsbD 6 = s.pend ∧ (statusByte s).getLsbD 7 = false ∧ s.err.code.toNat ≤ 0x0D) ∧
  Err.code .ok = 0x00#5 ∧ Err.code .illegal = 0x01#5 ∧ Err.code .codeword = 0x02#5 ∧ Err.code .bounds = 0x03#5 ∧
  Err.code .short = 0x04#5 ∧ Err.code .length = 0x05#5 ∧ Err.code .crc = 0x06#5 ∧ Err.code .hdrCrc = 0x07#5 ∧
  Err.code .tplShort = 0x08#5 ∧ Err.code .tplCrc = 0x09#5 ∧ Err.code .magic = 0x0A#5 ∧ Err.code .rdgShort = 0x0B#5 ∧
  Err.code .noPkt = 0x0C#5 ∧ Err.code .seq = 0x0D#5

/-- 10_state.md R21, 30_encoding.md R84, 60_exceptions.md R258: an explicit operand register (OPA, OPB, OPC) that holds
UNDEF makes the command that reads it the model fault ReadUndef. That the fault names OPA before OPB, and OPC after the
region, is the model's choice (log 19). CRCV reads OPC only in bounds (41_frame_crc.md R124). -/
def Obligations.UndefinedOperandFaults : Prop :=
  ∀ s : State,
    (s.opa = none → exec .dnib s = .fault (.readUndef (.reg .opa)) ∧ exec .crc s = .fault (.readUndef (.reg .opa)) ∧
      exec .crcv s = .fault (.readUndef (.reg .opa)) ∧ exec .dcry s = .fault (.readUndef (.reg .opa)) ∧
      exec .prdg s = .fault (.readUndef (.reg .opa))) ∧
    (s.opb = none → exec .dbuf s = .fault (.readUndef (.reg .opb))) ∧
    (∀ a, s.opa = some a → s.opb = none →
      exec .crc s = .fault (.readUndef (.reg .opb)) ∧ exec .crcv s = .fault (.readUndef (.reg .opb)) ∧
      exec .dcry s = .fault (.readUndef (.reg .opb)) ∧ exec .prdg s = .fault (.readUndef (.reg .opb))) ∧
    (∀ (off len d : BitVec 16) (bs : List Byte), s.opa = some off → s.opb = some len → s.opc = none →
      s.dlen = some d → off.toNat + len.toNat ≤ d.toNat → bs.length = len.toNat → Memory.holds s.frame off.toNat bs →
        exec .crcv s = .fault (.readUndef (.reg .opc)))

/-! ## LineCodec -/

/-- 40_line_codec.md R102: DNIB decodes OPA[5:0], or raises E_CODEWORD with NIB poisoned. -/
def Obligations.DnibDecodesOneSymbol : Prop :=
  decode 0x01#8 = .ok .dnib ∧ ∀ (s : State) (a : BitVec 16), s.build.sixbitWf = true → s.opa = some a →
    (∀ nb : BitVec 4, Spec.codeword s.build nb = a.extractLsb' 0 6 →
      exec .dnib s = .next { s with nib := some nb, err := .ok }) ∧
    ((∀ nb : BitVec 4, Spec.codeword s.build nb ≠ a.extractLsb' 0 6) →
      exec .dnib s = .next { s with nib := none, err := .codeword })

/-- 40_line_codec.md R108: the inverse map under the default table, all 64 symbols. -/
def Obligations.InverseMapOfTheDefaultTable : Prop :=
  ∀ (c : Config) (sym : BitVec 6),
    c.sixbitTable = #v[0x16, 0x0D, 0x0E, 0x0B, 0x1C, 0x19, 0x1A, 0x13, 0x2C, 0x25, 0x26, 0x23, 0x34, 0x31, 0x32, 0x29] →
      nibbleOf c sym = (Spec.inverseLow ++ Spec.inverseHigh).getD sym.toNat none

/-- 40_line_codec.md R104, 20_memory.md R63: DBUF on a buffer whose complete symbols are all codewords writes the
nibbles high then low, the last odd low nibble 0, and nothing at m or above. -/
def Obligations.DbufWritesThePackedNibbles : Prop :=
  ∀ (s : State) (n : BitVec 16) (bs : List Byte) (nibs : List (BitVec 4)),
    s.build.sixbitWf = true → s.opb = some n → n.toNat ≤ s.rawLen.toNat →
    bs.length = n.toNat → Memory.holds s.raw 0 bs →
    nibs.length = 8 * n.toNat / 6 →
    (∀ k, k < nibs.length → Spec.spells bs k (Spec.codeword s.build (nibs.getD k 0))) →
      ∃ t, exec .dbuf s = .next t ∧
        t = { s with frame := t.frame, dlen := some (BitVec.ofNat 16 ((8 * n.toNat / 6 + 1) / 2)), fok := false,
                     err := .ok } ∧
        (∀ j, j < (8 * n.toNat / 6 + 1) / 2 →
          Memory.read t.frame j = some (nibs.getD (2 * j) 0 ++ nibs.getD (2 * j + 1) 0)) ∧
        Spec.sameOutside t.frame s.frame 0 ((8 * n.toNat / 6 + 1) / 2)

/-- 40_line_codec.md R104, 60_exceptions.md R252, R256: DBUF's failures. Past RAW_LEN it raises E_BOUNDS before any
symbol is read; else the first symbol in stream order that is no codeword raises E_CODEWORD, and the raw bytes after it
need hold no value. Each poisons FRAME[0..m) and DLEN. -/
def Obligations.DbufFailuresPoison : Prop :=
  ∀ (s : State) (n : BitVec 16) (e : Err), s.opb = some n →
    ((s.rawLen.toNat < n.toNat ∧ e = .bounds) ∨
     (n.toNat ≤ s.rawLen.toNat ∧ e = .codeword ∧ ∃ (bs : List Byte) (k : Nat), Memory.holds s.raw 0 bs ∧
        k < 8 * n.toNat / 6 ∧ 6 * k + 5 < 8 * bs.length ∧ Spec.badSymbol s.build bs k)) →
      ∃ t, exec .dbuf s = .next t ∧
        t = { s with frame := t.frame, dlen := none, fok := false, err := e } ∧
        Spec.undefWithin t.frame 0 ((8 * n.toNat / 6 + 1) / 2) ∧
        Spec.sameOutside t.frame s.frame 0 ((8 * n.toNat / 6 + 1) / 2)

/-- 40_line_codec.md R109: the encoded form of a nibble sequence, decoded by DBUF, gives the nibbles back. The premise
`nibs.length % 4 ≠ 3` is where R109's "fewer than 6 bits" of padding is true (log 20). -/
def Obligations.DbufRoundTrip : Prop :=
  ∀ (s : State) (n : BitVec 16) (nibs : List (BitVec 4)),
    s.build.sixbitWf = true → nibs.length % 4 ≠ 3 →
    s.opb = some n → n.toNat = (Spec.encodeNibbles s.build nibs).length → n.toNat ≤ s.rawLen.toNat →
    Memory.holds s.raw 0 (Spec.encodeNibbles s.build nibs) →
      ∃ t, exec .dbuf s = .next t ∧ t.err = .ok ∧ t.dlen = some (BitVec.ofNat 16 ((nibs.length + 1) / 2)) ∧
        ∀ j, j < (nibs.length + 1) / 2 →
          Memory.read t.frame j = some (nibs.getD (2 * j) 0 ++ nibs.getD (2 * j + 1) 0)

/-- The rest of 40_line_codec.md R109: a nibble count of 3 modulo 4 leaves exactly 6 bits of zero padding, which R104
reads as one more symbol, so DBUF of the whole encoded buffer raises E_CODEWORD (log 20). -/
def Obligations.SixPaddingBitsFailTheRoundTrip : Prop :=
  ∀ (s : State) (n : BitVec 16) (nibs : List (BitVec 4)),
    s.build.sixbitWf = true → nibs.length % 4 = 3 →
    s.opb = some n → n.toNat = (Spec.encodeNibbles s.build nibs).length → n.toNat ≤ s.rawLen.toNat →
    Memory.holds s.raw 0 (Spec.encodeNibbles s.build nibs) →
      ∃ t, exec .dbuf s = .next t ∧ t.err = .codeword

/-- 40_line_codec.md R110: after a DBUF that succeeded, one flipped bit inside its symbols makes it raise E_CODEWORD,
and one flipped bit in the dropped trailing bits changes nothing but RAW. -/
def Obligations.SingleFlippedBitFailsDbuf : Prop :=
  ∀ (s t : State) (n : BitVec 16) (p : Nat) (b : Byte),
    s.build.sixbitWf = true → s.opb = some n → exec .dbuf s = .next t → t.err = .ok →
    p < 8 * n.toNat → Memory.read s.raw (p / 8) = some b →
      (p < 6 * (8 * n.toNat / 6) →
        ∃ u, exec .dbuf { s with raw := Memory.write s.raw (p / 8) (b ^^^ (0x80#8 >>> (p % 8))) } = .next u ∧
          u.err = .codeword ∧ u.dlen = none) ∧
      (6 * (8 * n.toNat / 6) ≤ p →
        exec .dbuf { s with raw := Memory.write s.raw (p / 8) (b ^^^ (0x80#8 >>> (p % 8))) } =
          .next { t with raw := Memory.write s.raw (p / 8) (b ^^^ (0x80#8 >>> (p % 8))) })

/-! ## FrameCRC -/

/-- 41_frame_crc.md R122: CRC writes crc16 of its region, or raises E_BOUNDS with CRC_OUT poisoned. -/
def Obligations.CrcComputesTheRegion : Prop :=
  decode 0x03#8 = .ok .crc ∧ ∀ (s : State) (off len d : BitVec 16), s.opa = some off → s.opb = some len → s.dlen = some d →
    (∀ bs : List Byte, off.toNat + len.toNat ≤ d.toNat → bs.length = len.toNat →
      Memory.holds s.frame off.toNat bs →
        exec .crc s = .next { s with crcOut := some (crc16 bs), err := .ok }) ∧
    (d.toNat < off.toNat + len.toNat → exec .crc s = .next { s with crcOut := none, err := .bounds })

/-- 41_frame_crc.md R124: CRCV writes the recomputed checksum, kept on E_CRC, and poisons it on E_BOUNDS. -/
def Obligations.CrcvVerifiesTheRegion : Prop :=
  decode 0x04#8 = .ok .crcv ∧ ∀ (s : State) (off len d expected : BitVec 16),
    s.opa = some off → s.opb = some len → s.opc = some expected → s.dlen = some d →
    (∀ bs : List Byte, off.toNat + len.toNat ≤ d.toNat → bs.length = len.toNat →
      Memory.holds s.frame off.toNat bs →
        exec .crcv s =
          .next { s with crcOut := some (crc16 bs), err := if crc16 bs = expected then .ok else .crc }) ∧
    (d.toNat < off.toNat + len.toNat → exec .crcv s = .next { s with crcOut := none, err := .bounds })

/-- 41_frame_crc.md R121, R123: the table-driven form computes the same function, with the table the spec prints. -/
def Obligations.CrcTableDrivenForm : Prop :=
  Spec.crcTable.length = 256 ∧
  (∀ i : Byte, Spec.crcTable.getD i.toNat 0 = crcByte 0#16 i) ∧
  (∀ (c : BitVec 16) (b : Byte),
    crcByte c b = (c <<< 8) ^^^ Spec.crcTable.getD ((c >>> 8).setWidth 8 ^^^ b).toNat 0) ∧
  (∀ d : List Byte,
    crc16 d =
      d.foldl (fun (c : BitVec 16) (b : Byte) => (c <<< 8) ^^^ Spec.crcTable.getD ((c >>> 8).setWidth 8 ^^^ b).toNat 0) 0#16 ^^^ 0xFFFF#16)

/-- 41_frame_crc.md R125: flipping one bit of a buffer changes crc16, so a CRCV that passed reports E_CRC after one
flipped bit of its region. -/
def Obligations.CrcDetectsEverySingleBitFlip : Prop :=
  (∀ (bs : List Byte) (i j : Nat), i < bs.length → j < 8 →
    crc16 (bs.set i (byteAt bs i ^^^ (1#8 <<< j))) ≠ crc16 bs) ∧
  (∀ (s t : State) (off len : BitVec 16) (i j : Nat) (b : Byte),
    s.opa = some off → s.opb = some len → exec .crcv s = .next t → t.err = .ok →
    i < len.toNat → j < 8 → Memory.read s.frame (off.toNat + i) = some b →
      ∃ u, exec .crcv { s with frame := Memory.write s.frame (off.toNat + i) (b ^^^ (1#8 <<< j)) } = .next u ∧
        u.err = .crc)

/-! ## FrameParser -/

/-- 42_frame_parser.md R141 to R147: PHDR on 12 bytes whose CRC is right writes the 13 header registers and nothing
else. ID26 and ID_LET are stated for the default IDENT_MAP; the rest for every build. -/
def Obligations.PhdrWritesTheHeader : Prop :=
  ∀ (s : State) (d : BitVec 16) (f : List Byte),
    s.dlen = some d → 12 ≤ d.toNat → f.length = 12 → Memory.holds s.frame 0 f →
    crc16 (f.take 10) = byteAt f 10 ++ byteAt f 11 →
      ∃ (h : HeaderRegs) (m : BitVec 16) (x : BitVec 26) (lt : BitVec 15),
        exec .phdr s = .next { s with hdr := h, err := .ok } ∧
        m = (match s.build.mfrOrder with
          | .be => byteAt f 2 ++ byteAt f 3
          | .le => byteAt f 3 ++ byteAt f 2) ∧
        h = { l := some (byteAt f 0)
              c := some (byteAt f 1)
              m := some m
              mfr := some (Spec.letter s.build (m.extractLsb' 10 5) ++ Spec.letter s.build (m.extractLsb' 5 5) ++
                Spec.letter s.build (m.extractLsb' 0 5))
              addr := some (byteAt f 4 ++ byteAt f 5 ++ byteAt f 6 ++ byteAt f 7 ++ byteAt f 8 ++ byteAt f 9)
              ver := some (byteAt f 8)
              devType := some (byteAt f 9)
              crc := some (byteAt f 10 ++ byteAt f 11)
              id26 := some x
              idYy := some (BitVec.ofNat 7 (x.toNat / 1000000))
              idSerial := some (BitVec.ofNat 20 (x.toNat % 1000000))
              idLet := some lt
              idStr := some (Spec.identString s.build x lt) } ∧
        (s.build.identMap = defaultIdentMap →
          x = (byteAt f 7).extractLsb' 0 2 ++ byteAt f 6 ++ byteAt f 5 ++ byteAt f 4 ∧
          lt = (byteAt f 9).extractLsb' 0 4 ++ (byteAt f 8).extractLsb' 7 1 ++ (byteAt f 8).extractLsb' 2 5 ++
            (byteAt f 8).extractLsb' 0 2 ++ (byteAt f 7).extractLsb' 5 3)

/-- 42_frame_parser.md R141, R142, 60_exceptions.md R252: PHDR's two failures poison the 13 header registers and clear
FOK. -/
def Obligations.PhdrFailuresPoisonTheHeader : Prop :=
  ∀ (s : State) (d : BitVec 16), s.dlen = some d →
    (d.toNat < 12 → exec .phdr s = .next { s with hdr := HeaderRegs.undef, fok := false, err := .short }) ∧
    (∀ f : List Byte, 12 ≤ d.toNat → f.length = 12 → Memory.holds s.frame 0 f →
      crc16 (f.take 10) ≠ byteAt f 10 ++ byteAt f 11 →
        exec .phdr s = .next { s with hdr := HeaderRegs.undef, fok := false, err := .hdrCrc })

/-- 42_frame_parser.md R145, R147, R148: after a successful PHDR, ID_YY is at most 67, ID_SERIAL at most 999999, and
characters 1, 2 and 5 to 10 of ID_STR are the decimal digits that spell them. -/
def Obligations.IdentityDigits : Prop :=
  ∀ s t : State, exec .phdr s = .next t → t.err = .ok →
    ∃ (yy : BitVec 7) (serial : BitVec 20) (str : BitVec 88),
      t.hdr.idYy = some yy ∧ t.hdr.idSerial = some serial ∧ t.hdr.idStr = some str ∧
      yy.toNat ≤ 67 ∧ serial.toNat ≤ 999999 ∧
      (∀ k, k ∈ [1, 2, 5, 6, 7, 8, 9, 10] →
        0x30 ≤ (str.extractLsb' (8 * (10 - k)) 8).toNat ∧ (str.extractLsb' (8 * (10 - k)) 8).toNat ≤ 0x39) ∧
      [1, 2].foldl (fun acc k => 10 * acc + ((str.extractLsb' (8 * (10 - k)) 8).toNat - 0x30)) 0 = yy.toNat ∧
      [5, 6, 7, 8, 9, 10].foldl (fun acc k => 10 * acc + ((str.extractLsb' (8 * (10 - k)) 8).toNat - 0x30)) 0 =
        serial.toNat

/-- 42_frame_parser.md R150: STPL splits the transport payload when its CRC is right, and its two failures poison
TP_OFF and TP_LEN and clear FOK. -/
def Obligations.StplSplitsTheTransport : Prop :=
  decode 0x06#8 = .ok .stpl ∧ ∀ (s : State) (d : BitVec 16), s.dlen = some d →
    (d.toNat < 14 →
      exec .stpl s = .next { s with tpOff := none, tpLen := none, fok := false, err := .tplShort }) ∧
    (∀ (p : List Byte) (c0 c1 : Byte), 14 ≤ d.toNat → p.length = d.toNat - 14 → Memory.holds s.frame 12 p →
      Memory.read s.frame (d.toNat - 2) = some c0 → Memory.read s.frame (d.toNat - 1) = some c1 →
        exec .stpl s = .next
          (if crc16 p = c0 ++ c1 then
            { s with tpOff := some 12#16, tpLen := some (d - 14#16), err := .ok }
          else { s with tpOff := none, tpLen := none, fok := false, err := .tplCrc }))

/-! ## CipherLayer -/

/-- 43_cipher.md R174: one LFSR step shifts left and inserts the XOR of bits 1, 2, 11 and 31 at bit 0. -/
def Obligations.LfsrStepFeedback : Prop :=
  ∀ s : BitVec 32,
    (lfsrStep s).getLsbD 0 = (((s.getLsbD 1 ^^ s.getLsbD 2) ^^ s.getLsbD 11) ^^ s.getLsbD 31) ∧
      ∀ i, i < 31 → (lfsrStep s).getLsbD (i + 1) = s.getLsbD i

/-- 43_cipher.md R171: DKEY derives the seed from KEY and the frame words at 2, 6 and 12, or raises E_SHORT with SEED
poisoned, without reading KEY. -/
def Obligations.DkeyDerivesTheSeed : Prop :=
  ∀ (s : State) (d : BitVec 16), s.dlen = some d →
    (d.toNat < 16 → exec .dkey s = .next { s with seed := none, err := .short }) ∧
    (∀ (k : BitVec 64) (f : List Byte), 16 ≤ d.toNat → s.key = some k → f.length = 16 → Memory.holds s.frame 0 f →
      exec .dkey s = .next { s with seed := some (Spec.seedOf k f), err := .ok })

/-- 43_cipher.md R175, R177, R178: DCRY on a region whose first plaintext byte is 0x4B writes the plaintext in place
and leaves the last LFSR state. -/
def Obligations.DcryDecryptsTheRegion : Prop :=
  ∀ (s : State) (off len d : BitVec 16) (seed : BitVec 32) (cts : List Byte),
    s.opa = some off → s.opb = some len → s.dlen = some d → s.seed = some seed →
    off.toNat + len.toNat ≤ d.toNat → cts.length = len.toNat → Memory.holds s.frame off.toNat cts →
    0 < len.toNat → byteAt cts 0 ^^^ Spec.ks seed 0 = 0x4B#8 →
      ∃ t, exec .dcry s = .next t ∧
        t = { s with frame := t.frame, lfsr := some (lfsrStep^[8 * len.toNat] seed), fok := false, err := .ok } ∧
        (∀ i, i < len.toNat → Memory.read t.frame (off.toNat + i) = some (byteAt cts i ^^^ Spec.ks seed i)) ∧
        Spec.sameOutside t.frame s.frame off.toNat (off.toNat + len.toNat)

/-- 43_cipher.md R175, R178, R181, 60_exceptions.md R252: DCRY's failures, each with the region and LFSR poisoned; only
the first ciphertext byte need hold a value for the magic check. -/
def Obligations.DcryFailuresPoisonTheRegion : Prop :=
  ∀ (s : State) (off len d : BitVec 16), s.opa = some off → s.opb = some len → s.dlen = some d →
    ∀ e : Err,
      ((d.toNat < off.toNat + len.toNat ∧ e = .bounds) ∨
       (off.toNat + len.toNat ≤ d.toNat ∧ len.toNat = 0 ∧ e = .magic) ∨
       (off.toNat + len.toNat ≤ d.toNat ∧ 0 < len.toNat ∧ e = .magic ∧
          ∃ seed ct, s.seed = some seed ∧ Memory.read s.frame off.toNat = some ct ∧
            ct ^^^ Spec.ks seed 0 ≠ 0x4B#8)) →
        ∃ t, exec .dcry s = .next t ∧
          t = { s with frame := t.frame, lfsr := none, fok := false, err := e } ∧
          Spec.undefWithin t.frame off.toNat (off.toNat + len.toNat) ∧
          Spec.sameOutside t.frame s.frame off.toNat (off.toNat + len.toNat)

/-- 70_reset_and_hazards.md R295, 43_cipher.md R175: a second DCRY with the same seed passes its magic check exactly
when ks_0 = 0, and then every byte of FRAME is as before the first. -/
def Obligations.SecondDecryptionRestoresOrFails : Prop :=
  ∀ s t : State, exec .dcry s = .next t → t.err = .ok →
    ∃ (seed : BitVec 32) (u : State), s.seed = some seed ∧ exec .dcry t = .next u ∧
      (Spec.ks seed 0 = 0#8 → u.err = .ok ∧ Spec.sameBytes u.frame s.frame) ∧
      (Spec.ks seed 0 ≠ 0#8 → u.err = .magic)

/-- 43_cipher.md R179: DCRY of a region, then DCRY of the next region with SEED <- LFSR, gives the same bytes and the
same LFSR as one DCRY over both. -/
def Obligations.DecryptionIsSequential : Prop :=
  ∀ (s a b : State) (off n1 n2 : BitVec 16),
    s.opa = some off → off.toNat + n1.toNat + n2.toNat < 65536 →
    exec .dcry { s with opb := some n1 } = .next a → a.err = .ok →
    exec .dcry { a with seed := a.lfsr, opa := some (off + n1), opb := some n2 } = .next b → b.err = .ok →
      ∃ t, exec .dcry { s with opb := some (n1 + n2) } = .next t ∧ t.err = .ok ∧ t.lfsr = b.lfsr ∧
        Spec.sameBytes t.frame b.frame

/-- 43_cipher.md R184: ks_0 is linear in the seed, takes every value, ignores seed bits 3 and 12 to 23, and after a
DCRY that passed, a seed wrong by d passes exactly when ks_0(d) = 0. -/
def Obligations.MagicCheckOfAWrongSeed : Prop :=
  (∀ a b : BitVec 32, Spec.ks (a ^^^ b) 0 = Spec.ks a 0 ^^^ Spec.ks b 0) ∧
  (∀ v : Byte, ∃ d : BitVec 32, Spec.ks d 0 = v) ∧
  (∀ d : BitVec 32, d &&& 0x00FFF008#32 = d → Spec.ks d 0 = 0#8) ∧
  Spec.ks 0x88888888#32 0 = 0#8 ∧
  (∀ (s t : State) (x d : BitVec 32), s.seed = some x → exec .dcry s = .next t → t.err = .ok →
    (Spec.ks d 0 = 0#8 → ∃ u, exec .dcry { s with seed := some (x ^^^ d) } = .next u ∧ u.err = .ok) ∧
    (Spec.ks d 0 ≠ 0#8 → ∃ u, exec .dcry { s with seed := some (x ^^^ d) } = .next u ∧ u.err = .magic))

/-! ## ReadingParser -/

/-- 44_reading_parser.md R190 to R205: PRDG on a region of at least 16 bytes that begins with 0x4B writes the 14
reading registers and nothing else; byte 5 need hold no value (R207; log 9). The unit, random-generator and alarm
fields are stated for the default UNIT_FIELD and ALARM_MAP, the rest for every build. -/
def Obligations.PrdgExtractsTheReading : Prop :=
  ∀ (s : State) (off len d : BitVec 16) (p : List Byte) (id : BitVec 88) (q : Nat),
    s.opa = some off → s.opb = some len → s.dlen = some d → off.toNat + len.toNat ≤ d.toNat → 16 ≤ len.toNat →
    p.length = 16 → (∀ i, i < 16 → i ≠ 5 → Memory.read s.frame (off.toNat + i) = some (byteAt p i)) →
    byteAt p 0 = 0x4B#8 → s.hdr.idStr = some id → s.rssi = some q →
      ∃ (unit : BitVec 1) (randGen : BitVec 2) (alarms : BitVec 12) (y7 : Nat),
        exec .prdg s = .next { s with
          rd := { cur := some (byteAt p 9 ++ byteAt p 8 ++ byteAt p 7 ++ byteAt p 6)
                  chk := some (byteAt p 13 ++ byteAt p 12 ++ byteAt p 11 ++ byteAt p 10)
                  exp := some (BitVec.ofInt 4 (((byteAt p 4).extractLsb' 0 3).toNat - 6))
                  unit := some unit
                  unitsRaw := some (byteAt p 4)
                  day := some ((byteAt p 14).extractLsb' 0 5)
                  month := some ((byteAt p 15).extractLsb' 0 4)
                  year := some (BitVec.ofNat 16 (if y7 > 80 then 1900 + y7 else 2000 + y7))
                  batt := some ((byteAt p 2).extractLsb' 0 5)
                  interval := some (BitVec.ofNat 32 (2 ^ (((byteAt p 1).extractLsb' 0 4).toNat + 2)))
                  randGen := some randGen
                  alarms := some alarms
                  rssi := some q
                  id := some id }
          err := .ok } ∧
        y7 = (match s.build.yearOrder with
          | .doc => ((byteAt p 14).extractLsb' 5 3 ++ (byteAt p 15).extractLsb' 4 4 : BitVec 7).toNat
          | .typeG => ((byteAt p 15).extractLsb' 4 4 ++ (byteAt p 14).extractLsb' 5 3 : BitVec 7).toNat) ∧
        (s.build.unitField = [7, 6, 5, 4, 3] →
          (unit = 1#1 ↔ (byteAt p 4).extractLsb' 3 5 = 0x02#5)) ∧
        (s.build.alarmMap = defaultAlarmMap →
          randGen = (byteAt p 1).extractLsb' 5 2 ∧
          alarms = (byteAt p 1).extractLsb' 7 1 ++ (byteAt p 2).extractLsb' 5 3 ++ byteAt p 3)

/-- 44_reading_parser.md R190, R191, 60_exceptions.md R256: PRDG's failures in their order, each with the 14 reading
registers poisoned. -/
def Obligations.PrdgFailuresPoisonTheReading : Prop :=
  ∀ (s : State) (off len d : BitVec 16), s.opa = some off → s.opb = some len → s.dlen = some d →
    ∀ e : Err,
      ((d.toNat < off.toNat + len.toNat ∧ e = .bounds) ∨
       (off.toNat + len.toNat ≤ d.toNat ∧ len.toNat < 16 ∧ e = .rdgShort) ∨
       (off.toNat + len.toNat ≤ d.toNat ∧ 16 ≤ len.toNat ∧ e = .magic ∧
          ∃ p : List Byte, p.length = 16 ∧ Memory.holds s.frame off.toNat p ∧ byteAt p 0 ≠ 0x4B#8)) →
        exec .prdg s = .next { s with rd := ReadingRegs.undef, err := e }

/-- 10_state.md R37, 44_reading_parser.md R193, R197, R203: the ranges of the reading registers after a successful
PRDG. -/
def Obligations.ReadingRanges : Prop :=
  ∀ s t : State, exec .prdg s = .next t → t.err = .ok →
    ∃ (year : BitVec 16) (interval : BitVec 32) (exp : BitVec 4) (k : Nat),
      t.rd.year = some year ∧ t.rd.interval = some interval ∧ t.rd.exp = some exp ∧
      1981 ≤ year.toNat ∧ year.toNat ≤ 2080 ∧ k ≤ 15 ∧ interval.toNat = 4 * 2 ^ k ∧
      -6 ≤ exp.toInt ∧ exp.toInt ≤ 1

/-! ## The mailbox and the composite chain -/

/-- 45_pipeline.md R220: TAKE of a full mailbox moves the packet to RAW, RAW_LEN and RSSI and clears PEND and FOK; of
an empty one it changes ERR alone. -/
def Obligations.TakeDrainsTheMailbox : Prop :=
  ∀ s : State,
    (s.pend = false → exec .take s = .next { s with err := .noPkt }) ∧
    (∀ (n : BitVec 16) (q : Nat) (bs : List Byte), s.pend = true → s.mboxLen = some n → s.mboxRssi = some q →
      bs.length = n.toNat → Memory.holds s.mbox 0 bs →
        ∃ t, exec .take s = .next t ∧
          t = { s with raw := t.raw, rawLen := n, rssi := some q, pend := false, fok := false, err := .ok } ∧
          Memory.holds t.raw 0 bs ∧ Spec.sameOutside t.raw s.raw 0 n.toNat)

/-- 45_pipeline.md R221 to R223: PFRM on raw bytes that encode an acceptable frame leaves the frame in FRAME, its
length, header and payload slice in the registers, one PKT_EVENT and FOK = 1; raw bytes after the first need(E) may be
anything. -/
def Obligations.PfrmAcceptsAFrame : Prop :=
  ∀ (s : State) (bs f : List Byte) (q : Nat),
    s.build.sixbitWf = true → Memory.holds s.raw 0 bs → bs.length ≤ s.rawLen.toNat →
    Spec.rawEncodes s.build bs f → acceptedFrame f = true → s.rssi = some q →
      ∃ (t : State) (id : BitVec 88), exec .pfrm s = .next t ∧
        t = { s with
          frame := t.frame
          dlen := some (BitVec.ofNat 16 f.length)
          hdr := headerRegsOf (headerOf s.build (f.take 10) (byteAt f 10 ++ byteAt f 11))
          tpOff := some 12#16
          tpLen := some (BitVec.ofNat 16 (f.length - 14))
          evlog := s.evlog ++ [.pkt id f 12#16 (BitVec.ofNat 16 (f.length - 14)) q]
          fok := true
          err := .ok } ∧
        t.hdr.idStr = some id ∧ Memory.holds t.frame 0 f ∧ Spec.sameOutside t.frame s.frame 0 f.length

/-- 45_pipeline.md R221, R222: PFRM with fewer than 2 raw bytes raises E_SHORT, and with fewer raw bytes than the
declared length needs raises E_LENGTH. -/
def Obligations.PfrmRejectsMissingBytes : Prop :=
  ∀ s : State,
    (s.rawLen.toNat < 2 → ∃ t, exec .pfrm s = .next t ∧ t.err = .short) ∧
    (∀ (bs : List Byte) (l : Byte), s.build.sixbitWf = true → 2 ≤ s.rawLen.toNat → bs.length = 2 →
      Memory.holds s.raw 0 bs → Spec.spells bs 0 (Spec.codeword s.build (l.extractLsb' 4 4)) →
      Spec.spells bs 1 (Spec.codeword s.build (l.extractLsb' 0 4)) →
      s.rawLen.toNat < (3 * (l.toNat + 5) + 1) / 2 →
        ∃ t, exec .pfrm s = .next t ∧ t.err = .length)

/-- 60_exceptions.md R256, 45_pipeline.md R221: PFRM reports the first check that fails. A bad symbol in RAW[0..2) is
E_CODEWORD, whatever the length; once the length check has passed, a bad symbol below 2E is E_CODEWORD, and the raw bytes
after it need hold no value; once the line decoding has passed, it is header too short, header CRC, no transport CRC,
transport CRC. -/
def Obligations.PfrmReportsTheFirstFailingCheck : Prop :=
  (∀ (s : State) (bs : List Byte) (k : Nat),
    2 ≤ s.rawLen.toNat → bs.length = 2 → Memory.holds s.raw 0 bs → k < 2 → Spec.badSymbol s.build bs k →
      ∃ t, exec .pfrm s = .next t ∧ t.err = .codeword) ∧
  (∀ (s : State) (bs : List Byte) (l : Byte) (k : Nat),
    s.build.sixbitWf = true → 2 ≤ bs.length → Memory.holds s.raw 0 bs →
    Spec.spells bs 0 (Spec.codeword s.build (l.extractLsb' 4 4)) →
    Spec.spells bs 1 (Spec.codeword s.build (l.extractLsb' 0 4)) →
    (3 * (l.toNat + 5) + 1) / 2 ≤ s.rawLen.toNat →
    k < 2 * (l.toNat + 5) → 6 * k + 5 < 8 * bs.length → Spec.badSymbol s.build bs k →
      ∃ t, exec .pfrm s = .next t ∧ t.err = .codeword) ∧
  (∀ (s : State) (bs f : List Byte),
    s.build.sixbitWf = true → Memory.holds s.raw 0 bs → bs.length ≤ s.rawLen.toNat →
    Spec.rawEncodes s.build bs f → f.length = (byteAt f 0).toNat + 5 → acceptedFrame f = false →
      ∃ t, exec .pfrm s = .next t ∧
        t.err = (if f.length < 12 then .short
          else if crc16 (f.take 10) ≠ byteAt f 10 ++ byteAt f 11 then .hdrCrc
          else if f.length < 14 then .tplShort
          else .tplCrc))

/-- 45_pipeline.md R221, R224, 60_exceptions.md R252: every failure of PFRM poisons DLEN, all of FRAME, the 13 header
registers, TP_OFF and TP_LEN; every failure of PPAY but E_SEQ poisons SEED, LFSR, its FRAME region and the 14 reading
registers. Both clear FOK, emit no event and change nothing else. -/
def Obligations.CompositeFailuresPoison : Prop :=
  (∀ s t : State, exec .pfrm s = .next t → t.err ≠ .ok →
    t = { s with frame := t.frame, dlen := none, hdr := HeaderRegs.undef, tpOff := none, tpLen := none, fok := false,
                 err := t.err } ∧
    ∀ a, Memory.read t.frame a = none) ∧
  (∀ s t : State, s.fok = true → exec .ppay s = .next t → t.err ≠ .ok →
    ∃ off len : BitVec 16, s.tpOff = some off ∧ s.tpLen = some len ∧
      t = { s with seed := none, lfsr := none, rd := ReadingRegs.undef, frame := t.frame, fok := false,
                   err := t.err } ∧
      Spec.undefWithin t.frame (off.toNat + s.build.cipherOff) (off.toNat + len.toNat) ∧
      Spec.sameOutside t.frame s.frame (off.toNat + s.build.cipherOff) (off.toNat + len.toNat))

/-- 45_pipeline.md R225: PPAY with FOK = 0 writes only STATUS.ERR <- E_SEQ. -/
def Obligations.PpayWithoutFrameRaisesSeq : Prop :=
  ∀ s : State, s.fok = false → exec .ppay s = .next { s with err := .seq }

/-- 45_pipeline.md R224, R226: PPAY on a validated frame derives the seed, decrypts the region from
TP_OFF + CIPHER_OFF, extracts the reading, emits one READING_EVENT and clears FOK. `f` is FRAME[0..DLEN). -/
def Obligations.PpayReadsThePayload : Prop :=
  ∀ (s : State) (off len d : BitVec 16) (key : BitVec 64) (f : List Byte) (id : BitVec 88) (q : Nat),
    s.fok = true → s.tpOff = some off → s.tpLen = some len → s.dlen = some d → s.key = some key →
    s.hdr.idStr = some id → s.rssi = some q → f.length = d.toNat → Memory.holds s.frame 0 f → 16 ≤ d.toNat →
    off.toNat + len.toNat ≤ d.toNat → s.build.cipherOff + 16 ≤ len.toNat →
    byteAt f (off.toNat + s.build.cipherOff) ^^^ Spec.ks (Spec.seedOf key f) 0 = 0x4B#8 →
      ∃ (t : State) (g : Reading) (p : List Byte), exec .ppay s = .next t ∧
        p = Spec.plain (Spec.seedOf key f)
          ((f.drop (off.toNat + s.build.cipherOff)).take (len.toNat - s.build.cipherOff)) ∧
        g = readingOf s.build (p.take 5) ((p.drop 6).take 10) id q ∧
        t = { s with
          seed := some (Spec.seedOf key f)
          lfsr := some (lfsrStep^[8 * (len.toNat - s.build.cipherOff)] (Spec.seedOf key f))
          frame := t.frame
          rd := readingRegsOf g
          evlog := s.evlog ++ [.reading g]
          fok := false
          err := .ok } ∧
        Memory.holds t.frame (off.toNat + s.build.cipherOff) p ∧
        Spec.sameOutside t.frame s.frame (off.toNat + s.build.cipherOff) (off.toNat + len.toNat)

/-- 45_pipeline.md R224, 60_exceptions.md R256: PPAY's failures on a validated frame, in their order. -/
def Obligations.PpayReportsTheFirstFailingCheck : Prop :=
  ∀ (s : State) (off len d : BitVec 16) (key : BitVec 64) (f : List Byte),
    s.fok = true → s.tpOff = some off → s.tpLen = some len → s.dlen = some d → s.key = some key →
    f.length = d.toNat → Memory.holds s.frame 0 f → off.toNat + len.toNat ≤ d.toNat →
    (d.toNat < 16 ∨ len.toNat < s.build.cipherOff + 16 ∨
      byteAt f (off.toNat + s.build.cipherOff) ^^^ Spec.ks (Spec.seedOf key f) 0 ≠ 0x4B#8) →
      ∃ t, exec .ppay s = .next t ∧
        t.err = (if d.toNat < 16 then .short
          else if len.toNat < s.build.cipherOff then .rdgShort
          else if len.toNat = s.build.cipherOff then .magic
          else if byteAt f (off.toNat + s.build.cipherOff) ^^^ Spec.ks (Spec.seedOf key f) 0 ≠ 0x4B#8 then .magic
          else .rdgShort)

/-- 45_pipeline.md R224, 70_reset_and_hazards.md R290: PPAY is the chain DKEY, DCRY, PRDG that a Host issues by hand
on the same region, but for OPA and OPB, which it does not touch, the event, and FOK. -/
def Obligations.PpayRefinesTheHandChain : Prop :=
  ∀ (s a b e : State) (off len : BitVec 16),
    s.fok = true → s.tpOff = some off → s.tpLen = some len → s.build.cipherOff ≤ len.toNat →
    off.toNat + len.toNat < 65536 →
    exec .dkey s = .next a → a.err = .ok →
    exec .dcry { a with
      opa := some (BitVec.ofNat 16 (off.toNat + s.build.cipherOff))
      opb := some (BitVec.ofNat 16 (len.toNat - s.build.cipherOff)) } = .next b → b.err = .ok →
    exec .prdg b = .next e → e.err = .ok →
      ∃ g : Reading, e.rd = readingRegsOf g ∧
        exec .ppay s = .next { e with opa := s.opa, opb := s.opb, evlog := s.evlog ++ [.reading g] }

/-- 45_pipeline.md R227: PPKT is PFRM, and when that succeeds PPAY on its result; it emits no event when PFRM fails,
PKT_EVENT alone when PPAY fails, both on success; FOK = 0 at the end on every outcome. -/
def Obligations.PpktIsPfrmThenPpay : Prop :=
  (∀ s t : State, exec .pfrm s = .next t →
    (t.err ≠ .ok → exec .ppkt s = .next t) ∧ (t.err = .ok → exec .ppkt s = exec .ppay t)) ∧
  (∀ s t : State, exec .ppkt s = .next t →
    t.fok = false ∧
    ((t.err ≠ .ok ∧ t.evlog = s.evlog) ∨
     (t.err ≠ .ok ∧ ∃ id f a b q, t.evlog = s.evlog ++ [.pkt id f a b q]) ∨
     (t.err = .ok ∧ ∃ id f a b q g, t.evlog = s.evlog ++ [.pkt id f a b q, .reading g])))

/-- 45_pipeline.md R227: PPKT on raw bytes that encode an acceptable frame whose payload decrypts to the magic byte
succeeds: FRAME holds the decrypted frame, the registers its header and reading, EVLOG both events, FOK = 0. -/
def Obligations.PpktRunsTheWholeChain : Prop :=
  ∀ (s : State) (bs f : List Byte) (key : BitVec 64) (q : Nat),
    s.build.sixbitWf = true → Memory.holds s.raw 0 bs → bs.length ≤ s.rawLen.toNat →
    Spec.rawEncodes s.build bs f → acceptedFrame f = true → s.rssi = some q → s.key = some key →
    s.build.cipherOff + 30 ≤ f.length →
    byteAt f (12 + s.build.cipherOff) ^^^ Spec.ks (Spec.seedOf key f) 0 = 0x4B#8 →
      ∃ (t : State) (id : BitVec 88) (g : Reading) (p : List Byte), exec .ppkt s = .next t ∧
        p = Spec.plain (Spec.seedOf key f)
          ((f.drop (12 + s.build.cipherOff)).take (f.length - 14 - s.build.cipherOff)) ∧
        g = readingOf s.build (p.take 5) ((p.drop 6).take 10) id q ∧
        t = { s with
          frame := t.frame
          dlen := some (BitVec.ofNat 16 f.length)
          hdr := headerRegsOf (headerOf s.build (f.take 10) (byteAt f 10 ++ byteAt f 11))
          tpOff := some 12#16
          tpLen := some (BitVec.ofNat 16 (f.length - 14))
          seed := some (Spec.seedOf key f)
          lfsr := some (lfsrStep^[8 * (f.length - 14 - s.build.cipherOff)] (Spec.seedOf key f))
          rd := readingRegsOf g
          evlog := s.evlog ++ [.pkt id f 12#16 (BitVec.ofNat 16 (f.length - 14)) q, .reading g]
          fok := false
          err := .ok } ∧
        t.hdr.idStr = some id ∧ Memory.holds t.frame (12 + s.build.cipherOff) p ∧
        Memory.holds t.frame 0 (f.take (12 + s.build.cipherOff)) ∧
        Memory.holds t.frame (f.length - 2) (f.drop (f.length - 2)) ∧
        Spec.sameOutside t.frame s.frame 0 f.length

/-- 60_exceptions.md R254: "No raw input leaves the Core in a state where it cannot take the next command": with KEY
written, the packet in a full mailbox, whatever its bytes, is taken and run through the whole chain without a model
fault. -/
def Obligations.NoPacketFaultsTheCore : Prop :=
  ∀ s : State, s.key.isSome = true → s.pend = true → MailboxComplete s →
    ∃ t, exec .take s = .next t ∧ t.err = .ok ∧ ∃ u, exec .ppkt t = .next u

/-! ## Frames -/

/-- What the commands that store no byte leave unchanged: every register but their results and ERR, FOK but where
PHDR and STPL fail, and every byte of RAW, FRAME and MBOX. -/
def Obligations.RegisterCommandsFrame : Prop :=
  ∀ s t : State,
    (exec .dnib s = .next t → t = { s with nib := t.nib, err := t.err }) ∧
    (exec .crc s = .next t → t = { s with crcOut := t.crcOut, err := t.err }) ∧
    (exec .crcv s = .next t → t = { s with crcOut := t.crcOut, err := t.err }) ∧
    (exec .phdr s = .next t → t = { s with hdr := t.hdr, fok := t.fok, err := t.err } ∧
      (t.err = .ok → t.fok = s.fok) ∧ (t.err ≠ .ok → t.fok = false)) ∧
    (exec .stpl s = .next t → t = { s with tpOff := t.tpOff, tpLen := t.tpLen, fok := t.fok, err := t.err } ∧
      (t.err = .ok → t.fok = s.fok) ∧ (t.err ≠ .ok → t.fok = false)) ∧
    (exec .dkey s = .next t → t = { s with seed := t.seed, err := t.err }) ∧
    (exec .prdg s = .next t → t = { s with rd := t.rd, err := t.err }) ∧
    (∀ i, i ∈ [Instr.dnib, .crc, .crcv, .phdr, .stpl, .dkey, .prdg] → exec i s = .next t →
      Spec.sameBytes t.raw s.raw ∧ Spec.sameBytes t.frame s.frame ∧ Spec.sameBytes t.mbox s.mbox)

/-- What the commands that store bytes leave unchanged: DBUF stores to FRAME[0..m), DCRY to FRAME[OPA..OPA+OPB), TAKE
to RAW[0..MBOX_LEN), PFRM to FRAME[0..DLEN) on success and to all of FRAME on failure, PPAY to FRAME from
TP_OFF + CIPHER_OFF to TP_OFF + TP_LEN, PPKT to the bytes PFRM stores. -/
def Obligations.StoringCommandsFrame : Prop :=
  ∀ s t : State,
    (exec .dbuf s = .next t → ∃ n : BitVec 16, s.opb = some n ∧
      t = { s with frame := t.frame, dlen := t.dlen, fok := false, err := t.err } ∧
      Spec.sameOutside t.frame s.frame 0 (decodedLength n.toNat)) ∧
    (exec .dcry s = .next t → ∃ off len : BitVec 16, s.opa = some off ∧ s.opb = some len ∧
      t = { s with frame := t.frame, lfsr := t.lfsr, fok := false, err := t.err } ∧
      Spec.sameOutside t.frame s.frame off.toNat (off.toNat + len.toNat)) ∧
    (exec .take s = .next t →
      t = { s with raw := t.raw, rawLen := t.rawLen, rssi := t.rssi, pend := false, fok := t.fok, err := t.err } ∧
      (∀ n, s.mboxLen = some n → Spec.sameOutside t.raw s.raw 0 n.toNat)) ∧
    (exec .pfrm s = .next t →
      t = { s with frame := t.frame, dlen := t.dlen, hdr := t.hdr, tpOff := t.tpOff, tpLen := t.tpLen,
                   evlog := t.evlog, fok := t.fok, err := t.err } ∧
      (t.err = .ok → ∃ d : BitVec 16, t.dlen = some d ∧ Spec.sameOutside t.frame s.frame 0 d.toNat)) ∧
    (exec .ppay s = .next t →
      t = { s with seed := t.seed, lfsr := t.lfsr, frame := t.frame, rd := t.rd, evlog := t.evlog, fok := false,
                   err := t.err } ∧
      (s.fok = true → ∃ off len : BitVec 16, s.tpOff = some off ∧ s.tpLen = some len ∧
        Spec.sameOutside t.frame s.frame (off.toNat + s.build.cipherOff) (off.toNat + len.toNat)) ∧
      (s.fok = false → Spec.sameBytes t.frame s.frame)) ∧
    (exec .ppkt s = .next t →
      t = { s with frame := t.frame, dlen := t.dlen, hdr := t.hdr, tpOff := t.tpOff, tpLen := t.tpLen,
                   seed := t.seed, lfsr := t.lfsr, rd := t.rd, evlog := t.evlog, fok := false, err := t.err } ∧
      (∀ d : BitVec 16, t.dlen = some d → Spec.sameOutside t.frame s.frame 0 d.toNat))

/-- 10_state.md R26, R31, R45, 45_pipeline.md R228: what no command writes, and which commands alone write RAW,
RAW_LEN, RSSI, PEND, NIB, CRC_OUT and EVLOG. EVLOG only grows. -/
def Obligations.WhatNoCommandWrites : Prop :=
  ∀ (i : Instr) (s t : State), exec i s = .next t →
    t.cmd = s.cmd ∧ t.opa = s.opa ∧ t.opb = s.opb ∧ t.opc = s.opc ∧ t.key = s.key ∧ t.mbox = s.mbox ∧
    t.mboxLen = s.mboxLen ∧ t.mboxRssi = s.mboxRssi ∧ t.build = s.build ∧ t.schedule = s.schedule ∧
    (i ≠ .take → t.raw = s.raw ∧ t.rawLen = s.rawLen ∧ t.rssi = s.rssi ∧ t.pend = s.pend) ∧
    (i ≠ .dnib → t.nib = s.nib) ∧ (i ≠ .crc → i ≠ .crcv → t.crcOut = s.crcOut) ∧
    (i ∉ [Instr.pfrm, .ppay, .ppkt] → t.evlog = s.evlog) ∧ ∃ es, t.evlog = s.evlog ++ es

/-! ## The Host, the Radio and reset -/

/-- 45_pipeline.md R241: a Host write of a plain read-write register stores the value cut to the register's width, and
no other register, buffer byte or flag changes. -/
def Obligations.HostWriteCutsToTheWidth : Prop :=
  ∀ (s : State) (num : BitVec 8) (v : Nat) (rest : List Action) (r : Reg),
    s.schedule = .writeReg num v :: rest → Reg.ofNumber num = some r →
    r ∈ [Reg.opa, .opb, .opc, .key, .seed, .rssi] →
      ∃ t, step s = .next t ∧ regValue t r = some (v % 2 ^ Reg.width s.build r) ∧
        (∀ r', r' ≠ r → regValue t r' = regValue s r') ∧
        t.raw = s.raw ∧ t.frame = s.frame ∧ t.mbox = s.mbox ∧ t.mboxLen = s.mboxLen ∧ t.mboxRssi = s.mboxRssi ∧
        t.evlog = s.evlog ∧ t.schedule = rest

/-- 10_state.md R22, R25, R27, R28, 45_pipeline.md R240, R241: a Host write of RAW_LEN or DLEN within the capacity
stores it, DLEN clearing FOK; above the capacity it is a HostFault, and so is any access to an unassigned register
number. The bound is judged on the value written (log 8). -/
def Obligations.HostRegisterDuties : Prop :=
  ∀ (s : State) (v : Nat) (rest : List Action),
    (s.schedule = .writeReg 0x05#8 v :: rest → step s =
      if v ≤ s.build.rawMax then .next { s with schedule := rest, rawLen := BitVec.ofNat 16 v }
      else .fault (.hostFault (.writeReg 0x05#8 v))) ∧
    (s.schedule = .writeReg 0x06#8 v :: rest → step s =
      if v ≤ s.build.frameMax then
        .next { s with schedule := rest, dlen := some (BitVec.ofNat 16 v), fok := false }
      else .fault (.hostFault (.writeReg 0x06#8 v))) ∧
    (∀ num : BitVec 8, num.toNat = 0x0F ∨ (0x1D ≤ num.toNat ∧ num.toNat ≤ 0x1F) ∨ 0x2E ≤ num.toNat →
      (s.schedule = .writeReg num v :: rest → step s = .fault (.hostFault (.writeReg num v))) ∧
      (s.schedule = .readReg num :: rest → step s = .fault (.hostFault (.readReg num))))

/-- 45_pipeline.md R241: a Host write of a read-only register has no effect. -/
def Obligations.ReadOnlyWritesAreIgnored : Prop :=
  ∀ (s : State) (num : BitVec 8) (v : Nat) (rest : List Action) (r : Reg),
    s.schedule = .writeReg num v :: rest → Reg.ofNumber num = some r → Spec.readOnly r = true →
      step s = .next { s with schedule := rest }

/-- 20_memory.md R68, 45_pipeline.md R242, 10_state.md R46: a Host read of a register returns the cell's value, or a
value of the cell's width where it holds UNDEF (the free value of log 6), and changes nothing in the block; the
consumption of an event returns the record at the head of EVLOG, removes it and changes nothing else. The record of what
was returned is log 7. -/
def Obligations.HostReadReturnsTheCell : Prop :=
  (∀ (s : State) (num : BitVec 8) (rest : List Action) (r : Reg),
    s.schedule = .readReg num :: rest → Reg.ofNumber num = some r →
      ∃ (t : State) (v : Nat), step s = .next t ∧ Spec.blockPart t = Spec.blockPart s ∧ t.schedule = rest ∧
        t.lastRead = .reg r v ∧ (∀ w, regValue s r = some w → v = w) ∧
        (regValue s r = none → v < 2 ^ Reg.width s.build r)) ∧
  (∀ (s : State) (rest : List Action) (e : Event) (es : List Event),
    s.schedule = .consumeEvent :: rest → s.evlog = e :: es →
      step s = .next { s with schedule := rest, evlog := es, lastRead := .event e })

/-- 20_memory.md R61, R68, 45_pipeline.md R240, R241, R242: Host access to the buffers. A write within capacity stores
its bytes, and one of at least one FRAME byte clears FOK. A read within capacity returns as many bytes as it names, each
the cell's value where it holds one (else the free value of log 6), and changes nothing in the block. Past the capacity,
or to MBOX, either is a HostFault. One transaction of several bytes as one step is log 12; indices of 65536 and above,
where FRAME_MAX admits them, are log 22. -/
def Obligations.HostBufferAccess : Prop :=
  (∀ (s : State) (start : Nat) (bs : List Byte) (rest : List Action),
    (s.schedule = .writeBuf .frame start bs :: rest → 0 < bs.length →
      (start + bs.length ≤ s.build.frameMax → ∃ t, step s = .next t ∧
        t = { s with schedule := rest, frame := t.frame, fok := false } ∧ Memory.holds t.frame start bs ∧
        Spec.sameOutside t.frame s.frame start (start + bs.length)) ∧
      (s.build.frameMax < start + bs.length →
        step s = .fault (.hostFault (.writeBuf .frame start bs)))) ∧
    (s.schedule = .writeBuf .raw start bs :: rest → 0 < bs.length →
      (start + bs.length ≤ s.build.rawMax → ∃ t, step s = .next t ∧
        t = { s with schedule := rest, raw := t.raw } ∧ Memory.holds t.raw start bs ∧
        Spec.sameOutside t.raw s.raw start (start + bs.length)) ∧
      (s.build.rawMax < start + bs.length →
        step s = .fault (.hostFault (.writeBuf .raw start bs)))) ∧
    (s.schedule = .writeBuf .mbox start bs :: rest →
      step s = .fault (.hostFault (.writeBuf .mbox start bs)))) ∧
  (∀ (s : State) (start n : Nat) (rest : List Action),
    (s.schedule = .readBuf .frame start n :: rest → 0 < n →
      (start + n ≤ s.build.frameMax → ∃ (t : State) (vs : List Byte), step s = .next t ∧
        Spec.blockPart t = Spec.blockPart s ∧ t.schedule = rest ∧ t.lastRead = .bytes .frame start vs ∧
        vs.length = n ∧ Spec.returns s.frame start vs) ∧
      (s.build.frameMax < start + n → step s = .fault (.hostFault (.readBuf .frame start n)))) ∧
    (s.schedule = .readBuf .raw start n :: rest → 0 < n →
      (start + n ≤ s.build.rawMax → ∃ (t : State) (vs : List Byte), step s = .next t ∧
        Spec.blockPart t = Spec.blockPart s ∧ t.schedule = rest ∧ t.lastRead = .bytes .raw start vs ∧
        vs.length = n ∧ Spec.returns s.raw start vs) ∧
      (s.build.rawMax < start + n → step s = .fault (.hostFault (.readBuf .raw start n)))) ∧
    (s.schedule = .readBuf .mbox start n :: rest →
      step s = .fault (.hostFault (.readBuf .mbox start n))))

/-- 45_pipeline.md R230: Deliver into an empty mailbox stores the packet and sets PEND; into a full one it changes
nothing under DROP_NEW and replaces the packet under OVERWRITE. -/
def Obligations.DeliverFillsTheMailbox : Prop :=
  ∀ (s : State) (bs : List Byte) (q : Int) (rest : List Action),
    s.schedule = .deliver bs q :: rest → s.build.wf = true → bs.length ≤ s.build.rawMax →
    -(2 ^ (s.build.rssiW - 1)) ≤ q → q < 2 ^ (s.build.rssiW - 1) →
      (s.pend = true → s.build.mailboxPolicy = .dropNew → step s = .next { s with schedule := rest }) ∧
      ((s.pend = false ∨ s.build.mailboxPolicy = .overwrite) → ∃ (t : State) (n : BitVec 16) (r : Nat),
        step s = .next t ∧
        t = { s with schedule := rest, mbox := t.mbox, mboxLen := some n, mboxRssi := some r, pend := true } ∧
        n.toNat = bs.length ∧ r < 2 ^ s.build.rssiW ∧ (r : Int) % 2 ^ s.build.rssiW = q % 2 ^ s.build.rssiW ∧
        Memory.holds t.mbox 0 bs ∧ Spec.sameOutside t.mbox s.mbox 0 bs.length)

/-- 10_state.md R47, 70_reset_and_hazards.md R280, R281: the reset signal leaves CMD = 0, STATUS = 0, RAW_LEN = 0,
DLEN = 0, EVLOG empty and every other cell UNDEF, from any state. What is not a cell of the block stays (log 16). -/
def Obligations.ResetLeavesTheResetValues : Prop :=
  ∀ (s : State) (rest : List Action), s.schedule = .reset :: rest →
    ∃ t, step s = .next t ∧ t.cmd = 0#8 ∧ statusByte t = 0#8 ∧ regValue t .rawLen = some 0 ∧
      regValue t .dlen = some 0 ∧ t.evlog = [] ∧
      (∀ r : Reg, r ∉ [Reg.cmd, .status, .rawLen, .dlen] → regValue t r = none) ∧
      (∀ a, Memory.read t.raw a = none ∧ Memory.read t.frame a = none ∧ Memory.read t.mbox a = none) ∧
      t.mboxLen = none ∧ t.mboxRssi = none ∧ t.build = s.build ∧ t.schedule = rest

/-! ## Invariants -/

/-- Every step keeps the three buffers in canonical form. -/
def Obligations.StepKeepsBuffersCanonical : Prop :=
  ∀ s t : State, BuffersCanonical s → step s = .next t → BuffersCanonical t

/-- 20_memory.md R61, R74, 10_state.md R34: every step keeps every cell and every valid length within its capacity, a
full mailbox complete, and every signal strength in its width. -/
def Obligations.StepKeepsTheBlockWithinCapacity : Prop :=
  ∀ s t : State, WithinCapacity s → MailboxComplete s → RssiInWidth s → step s = .next t →
    WithinCapacity t ∧ MailboxComplete t ∧ RssiInWidth t

/-- 10_state.md R25, 45_pipeline.md R224: every step keeps the promise of FOK = 1, that FRAME, DLEN, the header
registers, TP_OFF and TP_LEN are those of a frame PFRM accepted. -/
def Obligations.StepKeepsFokMeaningAValidatedFrame : Prop :=
  ∀ s t : State, FrameValidated s → step s = .next t → FrameValidated t

/-- 10_state.md R25: FOK goes from 0 to 1 in no step but the execution of a PFRM. -/
def Obligations.OnlyPfrmSetsFok : Prop :=
  ∀ s t : State, step s = .next t → s.fok = false → t.fok = true →
    ∃ a rest, s.schedule = a :: rest ∧ issuedCommand a = some .pfrm

/-- 10_state.md R31, R45: every step keeps the build parameters, and changes KEY only by a Host write of KEY or by
reset. -/
def Obligations.StepKeepsBuildAndKey : Prop :=
  ∀ s t : State, step s = .next t →
    t.build = s.build ∧
    (t.key = s.key ∨ ∃ a rest, s.schedule = a :: rest ∧ (a = .reset ∨ ∃ v, a = .writeReg 0x09#8 v))

/-- The invariants hold right after reset, for every build whose parameters obey 00_scope.md R8, and the model's own
reset state is one of those (log 2). -/
def Obligations.ResetMeetsTheInvariants : Prop :=
  (∀ c : Config, c.wf = true →
    BuffersCanonical (State.resetWith c) ∧ WithinCapacity (State.resetWith c) ∧
    MailboxComplete (State.resetWith c) ∧ RssiInWidth (State.resetWith c) ∧ FrameValidated (State.resetWith c)) ∧
  State.reset = State.resetWith defaultConfig ∧ defaultConfig.wf = true
end

