-- ==== Sys2Proof/Laws/Memory.lean ====
section
/-! SUPPORT. The laws of the buffer operations: read after write, poison, and the canonical form they keep. -/

namespace Sys2Proof.Machine

theorem Memory.read_write_same (m : Memory) (a : Nat) (v : Byte) : Memory.read (Memory.write m a v) a = some v := by
  induction m with
  | nil => simp [Memory.write, Memory.read]
  | cons x rest ih =>
    obtain ⟨b, w⟩ := x
    simp only [Memory.write]
    split
    · simp [Memory.read]
    · split
      · simp [Memory.read]
      · rename_i hne
        simp [Memory.read, hne, ih]

theorem Memory.read_write_other (m : Memory) {a b : Nat} (v : Byte) (h : b ≠ a) :
    Memory.read (Memory.write m a v) b = Memory.read m b := by
  induction m with
  | nil => simp [Memory.write, Memory.read, h]
  | cons x rest ih =>
    obtain ⟨c, w⟩ := x
    simp only [Memory.write]
    split
    · simp [Memory.read, h]
    · split
      · rename_i hac
        subst hac
        simp [Memory.read, h]
      · simp [Memory.read, ih]

theorem Memory.read_write (m : Memory) (a b : Nat) (v : Byte) :
    Memory.read (Memory.write m a v) b = if b = a then some v else Memory.read m b := by
  split
  · rename_i h; rw [h, Memory.read_write_same]
  · rename_i h; exact Memory.read_write_other m v h

/-- An entry of a written buffer is the one written or one that stood there. -/
theorem Memory.mem_write {m : Memory} {a : Nat} {v : Byte} {x : Host.Cell} (h : x ∈ Memory.write m a v) :
    x = (a, v) ∨ x ∈ m := by
  induction m with
  | nil => simpa [Memory.write] using h
  | cons y rest ih =>
    obtain ⟨b, w⟩ := y
    simp only [Memory.write] at h
    split at h
    · simpa using h
    · split at h
      · rcases List.mem_cons.1 h with h | h
        · exact .inl h
        · exact .inr (List.mem_cons_of_mem _ h)
      · rcases List.mem_cons.1 h with h | h
        · exact .inr (h ▸ List.mem_cons_self)
        · exact (ih h).imp id (List.mem_cons_of_mem _)

theorem Memory.write_wf {m : Memory} (a : Nat) (v : Byte) (h : Memory.wf m) : Memory.wf (Memory.write m a v) := by
  induction m with
  | nil => simp [Memory.write, Memory.wf]
  | cons x rest ih =>
    obtain ⟨b, w⟩ := x
    have hx := List.pairwise_cons.1 h
    simp only [Memory.write]
    split
    · rename_i hab
      refine List.pairwise_cons.2 ⟨fun y hy => ?_, h⟩
      rcases List.mem_cons.1 hy with rfl | hy
      · exact hab
      · exact Nat.lt_trans hab (hx.1 y hy)
    · split
      · rename_i hab
        subst hab
        exact List.pairwise_cons.2 ⟨fun y hy => hx.1 y hy, hx.2⟩
      · rename_i hlt hne
        refine List.pairwise_cons.2 ⟨fun y hy => ?_, ih hx.2⟩
        rcases Memory.mem_write hy with rfl | hy
        · show b < a
          omega
        · exact hx.1 y hy

theorem Memory.writeBytes_wf {m : Memory} (a : Nat) (bs : List Byte) (h : Memory.wf m) :
    Memory.wf (Memory.writeBytes m a bs) := by
  induction bs generalizing m a with
  | nil => exact h
  | cons v rest ih => exact ih (a + 1) (Memory.write_wf a v h)

theorem Memory.poison_wf {m : Memory} (lo hi : Nat) (h : Memory.wf m) : Memory.wf (Memory.poison m lo hi) :=
  List.Pairwise.filter _ h

theorem Memory.read_writeBytes_outside (m : Memory) (a b : Nat) (bs : List Byte) (h : b < a ∨ a + bs.length ≤ b) :
    Memory.read (Memory.writeBytes m a bs) b = Memory.read m b := by
  induction bs generalizing m a with
  | nil => rfl
  | cons v rest ih =>
    simp only [List.length_cons] at h
    rw [Memory.writeBytes, ih _ _ (by omega), Memory.read_write_other _ _ (by omega)]

theorem Memory.read_writeBytes_inside (m : Memory) (a i : Nat) (bs : List Byte) (h : i < bs.length) :
    Memory.read (Memory.writeBytes m a bs) (a + i) = some (byteAt bs i) := by
  induction bs generalizing m a i with
  | nil => simp at h
  | cons v rest ih =>
    cases i with
    | zero =>
      rw [Memory.writeBytes, Memory.read_writeBytes_outside _ _ _ _ (by omega), Nat.add_zero,
        Memory.read_write_same]
      rfl
    | succ i =>
      have h' : i < rest.length := by simpa using h
      have := ih (Memory.write m a v) (a + 1) i h'
      rw [Memory.writeBytes, show a + (i + 1) = a + 1 + i by omega, this]
      rfl

/-- Written bytes stand where they were written. -/
theorem Memory.writeBytes_holds (m : Memory) (a : Nat) (bs : List Byte) :
    Memory.holds (Memory.writeBytes m a bs) a bs :=
  fun i h => Memory.read_writeBytes_inside m a i bs h

theorem Memory.read_poison (m : Memory) (lo hi a : Nat) :
    Memory.read (Memory.poison m lo hi) a = if lo ≤ a ∧ a < hi then none else Memory.read m a := by
  induction m with
  | nil => simp [Memory.poison, Memory.read]
  | cons x rest ih =>
    obtain ⟨b, w⟩ := x
    simp only [Memory.poison] at ih
    simp only [Memory.poison, List.filter_cons]
    by_cases hb : lo ≤ b ∧ b < hi
    · have : (!(decide (lo ≤ b) && decide (b < hi))) = false := by simp [hb.1, hb.2]
      simp only [this]
      rw [if_neg (by simp), ih]
      by_cases ha : a = b
      · subst ha; simp [hb]
      · simp [Memory.read, ha]
    · have : (!(decide (lo ≤ b) && decide (b < hi))) = true := by simp; omega
      simp only [this, if_true, Memory.read]
      by_cases ha : a = b
      · subst ha; simp [hb]
      · simp only [ha, if_false]
        exact ih

theorem Memory.mem_writeBytes {m : Memory} {a : Nat} {bs : List Byte} {x : Host.Cell}
    (h : x ∈ Memory.writeBytes m a bs) : (a ≤ x.1 ∧ x.1 < a + bs.length) ∨ x ∈ m := by
  induction bs generalizing m a with
  | nil => exact .inr h
  | cons v rest ih =>
    rw [Memory.writeBytes] at h
    simp only [List.length_cons]
    rcases ih h with h | h
    · left; omega
    · rcases Memory.mem_write h with rfl | h
      · left; constructor <;> simp
      · exact .inr h

theorem Memory.writeBytes_below {m : Memory} {a cap : Nat} {bs : List Byte} (h : Memory.below m cap)
    (hb : a + bs.length ≤ cap) : Memory.below (Memory.writeBytes m a bs) cap := by
  intro x hx
  rcases Memory.mem_writeBytes hx with hx | hx
  · omega
  · exact h x hx

theorem Memory.poison_below {m : Memory} {cap : Nat} (lo hi : Nat) (h : Memory.below m cap) :
    Memory.below (Memory.poison m lo hi) cap := fun x hx => h x (List.mem_of_mem_filter hx)

end Sys2Proof.Machine
end

