-- ==== Sys2Proof/Laws/Ops.lean ====
section
/-! SUPPORT. What the shared operations can answer, said once each: reads of cells and regions, the end of a command,
and the stages of the commands. -/

namespace Sys2Proof.Machine

theorem need_ok {α : Type} {n : CellName} {c : Option α} {v : α} : need n c = .ok v ↔ c = some v := by
  cases c <;> simp [need]

theorem need_some {α : Type} (n : CellName) (v : α) : need n (some v) = .ok v := rfl

theorem need_none {α : Type} (n : CellName) : need n (none : Option α) = .error (.undef n) := rfl

/-- A read raises no status. -/
theorem need_not_status {α : Type} {n : CellName} {c : Option α} {e : Err} : need n c ≠ .error (.status e) := by
  cases c <;> simp [need]

/-- A computation that binds another succeeds exactly when both parts do. -/
theorem bind_ok {α β : Type} {x : Except Stop α} {f : α → Except Stop β} {b : β} :
    (x >>= f) = .ok b ↔ ∃ a, x = .ok a ∧ f a = .ok b := by
  cases x <;> simp [bind, Except.bind]

/-- A computation that binds another stops exactly when one of the parts does. -/
theorem bind_error {α β : Type} {x : Except Stop α} {f : α → Except Stop β} {e : Stop} :
    (x >>= f) = .error e ↔ x = .error e ∨ ∃ a, x = .ok a ∧ f a = .error e := by
  cases x <;> simp [bind, Except.bind]

/-- The end of a command answers a next state exactly for a success or a raised status. -/
theorem conclude_next {α : Type} {r : Except Stop α} {good : α → State} {poisoned t : State} :
    conclude r good poisoned = .next t ↔
      (∃ a, r = .ok a ∧ t = { good a with err := .ok }) ∨
      (∃ e, r = .error (.status e) ∧ t = { poisoned with err := e }) := by
  rcases r with (e | c) | a
  · simp only [conclude, raiseStatus]
    constructor
    · intro h; cases h; exact .inr ⟨e, rfl, rfl⟩
    · rintro (⟨a, h, -⟩ | ⟨e', h, rfl⟩) <;> cases h; rfl
  · simp only [conclude]
    constructor
    · intro h; cases h
    · rintro (⟨a, h, -⟩ | ⟨e', h, -⟩) <;> cases h
  · simp only [conclude]
    constructor
    · intro h; cases h; exact .inl ⟨a, rfl, rfl⟩
    · rintro (⟨a', h, rfl⟩ | ⟨e', h, -⟩) <;> cases h; rfl

/-- The end of a command never refuses. -/
theorem conclude_not_refused {α : Type} {r : Except Stop α} {good : α → State} {poisoned : State} {x : Refusal} :
    conclude r good poisoned ≠ .refused x := by
  rcases r with (e | c) | a <;> simp [conclude]

@[simp] theorem conclude_ok {α : Type} (a : α) (good : α → State) (poisoned : State) :
    conclude (.ok a) good poisoned = .next { good a with err := .ok } := rfl

@[simp] theorem conclude_status {α : Type} (e : Err) (good : α → State) (poisoned : State) :
    conclude (.error (.status e)) good poisoned = .next { poisoned with err := e } := rfl

@[simp] theorem conclude_undef {α : Type} (c : CellName) (good : α → State) (poisoned : State) :
    conclude (.error (.undef c)) good poisoned = .fault (.readUndef c) := rfl

/-- A region read answers the bytes that stand there, and only when each of them holds a value. -/
theorem memRead_ok {name : Nat → CellName} {m : Memory} {a n : Nat} {bs : List Byte} :
    memRead name m a n = .ok bs ↔ bs.length = n ∧ Memory.holds m a bs := by
  induction n generalizing a bs with
  | zero =>
    constructor
    · intro h; cases h; exact ⟨rfl, fun i h => absurd h (by simp)⟩
    · rintro ⟨h, -⟩
      rw [List.length_eq_zero_iff.1 h]
      rfl
  | succ n ih =>
    simp only [memRead, bind_ok, need_ok, ih]
    constructor
    · rintro ⟨v, hv, rest, ⟨hl, hr⟩, h⟩
      cases h
      refine ⟨by simp [hl], fun i hi => ?_⟩
      cases i with
      | zero => simpa [byteAt] using hv
      | succ i =>
        have := hr i (by simpa using hi)
        rw [show a + (i + 1) = a + 1 + i by omega, this]
        rfl
    · rintro ⟨hl, hh⟩
      obtain ⟨v, rest, rfl⟩ := List.exists_cons_of_length_eq_add_one hl
      refine ⟨v, by simpa [byteAt] using hh 0 (by simp), rest, ⟨by simpa using hl, fun i hi => ?_⟩, rfl⟩
      have := hh (i + 1) (by simpa using hi)
      rw [show a + 1 + i = a + (i + 1) by omega, this]
      rfl

/-- A region read raises no status. -/
theorem memRead_not_status {name : Nat → CellName} {m : Memory} {a n : Nat} {e : Err} :
    memRead name m a n ≠ .error (.status e) := by
  induction n generalizing a with
  | zero => simp [memRead]
  | succ n ih =>
    intro h
    simp only [memRead] at h
    rcases bind_error.1 h with h | ⟨v, -, h⟩
    · exact need_not_status h
    · rcases bind_error.1 h with h | ⟨rest, -, h⟩
      · exact ih h
      · cases h

/-- A part of a region that stands in a buffer stands there too. -/
theorem holds_slice {m : Memory} {a k n : Nat} {bs : List Byte} (h : Memory.holds m a bs) :
    Memory.holds m (a + k) ((bs.drop k).take n) := by
  intro i hi
  simp only [List.length_take, List.length_drop] at hi
  have := h (k + i) (by omega)
  rw [show a + k + i = a + (k + i) by omega, this]
  simp [byteAt, List.getD_eq_getElem?_getD, List.getElem?_drop, show i < n by omega]

theorem dlenNat_ok {c : Cell 16} {d : Nat} : dlenNat c = .ok d ↔ ∃ v, c = some v ∧ v.toNat = d := by
  cases c with
  | none => simp [dlenNat, need, bind, Except.bind]
  | some v => simp [dlenNat, need, bind, Except.bind]

theorem frameByte_ok {m : Memory} {a : Nat} {v : Byte} : frameByte m a = .ok v ↔ Memory.read m a = some v := need_ok

/-- BE16(FRAME, a) of two bytes that hold values. -/
theorem frameBe16_ok {m : Memory} {a : Nat} {w : BitVec 16} :
    frameBe16 m a = .ok w ↔ ∃ b0 b1, Memory.read m a = some b0 ∧ Memory.read m (a + 1) = some b1 ∧ w = be16 b0 b1 := by
  simp only [frameBe16, bind_ok, frameByte_ok]
  constructor
  · rintro ⟨b0, h0, b1, h1, h⟩; cases h; exact ⟨b0, b1, h0, h1, rfl⟩
  · rintro ⟨b0, b1, h0, h1, rfl⟩; exact ⟨b0, h0, b1, h1, rfl⟩

/-- BE32(FRAME, a) of four bytes that hold values. -/
theorem frameBe32_ok {m : Memory} {a : Nat} {w : BitVec 32} :
    frameBe32 m a = .ok w ↔ ∃ b0 b1 b2 b3, Memory.read m a = some b0 ∧ Memory.read m (a + 1) = some b1 ∧
      Memory.read m (a + 2) = some b2 ∧ Memory.read m (a + 3) = some b3 ∧ w = be32 b0 b1 b2 b3 := by
  simp only [frameBe32, bind_ok, frameByte_ok]
  constructor
  · rintro ⟨b0, h0, b1, h1, b2, h2, b3, h3, h⟩; cases h; exact ⟨b0, b1, b2, b3, h0, h1, h2, h3, rfl⟩
  · rintro ⟨b0, b1, b2, b3, h0, h1, h2, h3, rfl⟩; exact ⟨b0, h0, b1, h1, b2, h2, b3, h3, rfl⟩

/-- The checked region read of CRC and CRCV: within DLEN it reads the bytes that stand there. -/
theorem regionRead_ok {s : State} {off len : Nat} {bs : List Byte} :
    regionRead s off len = .ok bs ↔
      ∃ d, s.dlen = some d ∧ off + len ≤ d.toNat ∧ bs.length = len ∧ Memory.holds s.frame off bs := by
  simp only [regionRead, bind_ok, dlenNat_ok]
  constructor
  · rintro ⟨_, ⟨d, hd, rfl⟩, h⟩
    split at h
    · cases h
    · exact ⟨d, hd, by omega, memRead_ok.1 h⟩
  · rintro ⟨d, hd, hle, hbs⟩
    refine ⟨_, ⟨d, hd, rfl⟩, ?_⟩
    rw [if_neg (by omega)]
    exact memRead_ok.2 hbs

/-- The header parse succeeds exactly on 12 bytes whose CRC is right (42_frame_parser.md R141, R142). -/
theorem parseHeader_ok {c : Config} {frame : Memory} {dlen : Cell 16} {h : Header} :
    parseHeader c frame dlen = .ok h ↔
      ∃ d b b10 b11, dlen = some d ∧ 12 ≤ d.toNat ∧ b.length = 10 ∧ Memory.holds frame 0 b ∧
        Memory.read frame 10 = some b10 ∧ Memory.read frame 11 = some b11 ∧
        crc16 b = be16 b10 b11 ∧ h = headerOf c b (be16 b10 b11) := by
  simp only [parseHeader, bind_ok, dlenNat_ok]
  constructor
  · rintro ⟨_, ⟨d, hd, rfl⟩, hrest⟩
    split at hrest
    · cases hrest
    · obtain ⟨hc, hhc, hrest⟩ := bind_ok.1 hrest
      obtain ⟨b, hb, hrest⟩ := bind_ok.1 hrest
      obtain ⟨b10, b11, h10, h11, rfl⟩ := frameBe16_ok.1 hhc
      obtain ⟨hbl, hbh⟩ := memRead_ok.1 hb
      split at hrest
      · cases hrest
        exact ⟨d, b, b10, b11, hd, by omega, hbl, hbh, h10, h11, ‹_›, rfl⟩
      · cases hrest
  · rintro ⟨d, b, b10, b11, hd, hle, hbl, hbh, h10, h11, hcrc, rfl⟩
    refine ⟨_, ⟨d, hd, rfl⟩, ?_⟩
    rw [if_neg (by omega)]
    refine bind_ok.2 ⟨_, frameBe16_ok.2 ⟨b10, b11, h10, h11, rfl⟩, bind_ok.2 ⟨b, memRead_ok.2 ⟨hbl, hbh⟩, ?_⟩⟩
    rw [if_pos hcrc]

/-- The transport split succeeds exactly when the transport CRC is right (42_frame_parser.md R150). -/
theorem splitTransport_ok {frame : Memory} {dlen : Cell 16} {n : Nat} :
    splitTransport frame dlen = .ok n ↔
      ∃ d p c0 c1, dlen = some d ∧ 14 ≤ d.toNat ∧ n = d.toNat - 14 ∧ p.length = n ∧ Memory.holds frame 12 p ∧
        Memory.read frame (d.toNat - 2) = some c0 ∧ Memory.read frame (d.toNat - 1) = some c1 ∧
        crc16 p = be16 c0 c1 := by
  simp only [splitTransport, bind_ok, dlenNat_ok]
  constructor
  · rintro ⟨_, ⟨d, hd, rfl⟩, hrest⟩
    split at hrest
    · cases hrest
    · rename_i hlt
      obtain ⟨p, hp, hrest⟩ := bind_ok.1 hrest
      obtain ⟨tc, htc, hrest⟩ := bind_ok.1 hrest
      obtain ⟨hpl, hph⟩ := memRead_ok.1 hp
      obtain ⟨c0, c1, h0, h1, rfl⟩ := frameBe16_ok.1 htc
      rw [show d.toNat - 2 + 1 = d.toNat - 1 by omega] at h1
      split at hrest
      · cases hrest
        exact ⟨d, p, c0, c1, hd, by omega, rfl, hpl, hph, h0, h1, ‹_›⟩
      · cases hrest
  · rintro ⟨d, p, c0, c1, hd, hle, rfl, hpl, hph, h0, h1, hcrc⟩
    refine ⟨_, ⟨d, hd, rfl⟩, ?_⟩
    rw [if_neg (by omega)]
    refine bind_ok.2 ⟨p, memRead_ok.2 ⟨hpl, hph⟩, bind_ok.2 ⟨be16 c0 c1, ?_, ?_⟩⟩
    · refine frameBe16_ok.2 ⟨c0, c1, h0, ?_, rfl⟩
      rw [show d.toNat - 2 + 1 = d.toNat - 1 by omega]
      exact h1
    · rw [if_pos hcrc]

/-- The key derivation succeeds exactly when KEY and the three words hold values (43_cipher.md R171). -/
theorem deriveKey_ok {key : Cell 64} {frame : Memory} {dlen : Cell 16} {seed : BitVec 32} :
    deriveKey key frame dlen = .ok seed ↔
      ∃ d k w2 w6 w12, dlen = some d ∧ 16 ≤ d.toNat ∧ key = some k ∧ frameBe32 frame 2 = .ok w2 ∧
        frameBe32 frame 6 = .ok w6 ∧ frameBe32 frame 12 = .ok w12 ∧
        seed = k.extractLsb' 32 32 ^^^ k.extractLsb' 0 32 ^^^ w2 ^^^ w6 ^^^ w12 := by
  simp only [deriveKey, bind_ok, dlenNat_ok]
  constructor
  · rintro ⟨_, ⟨d, hd, rfl⟩, hrest⟩
    split at hrest
    · cases hrest
    · simp only [bind_ok, need_ok] at hrest
      obtain ⟨k, hk, w2, h2, w6, h6, w12, h12, h⟩ := hrest
      cases h
      exact ⟨d, k, w2, w6, w12, hd, by omega, hk, h2, h6, h12, rfl⟩
  · rintro ⟨d, k, w2, w6, w12, hd, hle, hk, h2, h6, h12, rfl⟩
    refine ⟨_, ⟨d, hd, rfl⟩, ?_⟩
    rw [if_neg (by omega)]
    simp only [bind_ok, need_ok]
    exact ⟨k, hk, w2, h2, w6, h6, w12, h12, rfl⟩

theorem lfsrSteps_add (m n : Nat) (s : BitVec 32) : lfsrSteps (m + n) s = lfsrSteps n (lfsrSteps m s) := by
  induction m generalizing s with
  | zero => simp [lfsrSteps]
  | succ m ih => rw [Nat.succ_add]; exact ih (lfsrStep s)

/-- The keystream loop: every ciphertext byte is met by the keystream byte of its place, and the state moves 8 steps a
byte (43_cipher.md R175, R177, R179). -/
theorem decryptFrom_ok {frame : Memory} {s t : BitVec 32} {a n : Nat} {ps : List Byte} :
    decryptFrom frame s a n = .ok (ps, t) ↔
      ps.length = n ∧ t = lfsrSteps (8 * n) s ∧
        ∀ i, i < n → ∃ ct, Memory.read frame (a + i) = some ct ∧
          byteAt ps i = ct ^^^ keystreamByte (lfsrSteps (8 * (i + 1)) s) := by
  induction n generalizing s a ps with
  | zero =>
    simp only [decryptFrom]
    constructor
    · intro h; cases h; exact ⟨rfl, rfl, fun i h => absurd h (by omega)⟩
    · rintro ⟨h, rfl, -⟩
      rw [List.length_eq_zero_iff.1 h]
  | succ n ih =>
    have hs : ∀ k, lfsrSteps (8 * k) (lfsrByte s) = lfsrSteps (8 * (k + 1)) s := fun k => by
      rw [lfsrByte, ← lfsrSteps_add, show 8 + 8 * k = 8 * (k + 1) by omega]
    simp only [decryptFrom, bind_ok, frameByte_ok]
    constructor
    · rintro ⟨ct, hct, ⟨rest, t'⟩, hrest, h⟩
      cases h
      obtain ⟨hl, ht, hb⟩ := ih.1 hrest
      refine ⟨by simp [hl], by rw [ht, hs], fun i hi => ?_⟩
      cases i with
      | zero => exact ⟨ct, hct, rfl⟩
      | succ i =>
        obtain ⟨c, hc, hbi⟩ := hb i (by omega)
        refine ⟨c, by rw [show a + (i + 1) = a + 1 + i by omega]; exact hc, ?_⟩
        rw [← hs (i + 1), ← hbi]
        rfl
    · rintro ⟨hl, ht, hb⟩
      obtain ⟨p, rest, rfl⟩ := List.exists_cons_of_length_eq_add_one hl
      obtain ⟨ct, hct, hp⟩ := hb 0 (by omega)
      refine ⟨ct, hct, (rest, t), ih.2 ⟨by simpa using hl, by rw [ht, hs], fun i hi => ?_⟩, ?_⟩
      · obtain ⟨c, hc, hbi⟩ := hb (i + 1) (by omega)
        refine ⟨c, by rw [show a + 1 + i = a + (i + 1) by omega]; exact hc, ?_⟩
        rw [hs (i + 1), ← hbi]
        rfl
      · show Except.ok (_ :: rest, t) = Except.ok (p :: rest, t)
        have : p = ct ^^^ keystreamByte (lfsrByte s) := hp
        rw [this]

/-- Decryption succeeds exactly on a non-empty region within DLEN whose first plaintext byte is the magic byte
(43_cipher.md R175, R178, R181). -/
theorem decrypt_ok {seed : Cell 32} {frame : Memory} {dlen : Cell 16} {off len : Nat} {r : List Byte × BitVec 32} :
    decrypt seed frame dlen off len = .ok r ↔
      ∃ d s ct, dlen = some d ∧ off + len ≤ d.toNat ∧ 0 < len ∧ seed = some s ∧ Memory.read frame off = some ct ∧
        ct ^^^ keystreamByte (lfsrByte s) = magicByte ∧ decryptFrom frame s off len = .ok r := by
  simp only [decrypt, bind_ok, dlenNat_ok]
  constructor
  · rintro ⟨_, ⟨d, hd, rfl⟩, hrest⟩
    split at hrest
    · cases hrest
    · split at hrest
      · cases hrest
      · simp only [bind_ok, need_ok, frameByte_ok] at hrest
        obtain ⟨s, hs, ct, hct, hrest⟩ := hrest
        split at hrest
        · exact ⟨d, s, ct, hd, by omega, by omega, hs, hct, ‹_›, hrest⟩
        · cases hrest
  · rintro ⟨d, s, ct, hd, hle, hpos, hs, hct, hm, hrest⟩
    refine ⟨_, ⟨d, hd, rfl⟩, ?_⟩
    rw [if_neg (by omega), if_neg (by omega)]
    simp only [bind_ok, need_ok, frameByte_ok]
    exact ⟨s, hs, ct, hct, by rw [if_pos hm]; exact hrest⟩

/-- The reading parse succeeds exactly on 16 bytes within DLEN that begin with the magic byte
(44_reading_parser.md R190, R191). -/
theorem parseReading_ok {c : Config} {idStr : Cell 88} {rssi : RssiCell} {frame : Memory} {dlen : Cell 16}
    {off len : Nat} {r : Reading} :
    parseReading c idStr rssi frame dlen off len = .ok r ↔
      ∃ d lo hi id q, dlen = some d ∧ off + len ≤ d.toNat ∧ 16 ≤ len ∧ lo.length = 5 ∧ Memory.holds frame off lo ∧
        hi.length = 10 ∧ Memory.holds frame (off + 6) hi ∧ byteAt lo 0 = magicByte ∧ idStr = some id ∧
        rssi = some q ∧ r = readingOf c lo hi id q := by
  simp only [parseReading, bind_ok, dlenNat_ok]
  constructor
  · rintro ⟨_, ⟨d, hd, rfl⟩, hrest⟩
    split at hrest
    · cases hrest
    · split at hrest
      · cases hrest
      · simp only [bind_ok, frameRead, memRead_ok] at hrest
        obtain ⟨lo, ⟨hll, hlh⟩, hi, ⟨hhl, hhh⟩, hrest⟩ := hrest
        split at hrest
        · simp only [bind_ok, need_ok] at hrest
          obtain ⟨id, hid, q, hq, h⟩ := hrest
          cases h
          exact ⟨d, lo, hi, id, q, hd, by omega, by omega, hll, hlh, hhl, hhh, ‹_›, hid, hq, rfl⟩
        · cases hrest
  · rintro ⟨d, lo, hi, id, q, hd, hle, hlen, hll, hlh, hhl, hhh, hm, hid, hq, rfl⟩
    refine ⟨_, ⟨d, hd, rfl⟩, ?_⟩
    rw [if_neg (by omega), if_neg (by omega)]
    simp only [bind_ok, frameRead, memRead_ok]
    refine ⟨lo, ⟨hll, hlh⟩, hi, ⟨hhl, hhh⟩, ?_⟩
    rw [if_pos hm]
    simp only [bind_ok, need_ok]
    exact ⟨id, hid, q, hq, rfl⟩

/-- The nibbles of a raw buffer: as many as the symbols, each the nibble of its symbol (40_line_codec.md R104). -/
theorem decodeSymbols_ok {c : Config} {raw : Memory} {k g : Nat} {nibs : List (BitVec 4)} :
    decodeSymbols c raw k g = .ok nibs ↔
      nibs.length = g ∧ ∀ i, i < g → ∃ sym, symbol raw (k + i) = .ok sym ∧ nibbleOf c sym = some (nibs.getD i 0) := by
  induction g generalizing k nibs with
  | zero =>
    simp only [decodeSymbols]
    constructor
    · intro h; cases h; exact ⟨rfl, fun i h => absurd h (by omega)⟩
    · rintro ⟨h, -⟩
      rw [List.length_eq_zero_iff.1 h]
  | succ g ih =>
    simp only [decodeSymbols, bind_ok]
    constructor
    · rintro ⟨sym, hsym, h⟩
      split at h
      · cases h
      · rename_i nb hnb
        obtain ⟨rest, hrest, h⟩ := bind_ok.1 h
        cases h
        obtain ⟨hl, hr⟩ := ih.1 hrest
        refine ⟨by simp [hl], fun i hi => ?_⟩
        cases i with
        | zero => exact ⟨sym, hsym, hnb⟩
        | succ i =>
          obtain ⟨y, hy, hny⟩ := hr i (by omega)
          exact ⟨y, by rw [show k + (i + 1) = k + 1 + i by omega]; exact hy, hny⟩
    · rintro ⟨hl, hall⟩
      obtain ⟨nb, rest, rfl⟩ := List.exists_cons_of_length_eq_add_one hl
      obtain ⟨sym, hsym, hnb⟩ := hall 0 (by omega)
      refine ⟨sym, hsym, ?_⟩
      have hnb' : nibbleOf c sym = some nb := hnb
      rw [hnb']
      refine bind_ok.2 ⟨rest, ih.2 ⟨by simpa using hl, fun i hi => ?_⟩, rfl⟩
      obtain ⟨y, hy, hny⟩ := hall (i + 1) (by omega)
      exact ⟨y, by rw [show k + 1 + i = k + (i + 1) by omega]; exact hy, hny⟩

/-- Packing halves the count, rounding up (40_line_codec.md R105). -/
theorem packNibbles_length (nibs : List (BitVec 4)) : (packNibbles nibs).length = (nibs.length + 1) / 2 := by
  induction nibs using packNibbles.induct with
  | case1 => rfl
  | case2 hi => simp [packNibbles]
  | case3 hi lo rest ih => simp [packNibbles, ih]; omega

/-- The mailbox read succeeds exactly when a whole packet stands there (45_pipeline.md R220). -/
theorem mailboxPacket_ok {s : State} {n : BitVec 16} {bs : List Byte} {r : Nat} :
    mailboxPacket s = .ok (n, bs, r) ↔
      s.mboxLen = some n ∧ bs.length = n.toNat ∧ Memory.holds s.mbox 0 bs ∧ s.mboxRssi = some r := by
  simp only [mailboxPacket, bind_ok, need_ok, memRead_ok]
  constructor
  · rintro ⟨n', hn, bs', ⟨hl, hh⟩, r', hr, h⟩
    cases h
    exact ⟨hn, hl, hh, hr⟩
  · rintro ⟨hn, hl, hh, hr⟩
    exact ⟨n, hn, bs, ⟨hl, hh⟩, r, hr, rfl⟩

/-- What PFRM's computation gives, part by part (45_pipeline.md R221). -/
theorem frameStage_ok {s : State} {r : FrameResult} :
    frameStage s = .ok r ↔
      ∃ l, firstPass s = .ok l ∧ requiredRaw (expectedLength l) ≤ s.rawLen.toNat ∧
        dbufBytes s (requiredRaw (expectedLength l)) = .ok r.bytes ∧
        r.frame = Memory.writeBytes s.frame 0 r.bytes ∧
        parseHeader s.build r.frame (some (BitVec.ofNat 16 r.bytes.length)) = .ok r.header ∧
        splitTransport r.frame (some (BitVec.ofNat 16 r.bytes.length)) = .ok r.tpLen ∧ s.rssi = some r.rssi := by
  simp only [frameStage, bind_ok]
  constructor
  · rintro ⟨l, hl, hrest⟩
    split at hrest
    · cases hrest
    · simp only [bind_ok, need_ok] at hrest
      obtain ⟨bs, hbs, h, hh, n, hn, q, hq, heq⟩ := hrest
      cases heq
      exact ⟨l, hl, by omega, hbs, rfl, hh, hn, hq⟩
  · rintro ⟨l, hl, hle, hbs, hf, hh, hn, hq⟩
    obtain ⟨frame, bytes, header, tpLen, rssi⟩ := r
    dsimp only at hbs hf hh hn hq
    subst hf
    refine ⟨l, hl, ?_⟩
    rw [if_neg (by omega)]
    simp only [bind_ok, need_ok]
    exact ⟨bytes, hbs, header, hh, tpLen, hn, rssi, hq, rfl⟩

/-- What PPAY's computation gives, part by part (45_pipeline.md R224). -/
theorem payloadStage_ok {s : State} {off len : Nat} {r : PayloadResult} :
    payloadStage s off len = .ok r ↔
      ∃ ps, deriveKey s.key s.frame s.dlen = .ok r.seed ∧ s.build.cipherOff ≤ len ∧
        decrypt (some r.seed) s.frame s.dlen (off + s.build.cipherOff) (len - s.build.cipherOff) = .ok (ps, r.lfsr) ∧
        r.frame = Memory.writeBytes s.frame (off + s.build.cipherOff) ps ∧
        parseReading s.build s.hdr.idStr s.rssi r.frame s.dlen (off + s.build.cipherOff)
          (len - s.build.cipherOff) = .ok r.reading := by
  simp only [payloadStage, bind_ok]
  constructor
  · rintro ⟨seed, hseed, hrest⟩
    split at hrest
    · cases hrest
    · simp only [bind_ok] at hrest
      obtain ⟨⟨ps, t⟩, hp, rd, hrd, heq⟩ := hrest
      cases heq
      exact ⟨ps, hseed, by omega, hp, rfl, hrd⟩
  · rintro ⟨ps, hseed, hle, hp, hf, hrd⟩
    obtain ⟨seed, lfsr, frame, reading⟩ := r
    dsimp only at hseed hp hf hrd
    subst hf
    refine ⟨seed, hseed, ?_⟩
    rw [if_neg (by omega)]
    simp only [bind_ok]
    exact ⟨(ps, lfsr), hp, reading, hrd, rfl⟩

end Sys2Proof.Machine
end

