-- ==== Sys2Proof/Laws/State.lean ====
section
/-! SUPPORT. One lemma per field per update of the state, each true by unfolding. -/

namespace Sys2Proof.Machine

@[simp] theorem raiseStatus_cmd (e : Err) (s : State) : (raiseStatus e s).cmd = s.cmd := rfl
@[simp] theorem raiseStatus_err (e : Err) (s : State) : (raiseStatus e s).err = e := rfl
@[simp] theorem raiseStatus_fok (e : Err) (s : State) : (raiseStatus e s).fok = s.fok := rfl
@[simp] theorem raiseStatus_pend (e : Err) (s : State) : (raiseStatus e s).pend = s.pend := rfl
@[simp] theorem raiseStatus_opa (e : Err) (s : State) : (raiseStatus e s).opa = s.opa := rfl
@[simp] theorem raiseStatus_opb (e : Err) (s : State) : (raiseStatus e s).opb = s.opb := rfl
@[simp] theorem raiseStatus_opc (e : Err) (s : State) : (raiseStatus e s).opc = s.opc := rfl
@[simp] theorem raiseStatus_rawLen (e : Err) (s : State) : (raiseStatus e s).rawLen = s.rawLen := rfl
@[simp] theorem raiseStatus_dlen (e : Err) (s : State) : (raiseStatus e s).dlen = s.dlen := rfl
@[simp] theorem raiseStatus_nib (e : Err) (s : State) : (raiseStatus e s).nib = s.nib := rfl
@[simp] theorem raiseStatus_crcOut (e : Err) (s : State) : (raiseStatus e s).crcOut = s.crcOut := rfl
@[simp] theorem raiseStatus_key (e : Err) (s : State) : (raiseStatus e s).key = s.key := rfl
@[simp] theorem raiseStatus_seed (e : Err) (s : State) : (raiseStatus e s).seed = s.seed := rfl
@[simp] theorem raiseStatus_lfsr (e : Err) (s : State) : (raiseStatus e s).lfsr = s.lfsr := rfl
@[simp] theorem raiseStatus_rssi (e : Err) (s : State) : (raiseStatus e s).rssi = s.rssi := rfl
@[simp] theorem raiseStatus_tpOff (e : Err) (s : State) : (raiseStatus e s).tpOff = s.tpOff := rfl
@[simp] theorem raiseStatus_tpLen (e : Err) (s : State) : (raiseStatus e s).tpLen = s.tpLen := rfl
@[simp] theorem raiseStatus_hdr (e : Err) (s : State) : (raiseStatus e s).hdr = s.hdr := rfl
@[simp] theorem raiseStatus_rd (e : Err) (s : State) : (raiseStatus e s).rd = s.rd := rfl
@[simp] theorem raiseStatus_raw (e : Err) (s : State) : (raiseStatus e s).raw = s.raw := rfl
@[simp] theorem raiseStatus_frame (e : Err) (s : State) : (raiseStatus e s).frame = s.frame := rfl
@[simp] theorem raiseStatus_mbox (e : Err) (s : State) : (raiseStatus e s).mbox = s.mbox := rfl
@[simp] theorem raiseStatus_mboxLen (e : Err) (s : State) : (raiseStatus e s).mboxLen = s.mboxLen := rfl
@[simp] theorem raiseStatus_mboxRssi (e : Err) (s : State) : (raiseStatus e s).mboxRssi = s.mboxRssi := rfl
@[simp] theorem raiseStatus_evlog (e : Err) (s : State) : (raiseStatus e s).evlog = s.evlog := rfl
@[simp] theorem raiseStatus_build (e : Err) (s : State) : (raiseStatus e s).build = s.build := rfl
@[simp] theorem raiseStatus_schedule (e : Err) (s : State) : (raiseStatus e s).schedule = s.schedule := rfl
@[simp] theorem raiseStatus_lastRead (e : Err) (s : State) : (raiseStatus e s).lastRead = s.lastRead := rfl
@[simp] theorem raiseStatus_draws (e : Err) (s : State) : (raiseStatus e s).draws = s.draws := rfl

@[simp] theorem clearFok_cmd (s : State) : (clearFok s).cmd = s.cmd := rfl
@[simp] theorem clearFok_err (s : State) : (clearFok s).err = s.err := rfl
@[simp] theorem clearFok_fok (s : State) : (clearFok s).fok = false := rfl
@[simp] theorem clearFok_pend (s : State) : (clearFok s).pend = s.pend := rfl
@[simp] theorem clearFok_opa (s : State) : (clearFok s).opa = s.opa := rfl
@[simp] theorem clearFok_opb (s : State) : (clearFok s).opb = s.opb := rfl
@[simp] theorem clearFok_opc (s : State) : (clearFok s).opc = s.opc := rfl
@[simp] theorem clearFok_rawLen (s : State) : (clearFok s).rawLen = s.rawLen := rfl
@[simp] theorem clearFok_dlen (s : State) : (clearFok s).dlen = s.dlen := rfl
@[simp] theorem clearFok_nib (s : State) : (clearFok s).nib = s.nib := rfl
@[simp] theorem clearFok_crcOut (s : State) : (clearFok s).crcOut = s.crcOut := rfl
@[simp] theorem clearFok_key (s : State) : (clearFok s).key = s.key := rfl
@[simp] theorem clearFok_seed (s : State) : (clearFok s).seed = s.seed := rfl
@[simp] theorem clearFok_lfsr (s : State) : (clearFok s).lfsr = s.lfsr := rfl
@[simp] theorem clearFok_rssi (s : State) : (clearFok s).rssi = s.rssi := rfl
@[simp] theorem clearFok_tpOff (s : State) : (clearFok s).tpOff = s.tpOff := rfl
@[simp] theorem clearFok_tpLen (s : State) : (clearFok s).tpLen = s.tpLen := rfl
@[simp] theorem clearFok_hdr (s : State) : (clearFok s).hdr = s.hdr := rfl
@[simp] theorem clearFok_rd (s : State) : (clearFok s).rd = s.rd := rfl
@[simp] theorem clearFok_raw (s : State) : (clearFok s).raw = s.raw := rfl
@[simp] theorem clearFok_frame (s : State) : (clearFok s).frame = s.frame := rfl
@[simp] theorem clearFok_mbox (s : State) : (clearFok s).mbox = s.mbox := rfl
@[simp] theorem clearFok_mboxLen (s : State) : (clearFok s).mboxLen = s.mboxLen := rfl
@[simp] theorem clearFok_mboxRssi (s : State) : (clearFok s).mboxRssi = s.mboxRssi := rfl
@[simp] theorem clearFok_evlog (s : State) : (clearFok s).evlog = s.evlog := rfl
@[simp] theorem clearFok_build (s : State) : (clearFok s).build = s.build := rfl
@[simp] theorem clearFok_schedule (s : State) : (clearFok s).schedule = s.schedule := rfl
@[simp] theorem clearFok_lastRead (s : State) : (clearFok s).lastRead = s.lastRead := rfl
@[simp] theorem clearFok_draws (s : State) : (clearFok s).draws = s.draws := rfl

@[simp] theorem dbufPoisoned_cmd (s : State) (n : Nat) : (dbufPoisoned s n).cmd = s.cmd := rfl
@[simp] theorem dbufPoisoned_err (s : State) (n : Nat) : (dbufPoisoned s n).err = s.err := rfl
@[simp] theorem dbufPoisoned_fok (s : State) (n : Nat) : (dbufPoisoned s n).fok = false := rfl
@[simp] theorem dbufPoisoned_pend (s : State) (n : Nat) : (dbufPoisoned s n).pend = s.pend := rfl
@[simp] theorem dbufPoisoned_opa (s : State) (n : Nat) : (dbufPoisoned s n).opa = s.opa := rfl
@[simp] theorem dbufPoisoned_opb (s : State) (n : Nat) : (dbufPoisoned s n).opb = s.opb := rfl
@[simp] theorem dbufPoisoned_opc (s : State) (n : Nat) : (dbufPoisoned s n).opc = s.opc := rfl
@[simp] theorem dbufPoisoned_rawLen (s : State) (n : Nat) : (dbufPoisoned s n).rawLen = s.rawLen := rfl
@[simp] theorem dbufPoisoned_dlen (s : State) (n : Nat) : (dbufPoisoned s n).dlen = none := rfl
@[simp] theorem dbufPoisoned_nib (s : State) (n : Nat) : (dbufPoisoned s n).nib = s.nib := rfl
@[simp] theorem dbufPoisoned_crcOut (s : State) (n : Nat) : (dbufPoisoned s n).crcOut = s.crcOut := rfl
@[simp] theorem dbufPoisoned_key (s : State) (n : Nat) : (dbufPoisoned s n).key = s.key := rfl
@[simp] theorem dbufPoisoned_seed (s : State) (n : Nat) : (dbufPoisoned s n).seed = s.seed := rfl
@[simp] theorem dbufPoisoned_lfsr (s : State) (n : Nat) : (dbufPoisoned s n).lfsr = s.lfsr := rfl
@[simp] theorem dbufPoisoned_rssi (s : State) (n : Nat) : (dbufPoisoned s n).rssi = s.rssi := rfl
@[simp] theorem dbufPoisoned_tpOff (s : State) (n : Nat) : (dbufPoisoned s n).tpOff = s.tpOff := rfl
@[simp] theorem dbufPoisoned_tpLen (s : State) (n : Nat) : (dbufPoisoned s n).tpLen = s.tpLen := rfl
@[simp] theorem dbufPoisoned_hdr (s : State) (n : Nat) : (dbufPoisoned s n).hdr = s.hdr := rfl
@[simp] theorem dbufPoisoned_rd (s : State) (n : Nat) : (dbufPoisoned s n).rd = s.rd := rfl
@[simp] theorem dbufPoisoned_raw (s : State) (n : Nat) : (dbufPoisoned s n).raw = s.raw := rfl
@[simp] theorem dbufPoisoned_frame (s : State) (n : Nat) : (dbufPoisoned s n).frame = Memory.poison s.frame 0 (decodedLength n) := rfl
@[simp] theorem dbufPoisoned_mbox (s : State) (n : Nat) : (dbufPoisoned s n).mbox = s.mbox := rfl
@[simp] theorem dbufPoisoned_mboxLen (s : State) (n : Nat) : (dbufPoisoned s n).mboxLen = s.mboxLen := rfl
@[simp] theorem dbufPoisoned_mboxRssi (s : State) (n : Nat) : (dbufPoisoned s n).mboxRssi = s.mboxRssi := rfl
@[simp] theorem dbufPoisoned_evlog (s : State) (n : Nat) : (dbufPoisoned s n).evlog = s.evlog := rfl
@[simp] theorem dbufPoisoned_build (s : State) (n : Nat) : (dbufPoisoned s n).build = s.build := rfl
@[simp] theorem dbufPoisoned_schedule (s : State) (n : Nat) : (dbufPoisoned s n).schedule = s.schedule := rfl
@[simp] theorem dbufPoisoned_lastRead (s : State) (n : Nat) : (dbufPoisoned s n).lastRead = s.lastRead := rfl
@[simp] theorem dbufPoisoned_draws (s : State) (n : Nat) : (dbufPoisoned s n).draws = s.draws := rfl

@[simp] theorem dcryPoisoned_cmd (s : State) (off len : Nat) : (dcryPoisoned s off len).cmd = s.cmd := rfl
@[simp] theorem dcryPoisoned_err (s : State) (off len : Nat) : (dcryPoisoned s off len).err = s.err := rfl
@[simp] theorem dcryPoisoned_fok (s : State) (off len : Nat) : (dcryPoisoned s off len).fok = false := rfl
@[simp] theorem dcryPoisoned_pend (s : State) (off len : Nat) : (dcryPoisoned s off len).pend = s.pend := rfl
@[simp] theorem dcryPoisoned_opa (s : State) (off len : Nat) : (dcryPoisoned s off len).opa = s.opa := rfl
@[simp] theorem dcryPoisoned_opb (s : State) (off len : Nat) : (dcryPoisoned s off len).opb = s.opb := rfl
@[simp] theorem dcryPoisoned_opc (s : State) (off len : Nat) : (dcryPoisoned s off len).opc = s.opc := rfl
@[simp] theorem dcryPoisoned_rawLen (s : State) (off len : Nat) : (dcryPoisoned s off len).rawLen = s.rawLen := rfl
@[simp] theorem dcryPoisoned_dlen (s : State) (off len : Nat) : (dcryPoisoned s off len).dlen = s.dlen := rfl
@[simp] theorem dcryPoisoned_nib (s : State) (off len : Nat) : (dcryPoisoned s off len).nib = s.nib := rfl
@[simp] theorem dcryPoisoned_crcOut (s : State) (off len : Nat) : (dcryPoisoned s off len).crcOut = s.crcOut := rfl
@[simp] theorem dcryPoisoned_key (s : State) (off len : Nat) : (dcryPoisoned s off len).key = s.key := rfl
@[simp] theorem dcryPoisoned_seed (s : State) (off len : Nat) : (dcryPoisoned s off len).seed = s.seed := rfl
@[simp] theorem dcryPoisoned_lfsr (s : State) (off len : Nat) : (dcryPoisoned s off len).lfsr = none := rfl
@[simp] theorem dcryPoisoned_rssi (s : State) (off len : Nat) : (dcryPoisoned s off len).rssi = s.rssi := rfl
@[simp] theorem dcryPoisoned_tpOff (s : State) (off len : Nat) : (dcryPoisoned s off len).tpOff = s.tpOff := rfl
@[simp] theorem dcryPoisoned_tpLen (s : State) (off len : Nat) : (dcryPoisoned s off len).tpLen = s.tpLen := rfl
@[simp] theorem dcryPoisoned_hdr (s : State) (off len : Nat) : (dcryPoisoned s off len).hdr = s.hdr := rfl
@[simp] theorem dcryPoisoned_rd (s : State) (off len : Nat) : (dcryPoisoned s off len).rd = s.rd := rfl
@[simp] theorem dcryPoisoned_raw (s : State) (off len : Nat) : (dcryPoisoned s off len).raw = s.raw := rfl
@[simp] theorem dcryPoisoned_frame (s : State) (off len : Nat) : (dcryPoisoned s off len).frame = Memory.poison s.frame off (off + len) := rfl
@[simp] theorem dcryPoisoned_mbox (s : State) (off len : Nat) : (dcryPoisoned s off len).mbox = s.mbox := rfl
@[simp] theorem dcryPoisoned_mboxLen (s : State) (off len : Nat) : (dcryPoisoned s off len).mboxLen = s.mboxLen := rfl
@[simp] theorem dcryPoisoned_mboxRssi (s : State) (off len : Nat) : (dcryPoisoned s off len).mboxRssi = s.mboxRssi := rfl
@[simp] theorem dcryPoisoned_evlog (s : State) (off len : Nat) : (dcryPoisoned s off len).evlog = s.evlog := rfl
@[simp] theorem dcryPoisoned_build (s : State) (off len : Nat) : (dcryPoisoned s off len).build = s.build := rfl
@[simp] theorem dcryPoisoned_schedule (s : State) (off len : Nat) : (dcryPoisoned s off len).schedule = s.schedule := rfl
@[simp] theorem dcryPoisoned_lastRead (s : State) (off len : Nat) : (dcryPoisoned s off len).lastRead = s.lastRead := rfl
@[simp] theorem dcryPoisoned_draws (s : State) (off len : Nat) : (dcryPoisoned s off len).draws = s.draws := rfl

@[simp] theorem frameDone_cmd (s : State) (r : FrameResult) : (frameDone s r).cmd = s.cmd := rfl
@[simp] theorem frameDone_err (s : State) (r : FrameResult) : (frameDone s r).err = s.err := rfl
@[simp] theorem frameDone_fok (s : State) (r : FrameResult) : (frameDone s r).fok = true := rfl
@[simp] theorem frameDone_pend (s : State) (r : FrameResult) : (frameDone s r).pend = s.pend := rfl
@[simp] theorem frameDone_opa (s : State) (r : FrameResult) : (frameDone s r).opa = s.opa := rfl
@[simp] theorem frameDone_opb (s : State) (r : FrameResult) : (frameDone s r).opb = s.opb := rfl
@[simp] theorem frameDone_opc (s : State) (r : FrameResult) : (frameDone s r).opc = s.opc := rfl
@[simp] theorem frameDone_rawLen (s : State) (r : FrameResult) : (frameDone s r).rawLen = s.rawLen := rfl
@[simp] theorem frameDone_dlen (s : State) (r : FrameResult) : (frameDone s r).dlen = some (BitVec.ofNat 16 r.bytes.length) := rfl
@[simp] theorem frameDone_nib (s : State) (r : FrameResult) : (frameDone s r).nib = s.nib := rfl
@[simp] theorem frameDone_crcOut (s : State) (r : FrameResult) : (frameDone s r).crcOut = s.crcOut := rfl
@[simp] theorem frameDone_key (s : State) (r : FrameResult) : (frameDone s r).key = s.key := rfl
@[simp] theorem frameDone_seed (s : State) (r : FrameResult) : (frameDone s r).seed = s.seed := rfl
@[simp] theorem frameDone_lfsr (s : State) (r : FrameResult) : (frameDone s r).lfsr = s.lfsr := rfl
@[simp] theorem frameDone_rssi (s : State) (r : FrameResult) : (frameDone s r).rssi = s.rssi := rfl
@[simp] theorem frameDone_tpOff (s : State) (r : FrameResult) : (frameDone s r).tpOff = some 12 := rfl
@[simp] theorem frameDone_tpLen (s : State) (r : FrameResult) : (frameDone s r).tpLen = some (BitVec.ofNat 16 r.tpLen) := rfl
@[simp] theorem frameDone_hdr (s : State) (r : FrameResult) : (frameDone s r).hdr = headerRegsOf r.header := rfl
@[simp] theorem frameDone_rd (s : State) (r : FrameResult) : (frameDone s r).rd = s.rd := rfl
@[simp] theorem frameDone_raw (s : State) (r : FrameResult) : (frameDone s r).raw = s.raw := rfl
@[simp] theorem frameDone_frame (s : State) (r : FrameResult) : (frameDone s r).frame = r.frame := rfl
@[simp] theorem frameDone_mbox (s : State) (r : FrameResult) : (frameDone s r).mbox = s.mbox := rfl
@[simp] theorem frameDone_mboxLen (s : State) (r : FrameResult) : (frameDone s r).mboxLen = s.mboxLen := rfl
@[simp] theorem frameDone_mboxRssi (s : State) (r : FrameResult) : (frameDone s r).mboxRssi = s.mboxRssi := rfl
@[simp] theorem frameDone_evlog (s : State) (r : FrameResult) : (frameDone s r).evlog = s.evlog ++ [pktEvent r] := rfl
@[simp] theorem frameDone_build (s : State) (r : FrameResult) : (frameDone s r).build = s.build := rfl
@[simp] theorem frameDone_schedule (s : State) (r : FrameResult) : (frameDone s r).schedule = s.schedule := rfl
@[simp] theorem frameDone_lastRead (s : State) (r : FrameResult) : (frameDone s r).lastRead = s.lastRead := rfl
@[simp] theorem frameDone_draws (s : State) (r : FrameResult) : (frameDone s r).draws = s.draws := rfl

@[simp] theorem framePoisoned_cmd (s : State) : (framePoisoned s).cmd = s.cmd := rfl
@[simp] theorem framePoisoned_err (s : State) : (framePoisoned s).err = s.err := rfl
@[simp] theorem framePoisoned_fok (s : State) : (framePoisoned s).fok = false := rfl
@[simp] theorem framePoisoned_pend (s : State) : (framePoisoned s).pend = s.pend := rfl
@[simp] theorem framePoisoned_opa (s : State) : (framePoisoned s).opa = s.opa := rfl
@[simp] theorem framePoisoned_opb (s : State) : (framePoisoned s).opb = s.opb := rfl
@[simp] theorem framePoisoned_opc (s : State) : (framePoisoned s).opc = s.opc := rfl
@[simp] theorem framePoisoned_rawLen (s : State) : (framePoisoned s).rawLen = s.rawLen := rfl
@[simp] theorem framePoisoned_dlen (s : State) : (framePoisoned s).dlen = none := rfl
@[simp] theorem framePoisoned_nib (s : State) : (framePoisoned s).nib = s.nib := rfl
@[simp] theorem framePoisoned_crcOut (s : State) : (framePoisoned s).crcOut = s.crcOut := rfl
@[simp] theorem framePoisoned_key (s : State) : (framePoisoned s).key = s.key := rfl
@[simp] theorem framePoisoned_seed (s : State) : (framePoisoned s).seed = s.seed := rfl
@[simp] theorem framePoisoned_lfsr (s : State) : (framePoisoned s).lfsr = s.lfsr := rfl
@[simp] theorem framePoisoned_rssi (s : State) : (framePoisoned s).rssi = s.rssi := rfl
@[simp] theorem framePoisoned_tpOff (s : State) : (framePoisoned s).tpOff = none := rfl
@[simp] theorem framePoisoned_tpLen (s : State) : (framePoisoned s).tpLen = none := rfl
@[simp] theorem framePoisoned_hdr (s : State) : (framePoisoned s).hdr = HeaderRegs.undef := rfl
@[simp] theorem framePoisoned_rd (s : State) : (framePoisoned s).rd = s.rd := rfl
@[simp] theorem framePoisoned_raw (s : State) : (framePoisoned s).raw = s.raw := rfl
@[simp] theorem framePoisoned_frame (s : State) : (framePoisoned s).frame = [] := rfl
@[simp] theorem framePoisoned_mbox (s : State) : (framePoisoned s).mbox = s.mbox := rfl
@[simp] theorem framePoisoned_mboxLen (s : State) : (framePoisoned s).mboxLen = s.mboxLen := rfl
@[simp] theorem framePoisoned_mboxRssi (s : State) : (framePoisoned s).mboxRssi = s.mboxRssi := rfl
@[simp] theorem framePoisoned_evlog (s : State) : (framePoisoned s).evlog = s.evlog := rfl
@[simp] theorem framePoisoned_build (s : State) : (framePoisoned s).build = s.build := rfl
@[simp] theorem framePoisoned_schedule (s : State) : (framePoisoned s).schedule = s.schedule := rfl
@[simp] theorem framePoisoned_lastRead (s : State) : (framePoisoned s).lastRead = s.lastRead := rfl
@[simp] theorem framePoisoned_draws (s : State) : (framePoisoned s).draws = s.draws := rfl

@[simp] theorem payloadDone_cmd (s : State) (r : PayloadResult) : (payloadDone s r).cmd = s.cmd := rfl
@[simp] theorem payloadDone_err (s : State) (r : PayloadResult) : (payloadDone s r).err = s.err := rfl
@[simp] theorem payloadDone_fok (s : State) (r : PayloadResult) : (payloadDone s r).fok = false := rfl
@[simp] theorem payloadDone_pend (s : State) (r : PayloadResult) : (payloadDone s r).pend = s.pend := rfl
@[simp] theorem payloadDone_opa (s : State) (r : PayloadResult) : (payloadDone s r).opa = s.opa := rfl
@[simp] theorem payloadDone_opb (s : State) (r : PayloadResult) : (payloadDone s r).opb = s.opb := rfl
@[simp] theorem payloadDone_opc (s : State) (r : PayloadResult) : (payloadDone s r).opc = s.opc := rfl
@[simp] theorem payloadDone_rawLen (s : State) (r : PayloadResult) : (payloadDone s r).rawLen = s.rawLen := rfl
@[simp] theorem payloadDone_dlen (s : State) (r : PayloadResult) : (payloadDone s r).dlen = s.dlen := rfl
@[simp] theorem payloadDone_nib (s : State) (r : PayloadResult) : (payloadDone s r).nib = s.nib := rfl
@[simp] theorem payloadDone_crcOut (s : State) (r : PayloadResult) : (payloadDone s r).crcOut = s.crcOut := rfl
@[simp] theorem payloadDone_key (s : State) (r : PayloadResult) : (payloadDone s r).key = s.key := rfl
@[simp] theorem payloadDone_seed (s : State) (r : PayloadResult) : (payloadDone s r).seed = some r.seed := rfl
@[simp] theorem payloadDone_lfsr (s : State) (r : PayloadResult) : (payloadDone s r).lfsr = some r.lfsr := rfl
@[simp] theorem payloadDone_rssi (s : State) (r : PayloadResult) : (payloadDone s r).rssi = s.rssi := rfl
@[simp] theorem payloadDone_tpOff (s : State) (r : PayloadResult) : (payloadDone s r).tpOff = s.tpOff := rfl
@[simp] theorem payloadDone_tpLen (s : State) (r : PayloadResult) : (payloadDone s r).tpLen = s.tpLen := rfl
@[simp] theorem payloadDone_hdr (s : State) (r : PayloadResult) : (payloadDone s r).hdr = s.hdr := rfl
@[simp] theorem payloadDone_rd (s : State) (r : PayloadResult) : (payloadDone s r).rd = readingRegsOf r.reading := rfl
@[simp] theorem payloadDone_raw (s : State) (r : PayloadResult) : (payloadDone s r).raw = s.raw := rfl
@[simp] theorem payloadDone_frame (s : State) (r : PayloadResult) : (payloadDone s r).frame = r.frame := rfl
@[simp] theorem payloadDone_mbox (s : State) (r : PayloadResult) : (payloadDone s r).mbox = s.mbox := rfl
@[simp] theorem payloadDone_mboxLen (s : State) (r : PayloadResult) : (payloadDone s r).mboxLen = s.mboxLen := rfl
@[simp] theorem payloadDone_mboxRssi (s : State) (r : PayloadResult) : (payloadDone s r).mboxRssi = s.mboxRssi := rfl
@[simp] theorem payloadDone_evlog (s : State) (r : PayloadResult) : (payloadDone s r).evlog = s.evlog ++ [.reading r.reading] := rfl
@[simp] theorem payloadDone_build (s : State) (r : PayloadResult) : (payloadDone s r).build = s.build := rfl
@[simp] theorem payloadDone_schedule (s : State) (r : PayloadResult) : (payloadDone s r).schedule = s.schedule := rfl
@[simp] theorem payloadDone_lastRead (s : State) (r : PayloadResult) : (payloadDone s r).lastRead = s.lastRead := rfl
@[simp] theorem payloadDone_draws (s : State) (r : PayloadResult) : (payloadDone s r).draws = s.draws := rfl

@[simp] theorem payloadPoisoned_cmd (s : State) (off len : Nat) : (payloadPoisoned s off len).cmd = s.cmd := rfl
@[simp] theorem payloadPoisoned_err (s : State) (off len : Nat) : (payloadPoisoned s off len).err = s.err := rfl
@[simp] theorem payloadPoisoned_fok (s : State) (off len : Nat) : (payloadPoisoned s off len).fok = false := rfl
@[simp] theorem payloadPoisoned_pend (s : State) (off len : Nat) : (payloadPoisoned s off len).pend = s.pend := rfl
@[simp] theorem payloadPoisoned_opa (s : State) (off len : Nat) : (payloadPoisoned s off len).opa = s.opa := rfl
@[simp] theorem payloadPoisoned_opb (s : State) (off len : Nat) : (payloadPoisoned s off len).opb = s.opb := rfl
@[simp] theorem payloadPoisoned_opc (s : State) (off len : Nat) : (payloadPoisoned s off len).opc = s.opc := rfl
@[simp] theorem payloadPoisoned_rawLen (s : State) (off len : Nat) : (payloadPoisoned s off len).rawLen = s.rawLen := rfl
@[simp] theorem payloadPoisoned_dlen (s : State) (off len : Nat) : (payloadPoisoned s off len).dlen = s.dlen := rfl
@[simp] theorem payloadPoisoned_nib (s : State) (off len : Nat) : (payloadPoisoned s off len).nib = s.nib := rfl
@[simp] theorem payloadPoisoned_crcOut (s : State) (off len : Nat) : (payloadPoisoned s off len).crcOut = s.crcOut := rfl
@[simp] theorem payloadPoisoned_key (s : State) (off len : Nat) : (payloadPoisoned s off len).key = s.key := rfl
@[simp] theorem payloadPoisoned_seed (s : State) (off len : Nat) : (payloadPoisoned s off len).seed = none := rfl
@[simp] theorem payloadPoisoned_lfsr (s : State) (off len : Nat) : (payloadPoisoned s off len).lfsr = none := rfl
@[simp] theorem payloadPoisoned_rssi (s : State) (off len : Nat) : (payloadPoisoned s off len).rssi = s.rssi := rfl
@[simp] theorem payloadPoisoned_tpOff (s : State) (off len : Nat) : (payloadPoisoned s off len).tpOff = s.tpOff := rfl
@[simp] theorem payloadPoisoned_tpLen (s : State) (off len : Nat) : (payloadPoisoned s off len).tpLen = s.tpLen := rfl
@[simp] theorem payloadPoisoned_hdr (s : State) (off len : Nat) : (payloadPoisoned s off len).hdr = s.hdr := rfl
@[simp] theorem payloadPoisoned_rd (s : State) (off len : Nat) : (payloadPoisoned s off len).rd = ReadingRegs.undef := rfl
@[simp] theorem payloadPoisoned_raw (s : State) (off len : Nat) : (payloadPoisoned s off len).raw = s.raw := rfl
@[simp] theorem payloadPoisoned_frame (s : State) (off len : Nat) : (payloadPoisoned s off len).frame = Memory.poison s.frame (off + s.build.cipherOff) (off + len) := rfl
@[simp] theorem payloadPoisoned_mbox (s : State) (off len : Nat) : (payloadPoisoned s off len).mbox = s.mbox := rfl
@[simp] theorem payloadPoisoned_mboxLen (s : State) (off len : Nat) : (payloadPoisoned s off len).mboxLen = s.mboxLen := rfl
@[simp] theorem payloadPoisoned_mboxRssi (s : State) (off len : Nat) : (payloadPoisoned s off len).mboxRssi = s.mboxRssi := rfl
@[simp] theorem payloadPoisoned_evlog (s : State) (off len : Nat) : (payloadPoisoned s off len).evlog = s.evlog := rfl
@[simp] theorem payloadPoisoned_build (s : State) (off len : Nat) : (payloadPoisoned s off len).build = s.build := rfl
@[simp] theorem payloadPoisoned_schedule (s : State) (off len : Nat) : (payloadPoisoned s off len).schedule = s.schedule := rfl
@[simp] theorem payloadPoisoned_lastRead (s : State) (off len : Nat) : (payloadPoisoned s off len).lastRead = s.lastRead := rfl
@[simp] theorem payloadPoisoned_draws (s : State) (off len : Nat) : (payloadPoisoned s off len).draws = s.draws := rfl

@[simp] theorem acceptPacket_cmd (s : State) (bs : List Byte) (q : Int) : (acceptPacket s bs q).cmd = s.cmd := rfl
@[simp] theorem acceptPacket_err (s : State) (bs : List Byte) (q : Int) : (acceptPacket s bs q).err = s.err := rfl
@[simp] theorem acceptPacket_fok (s : State) (bs : List Byte) (q : Int) : (acceptPacket s bs q).fok = s.fok := rfl
@[simp] theorem acceptPacket_pend (s : State) (bs : List Byte) (q : Int) : (acceptPacket s bs q).pend = true := rfl
@[simp] theorem acceptPacket_opa (s : State) (bs : List Byte) (q : Int) : (acceptPacket s bs q).opa = s.opa := rfl
@[simp] theorem acceptPacket_opb (s : State) (bs : List Byte) (q : Int) : (acceptPacket s bs q).opb = s.opb := rfl
@[simp] theorem acceptPacket_opc (s : State) (bs : List Byte) (q : Int) : (acceptPacket s bs q).opc = s.opc := rfl
@[simp] theorem acceptPacket_rawLen (s : State) (bs : List Byte) (q : Int) : (acceptPacket s bs q).rawLen = s.rawLen := rfl
@[simp] theorem acceptPacket_dlen (s : State) (bs : List Byte) (q : Int) : (acceptPacket s bs q).dlen = s.dlen := rfl
@[simp] theorem acceptPacket_nib (s : State) (bs : List Byte) (q : Int) : (acceptPacket s bs q).nib = s.nib := rfl
@[simp] theorem acceptPacket_crcOut (s : State) (bs : List Byte) (q : Int) : (acceptPacket s bs q).crcOut = s.crcOut := rfl
@[simp] theorem acceptPacket_key (s : State) (bs : List Byte) (q : Int) : (acceptPacket s bs q).key = s.key := rfl
@[simp] theorem acceptPacket_seed (s : State) (bs : List Byte) (q : Int) : (acceptPacket s bs q).seed = s.seed := rfl
@[simp] theorem acceptPacket_lfsr (s : State) (bs : List Byte) (q : Int) : (acceptPacket s bs q).lfsr = s.lfsr := rfl
@[simp] theorem acceptPacket_rssi (s : State) (bs : List Byte) (q : Int) : (acceptPacket s bs q).rssi = s.rssi := rfl
@[simp] theorem acceptPacket_tpOff (s : State) (bs : List Byte) (q : Int) : (acceptPacket s bs q).tpOff = s.tpOff := rfl
@[simp] theorem acceptPacket_tpLen (s : State) (bs : List Byte) (q : Int) : (acceptPacket s bs q).tpLen = s.tpLen := rfl
@[simp] theorem acceptPacket_hdr (s : State) (bs : List Byte) (q : Int) : (acceptPacket s bs q).hdr = s.hdr := rfl
@[simp] theorem acceptPacket_rd (s : State) (bs : List Byte) (q : Int) : (acceptPacket s bs q).rd = s.rd := rfl
@[simp] theorem acceptPacket_raw (s : State) (bs : List Byte) (q : Int) : (acceptPacket s bs q).raw = s.raw := rfl
@[simp] theorem acceptPacket_frame (s : State) (bs : List Byte) (q : Int) : (acceptPacket s bs q).frame = s.frame := rfl
@[simp] theorem acceptPacket_mbox (s : State) (bs : List Byte) (q : Int) : (acceptPacket s bs q).mbox = Memory.writeBytes s.mbox 0 bs := rfl
@[simp] theorem acceptPacket_mboxLen (s : State) (bs : List Byte) (q : Int) : (acceptPacket s bs q).mboxLen = some (BitVec.ofNat 16 bs.length) := rfl
@[simp] theorem acceptPacket_mboxRssi (s : State) (bs : List Byte) (q : Int) : (acceptPacket s bs q).mboxRssi = some (rssiPattern s.build q) := rfl
@[simp] theorem acceptPacket_evlog (s : State) (bs : List Byte) (q : Int) : (acceptPacket s bs q).evlog = s.evlog := rfl
@[simp] theorem acceptPacket_build (s : State) (bs : List Byte) (q : Int) : (acceptPacket s bs q).build = s.build := rfl
@[simp] theorem acceptPacket_schedule (s : State) (bs : List Byte) (q : Int) : (acceptPacket s bs q).schedule = s.schedule := rfl
@[simp] theorem acceptPacket_lastRead (s : State) (bs : List Byte) (q : Int) : (acceptPacket s bs q).lastRead = s.lastRead := rfl
@[simp] theorem acceptPacket_draws (s : State) (bs : List Byte) (q : Int) : (acceptPacket s bs q).draws = s.draws := rfl

@[simp] theorem resetBlock_cmd (s : State) : (resetBlock s).cmd = 0x00 := rfl
@[simp] theorem resetBlock_err (s : State) : (resetBlock s).err = .ok := rfl
@[simp] theorem resetBlock_fok (s : State) : (resetBlock s).fok = false := rfl
@[simp] theorem resetBlock_pend (s : State) : (resetBlock s).pend = false := rfl
@[simp] theorem resetBlock_opa (s : State) : (resetBlock s).opa = none := rfl
@[simp] theorem resetBlock_opb (s : State) : (resetBlock s).opb = none := rfl
@[simp] theorem resetBlock_opc (s : State) : (resetBlock s).opc = none := rfl
@[simp] theorem resetBlock_rawLen (s : State) : (resetBlock s).rawLen = 0 := rfl
@[simp] theorem resetBlock_dlen (s : State) : (resetBlock s).dlen = some 0 := rfl
@[simp] theorem resetBlock_nib (s : State) : (resetBlock s).nib = none := rfl
@[simp] theorem resetBlock_crcOut (s : State) : (resetBlock s).crcOut = none := rfl
@[simp] theorem resetBlock_key (s : State) : (resetBlock s).key = none := rfl
@[simp] theorem resetBlock_seed (s : State) : (resetBlock s).seed = none := rfl
@[simp] theorem resetBlock_lfsr (s : State) : (resetBlock s).lfsr = none := rfl
@[simp] theorem resetBlock_rssi (s : State) : (resetBlock s).rssi = none := rfl
@[simp] theorem resetBlock_tpOff (s : State) : (resetBlock s).tpOff = none := rfl
@[simp] theorem resetBlock_tpLen (s : State) : (resetBlock s).tpLen = none := rfl
@[simp] theorem resetBlock_hdr (s : State) : (resetBlock s).hdr = HeaderRegs.undef := rfl
@[simp] theorem resetBlock_rd (s : State) : (resetBlock s).rd = ReadingRegs.undef := rfl
@[simp] theorem resetBlock_raw (s : State) : (resetBlock s).raw = [] := rfl
@[simp] theorem resetBlock_frame (s : State) : (resetBlock s).frame = [] := rfl
@[simp] theorem resetBlock_mbox (s : State) : (resetBlock s).mbox = [] := rfl
@[simp] theorem resetBlock_mboxLen (s : State) : (resetBlock s).mboxLen = none := rfl
@[simp] theorem resetBlock_mboxRssi (s : State) : (resetBlock s).mboxRssi = none := rfl
@[simp] theorem resetBlock_evlog (s : State) : (resetBlock s).evlog = [] := rfl
@[simp] theorem resetBlock_build (s : State) : (resetBlock s).build = s.build := rfl
@[simp] theorem resetBlock_schedule (s : State) : (resetBlock s).schedule = s.schedule := rfl
@[simp] theorem resetBlock_lastRead (s : State) : (resetBlock s).lastRead = s.lastRead := rfl
@[simp] theorem resetBlock_draws (s : State) : (resetBlock s).draws = s.draws := rfl

end Sys2Proof.Machine
end

