-- ==== Sys2Proof/Laws/Exec.lean ====
section
/-! SUPPORT. What each command can do when it answers a next state, said once: its success, its raised statuses. -/

namespace Sys2Proof.Machine

/-- DNIB (40_line_codec.md R102). -/
theorem execDnib_next {s t : State} :
    exec .dnib s = .next t ↔ ∃ a, s.opa = some a ∧
      ((∃ nb, nibbleOf s.build (a.setWidth 6) = some nb ∧ t = { s with nib := some nb, err := .ok }) ∨
       (nibbleOf s.build (a.setWidth 6) = none ∧ t = { s with nib := none, err := .codeword })) := by
  simp only [exec, execDnib]
  cases ha : s.opa with
  | none => simp [need, bind, Except.bind]
  | some a =>
    cases hn : nibbleOf s.build (a.setWidth 6) with
    | none => simp [need, bind, Except.bind, hn, eq_comm]
    | some nb => simp [need, bind, Except.bind, hn, eq_comm]

/-- DBUF (40_line_codec.md R104). -/
theorem execDbuf_next {s t : State} :
    exec .dbuf s = .next t ↔ ∃ n, s.opb = some n ∧
      ((∃ bs, dbufBytes s n.toNat = .ok bs ∧
          t = { s with frame := Memory.writeBytes s.frame 0 bs, dlen := some (BitVec.ofNat 16 bs.length),
                       fok := false, err := .ok }) ∨
       (∃ e, dbufBytes s n.toNat = .error (.status e) ∧ t = { dbufPoisoned s n.toNat with err := e })) := by
  simp only [exec, execDbuf]
  cases hn : s.opb with
  | none => simp
  | some n => simp [conclude_next]

/-- CRC (41_frame_crc.md R122). -/
theorem execCrc_next {s t : State} :
    exec .crc s = .next t ↔ ∃ off len, s.opa = some off ∧ s.opb = some len ∧
      ((∃ bs, regionRead s off.toNat len.toNat = .ok bs ∧ t = { s with crcOut := some (crc16 bs), err := .ok }) ∨
       (∃ e, regionRead s off.toNat len.toNat = .error (.status e) ∧ t = { s with crcOut := none, err := e })) := by
  simp only [exec, execCrc, opaNat, opbNat]
  cases hoff : s.opa with
  | none => simp [need, bind, Except.bind]
  | some off =>
    cases hlen : s.opb with
    | none => simp [need, bind, Except.bind]
    | some len =>
      cases hr : regionRead s off.toNat len.toNat with
      | ok bs => simp [need, bind, Except.bind, hr, eq_comm]
      | error x => cases x <;> simp [need, bind, Except.bind, hr, eq_comm]

/-- CRCV (41_frame_crc.md R124). -/
theorem execCrcv_next {s t : State} :
    exec .crcv s = .next t ↔ ∃ off len, s.opa = some off ∧ s.opb = some len ∧
      ((∃ bs w, regionRead s off.toNat len.toNat = .ok bs ∧ s.opc = some w ∧
          t = { s with crcOut := some (crc16 bs), err := if crc16 bs = w then .ok else .crc }) ∨
       (∃ e, regionRead s off.toNat len.toNat = .error (.status e) ∧ t = { s with crcOut := none, err := e })) := by
  simp only [exec, execCrcv, crcvPair, opaNat, opbNat]
  cases hoff : s.opa with
  | none => simp [need, bind, Except.bind]
  | some off =>
    cases hlen : s.opb with
    | none => simp [need, bind, Except.bind]
    | some len =>
      cases hr : regionRead s off.toNat len.toNat with
      | ok bs => cases hw : s.opc <;> simp [need, bind, Except.bind, hr, eq_comm]
      | error x => cases x <;> simp [need, bind, Except.bind, hr, eq_comm, raiseStatus]

/-- PHDR (42_frame_parser.md R141). -/
theorem execPhdr_next {s t : State} :
    exec .phdr s = .next t ↔
      (∃ h, parseHeader s.build s.frame s.dlen = .ok h ∧ t = { s with hdr := headerRegsOf h, err := .ok }) ∨
      (∃ e, parseHeader s.build s.frame s.dlen = .error (.status e) ∧
        t = { s with hdr := HeaderRegs.undef, fok := false, err := e }) := by
  simp only [exec, execPhdr, conclude_next]

/-- STPL (42_frame_parser.md R150). -/
theorem execStpl_next {s t : State} :
    exec .stpl s = .next t ↔
      (∃ n, splitTransport s.frame s.dlen = .ok n ∧
        t = { s with tpOff := some 12, tpLen := some (BitVec.ofNat 16 n), err := .ok }) ∨
      (∃ e, splitTransport s.frame s.dlen = .error (.status e) ∧
        t = { s with tpOff := none, tpLen := none, fok := false, err := e }) := by
  simp only [exec, execStpl, conclude_next]

/-- DKEY (43_cipher.md R171). -/
theorem execDkey_next {s t : State} :
    exec .dkey s = .next t ↔
      (∃ seed, deriveKey s.key s.frame s.dlen = .ok seed ∧ t = { s with seed := some seed, err := .ok }) ∨
      (∃ e, deriveKey s.key s.frame s.dlen = .error (.status e) ∧ t = { s with seed := none, err := e }) := by
  simp only [exec, execDkey, conclude_next]

/-- DCRY (43_cipher.md R175). -/
theorem execDcry_next {s t : State} :
    exec .dcry s = .next t ↔ ∃ off len, s.opa = some off ∧ s.opb = some len ∧
      ((∃ r, decrypt s.seed s.frame s.dlen off.toNat len.toNat = .ok r ∧
          t = { s with frame := Memory.writeBytes s.frame off.toNat r.1, lfsr := some r.2, fok := false, err := .ok }) ∨
       (∃ e, decrypt s.seed s.frame s.dlen off.toNat len.toNat = .error (.status e) ∧
          t = { dcryPoisoned s off.toNat len.toNat with err := e })) := by
  simp only [exec, execDcry]
  cases hoff : s.opa with
  | none => simp
  | some off =>
    cases hlen : s.opb with
    | none => simp
    | some len => simp [conclude_next]

/-- PRDG (44_reading_parser.md R190). -/
theorem execPrdg_next {s t : State} :
    exec .prdg s = .next t ↔ ∃ off len, s.opa = some off ∧ s.opb = some len ∧
      ((∃ r, parseReading s.build s.hdr.idStr s.rssi s.frame s.dlen off.toNat len.toNat = .ok r ∧
          t = { s with rd := readingRegsOf r, err := .ok }) ∨
       (∃ e, parseReading s.build s.hdr.idStr s.rssi s.frame s.dlen off.toNat len.toNat = .error (.status e) ∧
          t = { s with rd := ReadingRegs.undef, err := e })) := by
  simp only [exec, execPrdg, opaNat, opbNat]
  cases hoff : s.opa with
  | none => simp [need, bind, Except.bind]
  | some off =>
    cases hlen : s.opb with
    | none => simp [need, bind, Except.bind]
    | some len => simp [need, bind, Except.bind, conclude_next]

theorem mailboxPacket_not_status {s : State} {e : Err} : mailboxPacket s ≠ .error (.status e) := by
  intro h
  simp only [mailboxPacket] at h
  rcases bind_error.1 h with h | ⟨n, -, h⟩
  · exact need_not_status h
  · rcases bind_error.1 h with h | ⟨bs, -, h⟩
    · exact memRead_not_status h
    · rcases bind_error.1 h with h | ⟨r, -, h⟩
      · exact need_not_status h
      · cases h

/-- TAKE (45_pipeline.md R220): E_NOPKT is its only failure. -/
theorem execTake_next {s t : State} :
    exec .take s = .next t ↔
      (s.pend = false ∧ t = { s with err := .noPkt }) ∨
      (s.pend = true ∧ ∃ n bs r, mailboxPacket s = .ok (n, bs, r) ∧
        t = { s with raw := Memory.writeBytes s.raw 0 bs, rawLen := n, rssi := some r, pend := false, fok := false,
                     err := .ok }) := by
  simp only [exec, execTake]
  cases hp : s.pend with
  | false => simp [raiseStatus, eq_comm, hp]
  | true =>
    simp only [if_true, conclude_next]
    constructor
    · rintro (⟨⟨n, bs, r⟩, h, rfl⟩ | ⟨e, h, -⟩)
      · exact .inr ⟨trivial, n, bs, r, h, rfl⟩
      · exact absurd h mailboxPacket_not_status
    · rintro (⟨h, -⟩ | ⟨-, n, bs, r, h, rfl⟩)
      · cases h
      · exact .inl ⟨(n, bs, r), h, rfl⟩

/-- PFRM (45_pipeline.md R221). -/
theorem execPfrm_next {s t : State} :
    exec .pfrm s = .next t ↔
      (∃ r, frameStage s = .ok r ∧ t = { frameDone s r with err := .ok }) ∨
      (∃ e, frameStage s = .error (.status e) ∧ t = { framePoisoned s with err := e }) := by
  simp only [exec, execPfrm, runFrameStage, conclude_next]

/-- PPAY (45_pipeline.md R224, R225). -/
theorem execPpay_next {s t : State} :
    exec .ppay s = .next t ↔
      (s.fok = false ∧ t = { s with err := .seq }) ∨
      (s.fok = true ∧ ∃ off len, s.tpOff = some off ∧ s.tpLen = some len ∧
        ((∃ r, payloadStage s off.toNat len.toNat = .ok r ∧ t = { payloadDone s r with err := .ok }) ∨
         (∃ e, payloadStage s off.toNat len.toNat = .error (.status e) ∧
            t = { payloadPoisoned s off.toNat len.toNat with err := e }))) := by
  simp only [exec, execPpay, runPayloadStage]
  cases hf : s.fok with
  | false => simp [raiseStatus, eq_comm, hf]
  | true =>
    cases hoff : s.tpOff with
    | none => simp
    | some off =>
      cases hlen : s.tpLen with
      | none => simp
      | some len => simp [conclude_next]

/-- PPKT (45_pipeline.md R227). -/
theorem execPpkt_next {s u : State} :
    exec .ppkt s = .next u ↔ ∃ t, exec .pfrm s = .next t ∧
      ((t.err ≠ .ok ∧ u = t) ∨ (t.err = .ok ∧ exec .ppay t = .next u)) := by
  simp only [exec, execPpkt, execPfrm, execPpay]
  cases hr : runFrameStage s with
  | next t =>
    by_cases ht : t.err = .ok <;> simp [ht, @eq_comm _ u t]
  | fault f => simp
  | refused r => simp

end Sys2Proof.Machine
end

