-- ==== Sys2Proof/Laws/PerInstr.lean ====
section
/-! SUPPORT. A statement about every command as syntax: its word is the one of 30_encoding.md R80 and R83. -/

namespace Sys2Proof.Laws.WordRoundTrip

/-- The command is well formed, its word is a well-formed command word, and the decoder reads the command back, with
whatever follows it (30_encoding.md R80, R81, R83). -/
def Statement (i : Instr) : Prop :=
  i.wf = true ∧ wordWf (encode i) = true ∧ ∀ rest, decodeBytes (encode i :: rest) = .ok (i, rest)

theorem dnib : Statement .dnib := ⟨rfl, by decide, fun _ => rfl⟩
theorem dbuf : Statement .dbuf := ⟨rfl, by decide, fun _ => rfl⟩
theorem crc : Statement .crc := ⟨rfl, by decide, fun _ => rfl⟩
theorem crcv : Statement .crcv := ⟨rfl, by decide, fun _ => rfl⟩
theorem phdr : Statement .phdr := ⟨rfl, by decide, fun _ => rfl⟩
theorem stpl : Statement .stpl := ⟨rfl, by decide, fun _ => rfl⟩
theorem dkey : Statement .dkey := ⟨rfl, by decide, fun _ => rfl⟩
theorem dcry : Statement .dcry := ⟨rfl, by decide, fun _ => rfl⟩
theorem prdg : Statement .prdg := ⟨rfl, by decide, fun _ => rfl⟩
theorem take : Statement .take := ⟨rfl, by decide, fun _ => rfl⟩
theorem pfrm : Statement .pfrm := ⟨rfl, by decide, fun _ => rfl⟩
theorem ppay : Statement .ppay := ⟨rfl, by decide, fun _ => rfl⟩
theorem ppkt : Statement .ppkt := ⟨rfl, by decide, fun _ => rfl⟩

end Sys2Proof.Laws.WordRoundTrip
end

