-- ==== Sys2Proof/Laws/Status.lean ====
section
/-! SUPPORT. Which statuses each stage can raise (60_exceptions.md R256), and how many bytes it gives. -/

namespace Sys2Proof.Machine

/-- The checked region read raises E_BOUNDS alone. -/
theorem regionRead_status {s : State} {o l : Nat} {e : Err} (h : regionRead s o l = .error (.status e)) : e = .bounds := by
  simp only [regionRead, dlenNat] at h
  cases hd : s.dlen <;> simp [hd, need, bind, Except.bind] at h
  split at h
  · simpa using h.symm
  · exact absurd h memRead_not_status
/-- A big-endian read raises no status. -/
theorem frameBe16_not_status {m : Memory} {a : Nat} {e : Err} : frameBe16 m a ≠ .error (.status e) := by
  simp only [frameBe16, frameByte]
  intro h
  rcases bind_error.1 h with h | ⟨_, -, h⟩
  · exact need_not_status h
  · rcases bind_error.1 h with h | ⟨_, -, h⟩
    · exact need_not_status h
    · cases h
/-- PHDR's statuses (60_exceptions.md R256). -/
theorem parseHeader_status {c : Config} {m : Memory} {d : Cell 16} {e : Err} (h : parseHeader c m d = .error (.status e)) : e = .short ∨ e = .hdrCrc := by
  simp only [parseHeader, dlenNat] at h
  cases d <;> simp [need, bind, Except.bind] at h
  split at h
  · left; simpa using h.symm
  · right
    rcases bind_error.1 h with h | ⟨_, -, h⟩
    · exact absurd h frameBe16_not_status
    · rcases bind_error.1 h with h | ⟨_, -, h⟩
      · exact absurd h memRead_not_status
      · split at h
        · cases h
        · simpa using h.symm
/-- STPL's statuses (60_exceptions.md R256). -/
theorem splitTransport_status {m : Memory} {d : Cell 16} {e : Err} (h : splitTransport m d = .error (.status e)) : e = .tplShort ∨ e = .tplCrc := by
  simp only [splitTransport, dlenNat] at h
  cases d <;> simp [need, bind, Except.bind] at h
  split at h
  · left; simpa using h.symm
  · right
    rcases bind_error.1 h with h | ⟨_, -, h⟩
    · exact absurd h memRead_not_status
    · rcases bind_error.1 h with h | ⟨_, -, h⟩
      · exact absurd h frameBe16_not_status
      · split at h
        · cases h
        · simpa using h.symm

/-- The line decoder writes ceil(g/2) bytes (40_line_codec.md R105). -/
theorem lineDecode_length {c : Config} {raw : Memory} {n : Nat} {bs : List Byte} (h : lineDecode c raw n = .ok bs) : bs.length = decodedLength n := by
  simp only [lineDecode] at h
  obtain ⟨nibs, hn, h⟩ := bind_ok.1 h
  cases h
  rw [packNibbles_length, (decodeSymbols_ok.1 hn).1]; rfl
theorem dbufBytes_length {s : State} {n : Nat} {bs : List Byte} (h : dbufBytes s n = .ok bs) : bs.length = decodedLength n := by
  simp only [dbufBytes] at h
  split at h
  · cases h
  · exact lineDecode_length h
/-- Decryption gives as many bytes as its region has. -/
theorem decrypt_length {seed : Cell 32} {fr : Memory} {d : Cell 16} {off len : Nat} {r : List Byte × BitVec 32} (h : decrypt seed fr d off len = .ok r) : r.1.length = len := by
  obtain ⟨d, s, ct, -, -, -, -, -, -, h⟩ := decrypt_ok.1 h
  obtain ⟨ps, t⟩ := r
  exact (decryptFrom_ok.1 h).1

theorem frameBe32_not_status {m : Memory} {a : Nat} {e : Err} : frameBe32 m a ≠ .error (.status e) := by
  intro h
  simp only [frameBe32, frameByte] at h
  rcases bind_error.1 h with h | ⟨_, -, h⟩
  · exact need_not_status h
  · rcases bind_error.1 h with h | ⟨_, -, h⟩
    · exact need_not_status h
    · rcases bind_error.1 h with h | ⟨_, -, h⟩
      · exact need_not_status h
      · rcases bind_error.1 h with h | ⟨_, -, h⟩
        · exact need_not_status h
        · cases h

/-- DKEY's status (60_exceptions.md R256). -/
theorem deriveKey_status {key : Cell 64} {m : Memory} {d : Cell 16} {e : Err}
    (h : deriveKey key m d = .error (.status e)) : e = .short := by
  simp only [deriveKey, dlenNat] at h
  cases d <;> simp [need, bind, Except.bind] at h
  split at h
  · simpa using h.symm
  · rcases bind_error.1 h with h | ⟨_, -, h⟩
    · exact absurd h need_not_status
    · rcases bind_error.1 h with h | ⟨_, -, h⟩
      · exact absurd h frameBe32_not_status
      · rcases bind_error.1 h with h | ⟨_, -, h⟩
        · exact absurd h frameBe32_not_status
        · rcases bind_error.1 h with h | ⟨_, -, h⟩
          · exact absurd h frameBe32_not_status
          · cases h

theorem decryptFrom_not_status {m : Memory} {s : BitVec 32} {a n : Nat} {e : Err} :
    decryptFrom m s a n ≠ .error (.status e) := by
  induction n generalizing s a with
  | zero => simp [decryptFrom]
  | succ n ih =>
    intro h
    simp only [decryptFrom] at h
    rcases bind_error.1 h with h | ⟨_, -, h⟩
    · exact need_not_status h
    · rcases bind_error.1 h with h | ⟨_, -, h⟩
      · exact ih h
      · cases h

/-- DCRY's statuses (60_exceptions.md R256). -/
theorem decrypt_status {seed : Cell 32} {m : Memory} {d : Cell 16} {off len : Nat} {e : Err}
    (h : decrypt seed m d off len = .error (.status e)) : e = .bounds ∨ e = .magic := by
  simp only [decrypt, dlenNat] at h
  cases d <;> simp [need, bind, Except.bind] at h
  split at h
  · left; simpa using h.symm
  · right
    split at h
    · simpa using h.symm
    · rcases bind_error.1 h with h | ⟨_, -, h⟩
      · exact absurd h need_not_status
      · rcases bind_error.1 h with h | ⟨_, -, h⟩
        · exact absurd h need_not_status
        · split at h
          · exact absurd h decryptFrom_not_status
          · simpa using h.symm

/-- PRDG's statuses (60_exceptions.md R256). -/
theorem parseReading_status {c : Config} {i : Cell 88} {q : RssiCell} {m : Memory} {d : Cell 16} {off len : Nat}
    {e : Err} (h : parseReading c i q m d off len = .error (.status e)) :
    e = .bounds ∨ e = .rdgShort ∨ e = .magic := by
  simp only [parseReading, dlenNat, frameRead] at h
  cases d <;> simp [need, bind, Except.bind] at h
  split at h
  · left; simpa using h.symm
  · right
    split at h
    · left; simpa using h.symm
    · right
      rcases bind_error.1 h with h | ⟨_, -, h⟩
      · exact absurd h memRead_not_status
      · rcases bind_error.1 h with h | ⟨_, -, h⟩
        · exact absurd h memRead_not_status
        · split at h
          · rcases bind_error.1 h with h | ⟨_, -, h⟩
            · exact absurd h need_not_status
            · rcases bind_error.1 h with h | ⟨_, -, h⟩
              · exact absurd h need_not_status
              · cases h
          · simpa using h.symm

theorem symbol_not_status {m : Memory} {k : Nat} {e : Err} : symbol m k ≠ .error (.status e) := by
  intro h
  simp only [symbol] at h
  rcases bind_error.1 h with h | ⟨_, -, h⟩
  · exact need_not_status h
  · rcases bind_error.1 h with h | ⟨_, -, h⟩
    · exact need_not_status h
    · cases h

/-- The line decoder's status (60_exceptions.md R256). -/
theorem decodeSymbols_status {c : Config} {m : Memory} {k g : Nat} {e : Err}
    (h : decodeSymbols c m k g = .error (.status e)) : e = .codeword := by
  induction g generalizing k with
  | zero => simp [decodeSymbols] at h
  | succ g ih =>
    simp only [decodeSymbols] at h
    rcases bind_error.1 h with h | ⟨sym, -, h⟩
    · exact absurd h symbol_not_status
    · split at h
      · simpa using h.symm
      · rcases bind_error.1 h with h | ⟨_, -, h⟩
        · exact ih h
        · cases h

theorem lineDecode_status {c : Config} {m : Memory} {n : Nat} {e : Err}
    (h : lineDecode c m n = .error (.status e)) : e = .codeword := by
  simp only [lineDecode] at h
  rcases bind_error.1 h with h | ⟨_, -, h⟩
  · exact decodeSymbols_status h
  · cases h

/-- DBUF's statuses (60_exceptions.md R256). -/
theorem dbufBytes_status {s : State} {n : Nat} {e : Err} (h : dbufBytes s n = .error (.status e)) :
    e = .bounds ∨ e = .codeword := by
  simp only [dbufBytes] at h
  split at h
  · left; simpa using h.symm
  · exact .inr (lineDecode_status h)

/-- PFRM raises no status that says OK (60_exceptions.md R256). -/
theorem frameStage_status {s : State} {e : Err} (h : frameStage s = .error (.status e)) : e ≠ .ok := by
  rintro rfl
  simp only [frameStage, firstPass] at h
  rcases bind_error.1 h with h | ⟨l, -, h⟩
  · split at h
    · cases h
    · rcases bind_error.1 h with h | ⟨_, -, h⟩
      · cases lineDecode_status h
      · cases h
  · split at h
    · cases h
    · rcases bind_error.1 h with h | ⟨_, -, h⟩
      · rcases dbufBytes_status h with h | h <;> cases h
      · rcases bind_error.1 h with h | ⟨_, -, h⟩
        · rcases parseHeader_status h with h | h <;> cases h
        · rcases bind_error.1 h with h | ⟨_, -, h⟩
          · rcases splitTransport_status h with h | h <;> cases h
          · rcases bind_error.1 h with h | ⟨_, -, h⟩
            · exact need_not_status h
            · cases h

/-- PPAY raises no status that says OK (60_exceptions.md R256). -/
theorem payloadStage_status {s : State} {off len : Nat} {e : Err}
    (h : payloadStage s off len = .error (.status e)) : e ≠ .ok := by
  rintro rfl
  simp only [payloadStage] at h
  rcases bind_error.1 h with h | ⟨_, -, h⟩
  · cases deriveKey_status h
  · split at h
    · cases h
    · rcases bind_error.1 h with h | ⟨_, -, h⟩
      · rcases decrypt_status h with h | h <;> cases h
      · rcases bind_error.1 h with h | ⟨_, -, h⟩
        · rcases parseReading_status h with h | h | h <;> cases h
        · cases h

end Sys2Proof.Machine
end

