-- ==== Sys2Proof/Laws/Step.lean ====
section
/-! SUPPORT. What one step can do, said once: idle, or one action of the Host, the Radio or the platform. -/

namespace Sys2Proof.Machine

/-- A step idles with no action left, or performs the first action of the schedule. -/
theorem step_cases {s t : State} (h : step s = .next t) :
    (s.schedule = [] ∧ t = s) ∨ ∃ a rest, s.schedule = a :: rest ∧ perform a { s with schedule := rest } = .next t := by
  simp only [step, runNext] at h
  split at h
  · cases h; exact .inl ⟨‹_›, rfl⟩
  · exact .inr ⟨_, _, ‹_›, h⟩

/-- What an action can do when it answers a next state (45_pipeline.md R230 to R243, 70_reset_and_hazards.md R280). -/
theorem perform_next {a : Action} {s t : State} (h : perform a s = .next t) :
    (∃ num v r, a = .writeReg num v ∧ Reg.ofNumber num = some r ∧ writeRegister s a r v = .next t) ∨
    (∃ num r, a = .readReg num ∧ Reg.ofNumber num = some r ∧ t = readRegister s r) ∨
    (∃ b start bs, a = .writeBuf b start bs ∧ accessAllowed s.build b start bs.length = true ∧ t = writeBuffer s b start bs) ∨
    (∃ b start n, a = .readBuf b start n ∧ accessAllowed s.build b start n = true ∧ t = readBuffer s b start n) ∨
    (a = .consumeEvent ∧ t = consumeHead s) ∨
    (∃ bs q, a = .deliver bs q ∧ bs.length ≤ s.build.rawMax ∧ rssiFits s.build q = true ∧ t = deliverPacket s bs q) ∨
    (a = .reset ∧ t = resetBlock s) := by
  cases a with
  | writeReg num v =>
    simp only [perform] at h
    split at h
    · exact .inl ⟨_, _, _, rfl, ‹_›, h⟩
    · cases h
  | readReg num =>
    simp only [perform] at h
    split at h
    · cases h; exact .inr (.inl ⟨_, _, rfl, ‹_›, rfl⟩)
    · cases h
  | writeBuf b st bs =>
    simp only [perform] at h
    split at h
    · cases h; exact .inr (.inr (.inl ⟨_, _, _, rfl, ‹_›, rfl⟩))
    · cases h
  | readBuf b st bs =>
    simp only [perform] at h
    split at h
    · cases h; exact .inr (.inr (.inr (.inl ⟨_, _, _, rfl, ‹_›, rfl⟩)))
    · cases h
  | consumeEvent => cases h; exact .inr (.inr (.inr (.inr (.inl ⟨rfl, rfl⟩))))
  | deliver bs q =>
    simp only [perform] at h
    split at h
    · rename_i hc
      simp at hc
      cases h; exact .inr (.inr (.inr (.inr (.inr (.inl ⟨_, _, rfl, hc.1, hc.2, rfl⟩)))))
    · cases h
  | reset => cases h; exact .inr (.inr (.inr (.inr (.inr (.inr ⟨rfl, rfl⟩)))))

/-- What a Host write of a register can do when it answers a next state (45_pipeline.md R241). -/
theorem writeRegister_next {a : Action} {r : Reg} {v : Nat} {s t : State} (h : writeRegister s a r v = .next t) :
    (r = .cmd ∧ ((∃ i, decode (BitVec.ofNat 8 v) = .ok i ∧ exec i { s with cmd := BitVec.ofNat 8 v } = .next t) ∨
        (∃ e, decode (BitVec.ofNat 8 v) = .error e ∧ t = { s with cmd := BitVec.ofNat 8 v, err := .illegal }))) ∨
    (r = .opa ∧ t = { s with opa := some (BitVec.ofNat 16 v) }) ∨
    (r = .opb ∧ t = { s with opb := some (BitVec.ofNat 16 v) }) ∨
    (r = .opc ∧ t = { s with opc := some (BitVec.ofNat 16 v) }) ∨
    (r = .rawLen ∧ v ≤ s.build.rawMax ∧ t = { s with rawLen := BitVec.ofNat 16 v }) ∨
    (r = .dlen ∧ v ≤ s.build.frameMax ∧ t = { s with dlen := some (BitVec.ofNat 16 v), fok := false }) ∨
    (r = .key ∧ t = { s with key := some (BitVec.ofNat 64 v) }) ∨
    (r = .seed ∧ t = { s with seed := some (BitVec.ofNat 32 v) }) ∨
    (r = .rssi ∧ t = { s with rssi := some (v % 2 ^ s.build.rssiW) }) ∨ t = s := by
  cases r <;> simp only [writeRegister] at h
  case cmd =>
    left; refine ⟨rfl, ?_⟩
    simp only [writeCmd] at h
    split at h
    · exact .inl ⟨_, ‹_›, h⟩
    · cases h; exact .inr ⟨_, ‹_›, rfl⟩
  case rawLen => split at h <;> cases h; simp_all
  case dlen => split at h <;> cases h; simp_all [clearFok]
  all_goals (cases h; simp)

end Sys2Proof.Machine
end

