-- ==== Sys2Proof/Tests/Slice0.lean ====
section
/-! SUPPORT. Tests: ill-formed terms, command words written out, vectors of 95_test_vectors.md, and for every
obligation with hypotheses a state and operands that meet them. -/

namespace Sys2Proof.Tests

open Sys2Proof.Machine

set_option Elab.async false

/-- The outcome is a next state with the property. -/
def holdsNext (o : Host.Outcome State Fault Refusal) (p : State → Bool) : Bool :=
  match o with
  | .next t => p t
  | .fault _ => false
  | .refused _ => false

theorem exists_of_holdsNext {o : Host.Outcome State Fault Refusal} {p : State → Bool} (h : holdsNext o p = true) :
    ∃ t, o = .next t ∧ p t = true := by
  cases o with
  | next t => exact ⟨t, rfl, h⟩
  | fault f => exact nomatch h
  | refused r => exact nomatch h

/-- A buffer holding the bytes from index 0 on. -/
def load (bs : List Byte) : Memory := Memory.writeBytes [] 0 bs

/-- The fixture E1 of 95_test_vectors.md: the raw packet. -/
def e1Raw : List Byte :=
  [0x36, 0x57, 0x1C, 0x2D, 0x67, 0x34, 0x4C, 0xE3, 0x9C, 0x39, 0xC3, 0x8D, 0xC5, 0xC5, 0x8D,
   0x96, 0x6D, 0x1C, 0x9A, 0x53, 0x74, 0xB0, 0xD9, 0x71, 0x8D, 0x99, 0x4B, 0x4C, 0xE2, 0xE6,
   0xA5, 0x9A, 0x74, 0x72, 0x36, 0x74, 0x8E, 0x36, 0x8B, 0x99, 0x6A, 0x71, 0x64, 0xD2, 0xF1]

/-- E1: the decoded frame. -/
def e1Frame : List Byte :=
  [0x19, 0x44, 0x30, 0x4C, 0x72, 0x24, 0x24, 0x21, 0xD4, 0x01, 0x9A, 0xC4,
   0xA9, 0x1C, 0x81, 0x9D, 0xB5, 0x93, 0x72, 0x3A, 0xF5, 0xFC, 0x4B, 0x5C, 0xBB, 0x63, 0xA0, 0xFD, 0x51, 0x3D]

/-- E1: the decrypted payload. -/
def e1Plain : List Byte :=
  [0x4B, 0x23, 0x18, 0x00, 0x13, 0x00, 0x39, 0x30, 0x00, 0x00, 0xE0, 0x2E, 0x00, 0x00, 0x2F, 0x86]

/-- E1: the key. -/
def e1Key : BitVec 64 := 0x0123456789ABCDEF

/-- E1: ID_STR, "C19UA145842". -/
def e1Id : BitVec 88 := 0x4331395541313435383432

/-- After reset, with bytes in RAW, OPB their number. -/
def rawState (bs : List Byte) : State :=
  { State.reset with raw := load bs, rawLen := BitVec.ofNat 16 bs.length, opb := some (BitVec.ofNat 16 bs.length) }

/-- After reset, with bytes in FRAME, DLEN their number, and the region operands. -/
def frameState (bs : List Byte) (off len : BitVec 16) : State :=
  { State.reset with
    frame := load bs, dlen := some (BitVec.ofNat 16 bs.length), opa := some off, opb := some len }

/-- E1 received: RAW, RAW_LEN, RSSI (-70) and KEY. -/
def e1Received : State := { rawState e1Raw with rssi := some 0xFFBA, key := some e1Key }

/-- E1 accepted, as PFRM leaves it. -/
def e1Accepted : State :=
  { frameState e1Frame 12 16 with
    rssi := some 0xFFBA
    key := some e1Key
    hdr := headerRegsOf (headerOf State.reset.build (e1Frame.take 10) 0x9AC4)
    tpOff := some 12
    tpLen := some 16
    fok := true }

/-- The decrypted payload of E1 at the head of FRAME, with the passthrough values. -/
def e1Payload : State :=
  { frameState e1Plain 0 16 with rssi := some 0xFFBA, hdr := e1Accepted.hdr }

/-- Two ciphertext bytes that decrypt to 4B 4B under the seed of E1 (keystream E2 3F). -/
def twoBytes : State := { frameState [0xA9, 0x74] 0 2 with seed := some 0x35F9AF30 }

/-- A full mailbox holding a packet. -/
def delivered (bs : List Byte) : State :=
  { State.reset with
    key := some e1Key, mbox := load bs, mboxLen := some (BitVec.ofNat 16 bs.length), mboxRssi := some 0xFFBA,
    pend := true }

/-! ## Ill-formed terms are refused -/

theorem test_every_command_is_well_formed : ∀ i : Instr, i.wf = true := by intro i; cases i <;> rfl

theorem test_reserved_opcode_is_ill_formed : wordWf 0x0E = false ∧ wordWf 0x00 = false ∧ wordWf 0x0D = true := by
  decide

theorem test_reserved_bits_are_ill_formed : wordWf 0x10 = false ∧ wordWf 0x81 = false := by decide

theorem test_default_config_is_well_formed : defaultConfig.wf = true := by decide +kernel

/-- 00_scope.md R8: RAW_MAX lies in 2..65535. -/
theorem test_raw_max_bounds :
    { defaultConfig with rawMax := 1 }.rawMaxWf = false ∧ { defaultConfig with rawMax := 65536 }.rawMaxWf = false ∧
      { defaultConfig with rawMax := 2 }.rawMaxWf = true := by decide

/-- 00_scope.md R8: 390 raw bytes decode to 260, so FRAME_MAX = 259 is too small. -/
theorem test_frame_max_bound : { defaultConfig with frameMax := 259 }.frameMaxWf = false := by decide

theorem test_rssi_width_bound : { defaultConfig with rssiW := 0 }.rssiWWf = false := by decide

/-- 40_line_codec.md R101: a repeated codeword, one of weight 2, and a wrong row of the source. -/
theorem test_sixbit_table_checks :
    { defaultConfig with sixbitTable := defaultSixbitTable.set 2 0x0B }.sixbitWf = false ∧
      { defaultConfig with sixbitTable := defaultSixbitTable.set 2 0x03 }.sixbitWf = false ∧
      { defaultConfig with sixbitTable := defaultSixbitTable.set 0 0x07 }.sixbitWf = false := by decide +kernel

/-- 44_reading_parser.md R195: an alarm inside the interval field, inside the battery field, on the random generator,
and repeated. -/
theorem test_alarm_map_checks :
    { defaultConfig with alarmMap := { defaultAlarmMap with alarms := defaultAlarmMap.alarms.set 0 3 } }.alarmWf = false ∧
      { defaultConfig with alarmMap := { defaultAlarmMap with alarms := defaultAlarmMap.alarms.set 0 12 } }.alarmWf = false ∧
      { defaultConfig with alarmMap := { defaultAlarmMap with alarms := defaultAlarmMap.alarms.set 0 6 } }.alarmWf = false ∧
      { defaultConfig with alarmMap := { defaultAlarmMap with alarms := defaultAlarmMap.alarms.set 0 23 } }.alarmWf = false := by
  decide +kernel

/-! ## Command words, written out from 30_encoding.md R80, R83 -/

theorem test_decode_dnib : decodeBytes [0b00000001#8] = .ok (.dnib, []) := by rfl
theorem test_decode_dbuf : decodeBytes [0b00000010#8] = .ok (.dbuf, []) := by rfl
theorem test_decode_crc : decodeBytes [0b00000011#8] = .ok (.crc, []) := by rfl
theorem test_decode_crcv : decodeBytes [0b00000100#8] = .ok (.crcv, []) := by rfl
theorem test_decode_phdr : decodeBytes [0b00000101#8] = .ok (.phdr, []) := by rfl
theorem test_decode_stpl : decodeBytes [0b00000110#8] = .ok (.stpl, []) := by rfl
theorem test_decode_dkey : decodeBytes [0b00000111#8] = .ok (.dkey, []) := by rfl
theorem test_decode_dcry : decodeBytes [0b00001000#8] = .ok (.dcry, []) := by rfl
theorem test_decode_prdg : decodeBytes [0b00001001#8] = .ok (.prdg, []) := by rfl
theorem test_decode_take : decodeBytes [0b00001010#8] = .ok (.take, []) := by rfl
theorem test_decode_pfrm : decodeBytes [0b00001011#8] = .ok (.pfrm, []) := by rfl
theorem test_decode_ppay : decodeBytes [0b00001100#8] = .ok (.ppay, []) := by rfl
theorem test_decode_ppkt : decodeBytes [0b00001101#8] = .ok (.ppkt, []) := by rfl

/-- 30_encoding.md R81: the reserved opcodes, set RSV bits, and no byte at all, each under its own name. -/
theorem test_decode_refusals :
    decodeBytes [0b00000000#8] = .error (.reservedOpcode 0x00) ∧
      decodeBytes [0b00001110#8] = .error (.reservedOpcode 0x0E) ∧
      decodeBytes [0b00001111#8] = .error (.reservedOpcode 0x0F) ∧
      decodeBytes [0b00010001#8] = .error (.reservedBits 0x11) ∧
      decodeBytes [0b10000001#8] = .error (.reservedBits 0x81) ∧ decodeBytes [] = .error .noWord :=
  ⟨rfl, rfl, rfl, rfl, rfl, rfl⟩

theorem test_table_word_decodes : decodeTableWord 8 0x0D = some .ppkt ∧ decodeTableWord 8 0xFF = none := by decide

/-- The first step after reset runs the placed command: DKEY of an empty FRAME raises E_SHORT. -/
theorem test_first_step_runs_the_placed_word :
    step (State.reset.withFetchWord 8 0x07) = .next { State.reset with cmd := 7, err := .short, seed := none } := by
  rfl

/-! ## Vectors of 95_test_vectors.md -/

/-- V-LC2c, V-LC2d: OPA = 0x0056 gives 0x0, bit 6 ignored; OPA = 0x0029 gives 0xF. -/
theorem test_vlc2_dnib :
    holdsNext (exec .dnib { State.reset with opa := some 0x0056 }) (fun t => t.nib = some 0x0 && t.err = .ok) = true ∧
      holdsNext (exec .dnib { State.reset with opa := some 0x0029 }) (fun t => t.nib = some 0xF && t.err = .ok) = true := by
  decide +kernel

/-- V-LC2: 0x38 has weight 3 and is no codeword. -/
theorem test_vlc2_no_codeword :
    holdsNext (exec .dnib { State.reset with opa := some 0x0038, nib := some 5 })
      (fun t => t.nib = none && t.err = .codeword) = true := by decide +kernel

/-- V-LC3: five nibbles, so the last low nibble is 0. -/
theorem test_vlc3_dbuf :
    holdsNext (exec .dbuf (rawState [0x99, 0x95, 0xA9, 0x2C]))
      (fun t => t.frame = [(0, 0xA5), (1, 0x0F), (2, 0x30)] && t.dlen = some 3 && t.err = .ok) = true := by
  decide +kernel

/-- V-LC9: the fourth symbol is 000000. -/
theorem test_vlc9_dbuf :
    holdsNext (exec .dbuf { rawState [0x59, 0x65, 0x80] with frame := load [1, 2, 3], fok := true })
      (fun t => t.frame = [(2, 3)] && t.dlen = none && !t.fok && t.err = .codeword) = true := by decide +kernel

/-- V-CRC1: "123456789" gives 0xC2B7. -/
theorem test_vcrc1 :
    holdsNext (exec .crc (frameState [0x31, 0x32, 0x33, 0x34, 0x35, 0x36, 0x37, 0x38, 0x39] 0 9))
      (fun t => t.crcOut = some 0xC2B7 && t.err = .ok) = true := by decide +kernel

/-- V-CRC12, V-CRC13: the region may end at DLEN, not past it. -/
theorem test_vcrc12_13 :
    holdsNext (exec .crc (frameState e1Frame 25 6)) (fun t => t.crcOut = none && t.err = .bounds) = true ∧
      holdsNext (exec .crc (frameState e1Frame 30 0)) (fun t => t.crcOut = some 0xFFFF && t.err = .ok) = true := by
  decide +kernel

/-- V-CRC9. -/
theorem test_vcrc9 :
    holdsNext (exec .crcv { frameState e1Frame 0 10 with opc := some 0x9AC4 })
      (fun t => t.crcOut = some 0x9AC4 && t.err = .ok) = true := by decide +kernel

/-- V-CRC10: E_CRC keeps the recomputed checksum. -/
theorem test_vcrc10 :
    holdsNext (exec .crcv { frameState e1Frame 0 10 with opc := some 0x9AC5 })
      (fun t => t.crcOut = some 0x9AC4 && t.err = .crc) = true := by decide +kernel

/-- V-FP1: the header values of E1. -/
theorem test_vfp1_phdr :
    holdsNext (exec .phdr (frameState e1Frame 0 0))
      (fun t => t.err = .ok && t.hdr =
        { l := some 0x19, c := some 0x44, m := some 0x304C, mfr := some 0x4C424C, addr := some 0x72242421D401,
          ver := some 0xD4, devType := some 0x01, crc := some 0x9AC4, id26 := some 0x01242472, idYy := some 19,
          idSerial := some 145842, idLet := some 0x0EA1, idStr := some e1Id }) = true := by decide +kernel

/-- V-FP2: MFR_ORDER = LE gives 0x4C30 and "SAP". -/
theorem test_vfp2_phdr :
    holdsNext (exec .phdr { frameState e1Frame 0 0 with build := { defaultConfig with mfrOrder := .le } })
      (fun t => t.hdr.m = some 0x4C30 && t.hdr.mfr = some 0x534150 && t.hdr.id26 = some 0x01242472) = true := by
  decide +kernel

/-- E1: STPL splits 16 payload bytes at 12. -/
theorem test_stpl_e1 :
    holdsNext (exec .stpl (frameState e1Frame 0 0))
      (fun t => t.tpOff = some 12 && t.tpLen = some 16 && t.err = .ok) = true := by decide +kernel

/-- E1 without its last byte: the transport CRC no longer matches. -/
theorem test_stpl_truncated :
    holdsNext (exec .stpl { frameState (e1Frame.take 29) 0 0 with fok := true })
      (fun t => t.tpOff = none && t.tpLen = none && !t.fok && t.err = .tplCrc) = true := by decide +kernel

/-- E1: the seed. -/
theorem test_dkey_e1 :
    holdsNext (exec .dkey { frameState e1Frame 0 0 with key := some e1Key })
      (fun t => t.seed = some 0x35F9AF30 && t.err = .ok) = true := by decide +kernel

/-- Program P3, line 13: the seed derived again from the decrypted frame. -/
theorem test_dkey_after_decryption :
    holdsNext (exec .dkey { frameState (e1Frame.take 12 ++ e1Plain) 0 0 with key := some e1Key })
      (fun t => t.seed = some 0xD7C636AD) = true := by decide +kernel

/-- E1: the payload decrypted in place, and the LFSR after it. -/
theorem test_dcry_e1 :
    holdsNext (exec .dcry { frameState e1Frame 12 16 with seed := some 0x35F9AF30 })
      (fun t => t.frame = load (e1Frame.take 12 ++ e1Plain ++ [0x51, 0x3D]) && t.lfsr = some 0xBB638F7B &&
        t.err = .ok) = true := by decide +kernel

/-- Program P3, line 14: the wrong seed fails at byte 0, and the region is poisoned. -/
theorem test_dcry_wrong_seed :
    holdsNext (exec .dcry { frameState (e1Frame.take 12 ++ e1Plain ++ [0x51, 0x3D]) 12 16 with seed := some 0xD7C636AD })
      (fun t => t.frame.map Prod.fst = [0, 1, 2, 3, 4, 5, 6, 7, 8, 9, 10, 11, 28, 29] && t.lfsr = none &&
        t.err = .magic) = true := by decide +kernel

/-- E1: the reading. -/
theorem test_prdg_e1 :
    holdsNext (exec .prdg e1Payload)
      (fun t => t.err = .ok && t.rd =
        { cur := some 12345, chk := some 12000, exp := some 0xD, unit := some 1, unitsRaw := some 0x13,
          day := some 15, month := some 6, year := some 2024, batt := some 24, interval := some 32,
          randGen := some 1, alarms := some 0, rssi := some 0xFFBA, id := some e1Id }) = true := by decide +kernel

/-- S9 and E1 under YEAR_ORDER = TYPE_G: y7 = 65, so 2065. -/
theorem test_prdg_type_g :
    holdsNext (exec .prdg { e1Payload with build := { defaultConfig with yearOrder := .typeG } })
      (fun t => t.rd.year = some 2065) = true := by decide +kernel

/-- 45_pipeline.md R220: the packet moves to RAW. -/
theorem test_take :
    holdsNext (exec .take { delivered [0x36, 0x57] with fok := true })
      (fun t => t.raw = [(0, 0x36), (1, 0x57)] && t.rawLen = 2 && t.rssi = some 0xFFBA && !t.pend && !t.fok &&
        t.err = .ok) = true := by decide +kernel

/-- Program P4, line 4: TAKE of an empty mailbox. -/
theorem test_take_empty : holdsNext (exec .take State.reset) (fun t => t = { State.reset with err := .noPkt }) = true := by
  decide +kernel

/-- Program P2, line 5: PFRM accepts E1 and STATUS reads 0x20. -/
theorem test_pfrm_e1 :
    holdsNext (exec .pfrm e1Received)
      (fun t => statusByte t = 0x20 && t.frame = load e1Frame && t.dlen = some 30 && t.tpOff = some 12 &&
        t.tpLen = some 16 && t.evlog = [.pkt e1Id e1Frame 12 16 0xFFBA]) = true := by decide +kernel

/-- Program P4, line 8: one raw byte missing. -/
theorem test_pfrm_length :
    holdsNext (exec .pfrm { e1Received with rawLen := 44, frame := load [1, 2] })
      (fun t => t.frame = [] && t.dlen = none && t.evlog = [] && t.err = .length) = true := by decide +kernel

/-- Program P2, line 7: PPAY of the accepted frame. -/
theorem test_ppay_e1 :
    holdsNext (exec .ppay e1Accepted)
      (fun t => t.seed = some 0x35F9AF30 && t.lfsr = some 0xBB638F7B && t.rd.cur = some 12345 &&
        t.rd.id = some e1Id && t.evlog.length = 1 && !t.fok && t.err = .ok) = true := by decide +kernel

/-- Program P4, line 1: PPAY with FOK = 0. -/
theorem test_ppay_seq : holdsNext (exec .ppay State.reset) (fun t => t = { State.reset with err := .seq }) = true := by
  decide +kernel

/-- V-PL9, S10: the whole chain. -/
theorem test_ppkt_e1 :
    holdsNext (exec .ppkt e1Received)
      (fun t => t.rd.year = some 2024 && t.rd.alarms = some 0 && t.evlog.length = 2 && statusByte t = 0x00) = true := by
  decide +kernel

/-- V-PL10, program P4, line 18: the wrong key fails at the magic byte; PKT_EVENT alone. -/
theorem test_ppkt_wrong_key :
    holdsNext (exec .ppkt { e1Received with key := some 0x0123456789ABCDEE })
      (fun t => t.seed = none && t.lfsr = none && t.evlog.length = 1 && statusByte t = 0x0A) = true := by
  decide +kernel

/-! ## Every hypothesis is met: witnesses for the obligations, a boundary value for each clause -/

theorem test_witness_decode_inverts_encode : Instr.ppkt.wf = true := by decide

theorem test_witness_reserved_words : Spec.reservedWord 0x0E ∧ Spec.reservedWord 0x10 ∧ ¬ Spec.reservedWord 0x0D := by
  decide

/-- DKEY issued by the Host; the value is cut to 8 bits. -/
theorem test_witness_step_runs_the_command :
    ({ State.reset with schedule := [.writeReg 0x00#8 0x107] } : State).schedule = .writeReg 0x00#8 0x107 :: [] ∧
      decode (BitVec.ofNat 8 0x107) = .ok .dkey := ⟨rfl, rfl⟩

theorem test_witness_illegal_word :
    ({ State.reset with schedule := [.writeReg 0x00#8 0x0F] } : State).schedule = .writeReg 0x00#8 0x0F :: [] ∧
      Spec.reservedWord (BitVec.ofNat 8 0x0F) := ⟨rfl, by decide⟩

theorem test_witness_undefined_operands :
    State.reset.opa = none ∧ State.reset.opb = none ∧
      ({ State.reset with opa := some 0 } : State).opa = some 0#16 ∧
      ({ State.reset with opa := some 0 } : State).opb = none := ⟨rfl, rfl, rfl, rfl⟩

/-- CRCV on a region that ends at DLEN, OPC never written. -/
theorem test_witness_undefined_opc :
    (frameState e1Frame 25 5).opa = some 25#16 ∧ (frameState e1Frame 25 5).opb = some 5#16 ∧
      (frameState e1Frame 25 5).opc = none ∧ (frameState e1Frame 25 5).dlen = some 30#16 ∧
      (25#16).toNat + (5#16).toNat ≤ (30#16).toNat ∧ (e1Frame.drop 25).length = (5#16).toNat ∧
      Memory.holds (frameState e1Frame 25 5).frame (25#16).toNat (e1Frame.drop 25) := by decide +kernel

/-- Bit 6 of OPA is ignored; 0x3F is no codeword. -/
theorem test_witness_dnib :
    State.reset.build.sixbitWf = true ∧ Spec.codeword State.reset.build 0x0 = (0x0056#16).extractLsb' 0 6 ∧
      ∀ nb : BitVec 4, Spec.codeword State.reset.build nb ≠ (0x003F#16).extractLsb' 0 6 := by decide +kernel

theorem test_witness_inverse_map :
    State.reset.build.sixbitTable =
      #v[0x16, 0x0D, 0x0E, 0x0B, 0x1C, 0x19, 0x1A, 0x13, 0x2C, 0x25, 0x26, 0x23, 0x34, 0x31, 0x32, 0x29] := by decide

/-- V-LC3 (an odd nibble count) and V-LC8 (no byte at all). -/
theorem test_witness_dbuf_packs :
    (rawState [0x99, 0x95, 0xA9, 0x2C]).build.sixbitWf = true ∧
    (rawState [0x99, 0x95, 0xA9, 0x2C]).opb = some 4#16 ∧
    (4#16).toNat ≤ (rawState [0x99, 0x95, 0xA9, 0x2C]).rawLen.toNat ∧
    [0x99#8, 0x95, 0xA9, 0x2C].length = (4#16).toNat ∧
    Memory.holds (rawState [0x99, 0x95, 0xA9, 0x2C]).raw 0 [0x99, 0x95, 0xA9, 0x2C] ∧
    ([0xA, 0x5, 0x0, 0xF, 0x3] : List (BitVec 4)).length = 8 * (4#16).toNat / 6 ∧
    (∀ k, k < 5 → Spec.spells [0x99, 0x95, 0xA9, 0x2C] k
      (Spec.codeword State.reset.build (([0xA, 0x5, 0x0, 0xF, 0x3] : List (BitVec 4)).getD k 0))) ∧
    (rawState []).opb = some 0#16 ∧ (0#16).toNat ≤ (rawState []).rawLen.toNat ∧
    ([] : List Byte).length = (0#16).toNat ∧ Memory.holds (rawState []).raw 0 [] ∧
    ([] : List (BitVec 4)).length = 8 * (0#16).toNat / 6 := by decide +kernel

/-- V-LC12, and V-LC9: the bad symbol is the last one, and its bits end the bytes. -/
theorem test_witness_dbuf_failures :
    (({ rawState [0x59, 0x65, 0x80] with rawLen := 2 } : State).opb = some 3#16 ∧
      ({ rawState [0x59, 0x65, 0x80] with rawLen := 2 } : State).rawLen.toNat < (3#16).toNat) ∧
    ((rawState [0x59, 0x65, 0x80]).opb = some 3#16 ∧
      (3#16).toNat ≤ (rawState [0x59, 0x65, 0x80]).rawLen.toNat ∧
      Memory.holds (rawState [0x59, 0x65, 0x80]).raw 0 [0x59, 0x65, 0x80] ∧ 3 < 8 * (3#16).toNat / 6 ∧
      6 * 3 + 5 < 8 * 3 ∧ Spec.badSymbol State.reset.build [0x59, 0x65, 0x80] 3) := by decide +kernel

/-- V-LC3: the encoder writes the packed bytes of the spec. -/
theorem test_witness_dbuf_round_trip :
    Spec.encodeNibbles State.reset.build [0xA, 0x5, 0x0, 0xF, 0x3] = [0x99, 0x95, 0xA9, 0x2C] ∧
    (rawState [0x99, 0x95, 0xA9, 0x2C]).build.sixbitWf = true ∧
    ([0xA, 0x5, 0x0, 0xF, 0x3] : List (BitVec 4)).length % 4 ≠ 3 ∧
    (rawState [0x99, 0x95, 0xA9, 0x2C]).opb = some 4#16 ∧
    (4#16).toNat = (Spec.encodeNibbles State.reset.build [0xA, 0x5, 0x0, 0xF, 0x3]).length ∧
    (4#16).toNat ≤ (rawState [0x99, 0x95, 0xA9, 0x2C]).rawLen.toNat ∧
    Memory.holds (rawState [0x99, 0x95, 0xA9, 0x2C]).raw 0
      (Spec.encodeNibbles State.reset.build [0xA, 0x5, 0x0, 0xF, 0x3]) := by decide +kernel

/-- Three zero nibbles: symbols 16 16 16 and six bits of padding, the bytes of V-LC9. -/
theorem test_witness_six_padding_bits :
    Spec.encodeNibbles State.reset.build [0, 0, 0] = [0x59, 0x65, 0x80] ∧
    (rawState [0x59, 0x65, 0x80]).build.sixbitWf = true ∧
    ([0, 0, 0] : List (BitVec 4)).length % 4 = 3 ∧ (rawState [0x59, 0x65, 0x80]).opb = some 3#16 ∧
    (3#16).toNat = (Spec.encodeNibbles State.reset.build [0, 0, 0]).length ∧
    (3#16).toNat ≤ (rawState [0x59, 0x65, 0x80]).rawLen.toNat ∧
    Memory.holds (rawState [0x59, 0x65, 0x80]).raw 0 (Spec.encodeNibbles State.reset.build [0, 0, 0]) := by
  decide +kernel

/-- V-LC7: one symbol and two trailing bits; stream bits 5 and 6 are the last inside and the first outside. -/
theorem test_witness_single_flipped_bit :
    (rawState [0x36]).build.sixbitWf = true ∧ (rawState [0x36]).opb = some 1#16 ∧
      holdsNext (exec .dbuf (rawState [0x36])) (fun t => t.err = .ok && t.dlen = some 1 && t.frame = [(0, 0x10)]) = true ∧
      Memory.read (rawState [0x36]).raw (5 / 8) = some 0x36 ∧ Memory.read (rawState [0x36]).raw (6 / 8) = some 0x36 ∧
      6 < 8 * (1#16).toNat ∧ 5 < 6 * (8 * (1#16).toNat / 6) ∧ 6 * (8 * (1#16).toNat / 6) ≤ 6 := by decide +kernel

/-- A region that ends at DLEN, and one a byte past it (V-CRC12). -/
theorem test_witness_crc :
    (frameState e1Frame 25 5).opa = some 25#16 ∧ (frameState e1Frame 25 5).opb = some 5#16 ∧
    (frameState e1Frame 25 5).dlen = some 30#16 ∧ (25#16).toNat + (5#16).toNat ≤ (30#16).toNat ∧
    Memory.holds (frameState e1Frame 25 5).frame 25 (e1Frame.drop 25) ∧ (e1Frame.drop 25).length = (5#16).toNat ∧
    (frameState e1Frame 25 6).opa = some 25#16 ∧ (frameState e1Frame 25 6).opb = some 6#16 ∧
    (frameState e1Frame 25 6).dlen = some 30#16 ∧ (30#16).toNat < (25#16).toNat + (6#16).toNat := by decide +kernel

theorem test_witness_crcv :
    ({ frameState e1Frame 0 10 with opc := some 0x9AC4 } : State).opc = some 0x9AC4#16 ∧
    (frameState e1Frame 0 10).opa = some 0#16 ∧ (frameState e1Frame 0 10).opb = some 10#16 ∧
    (frameState e1Frame 0 10).dlen = some 30#16 ∧ (e1Frame.take 10).length = (10#16).toNat ∧
    (0#16).toNat + (10#16).toNat ≤ (30#16).toNat ∧ Memory.holds (frameState e1Frame 0 10).frame 0 (e1Frame.take 10) ∧
    ({ frameState e1Frame 0 31 with opc := some 0 } : State).opb = some 31#16 ∧
    (30#16).toNat < (0#16).toNat + (31#16).toNat := by decide +kernel

/-- The last bit of the last byte of a region that passes. -/
theorem test_witness_crc_bit_flip :
    holdsNext (exec .crcv { frameState e1Frame 0 10 with opc := some 0x9AC4 }) (fun t => t.err = .ok) = true ∧
      (frameState e1Frame 0 10).opa = some 0#16 ∧ (frameState e1Frame 0 10).opb = some 10#16 ∧ 9 < (10#16).toNat ∧
      Memory.read (frameState e1Frame 0 10).frame ((0#16).toNat + 9) = some 0x01 ∧
      9 < (e1Frame.take 10).length := by decide +kernel

/-- DLEN = 12, the least PHDR accepts (V-FP3e). -/
theorem test_witness_phdr :
    ({ frameState e1Frame 0 0 with dlen := some 12 } : State).dlen = some 12#16 ∧ 12 ≤ (12#16).toNat ∧
    (e1Frame.take 12).length = 12 ∧
      Memory.holds (frameState e1Frame 0 0).frame 0 (e1Frame.take 12) ∧
      crc16 ((e1Frame.take 12).take 10) = byteAt (e1Frame.take 12) 10 ++ byteAt (e1Frame.take 12) 11 ∧
      (frameState e1Frame 0 0).build.identMap = defaultIdentMap := by decide +kernel

/-- DLEN = 11 (V-FP3d), and a flipped bit of the stored CRC (V-FP3b). -/
theorem test_witness_phdr_failures :
    ({ frameState e1Frame 0 0 with dlen := some 11 } : State).dlen = some 11#16 ∧ (11#16).toNat < 12 ∧
      (frameState (e1Frame.set 10 0x9B) 0 0).dlen = some 30#16 ∧ 12 ≤ (30#16).toNat ∧
      ((e1Frame.take 12).set 10 0x9B).length = 12 ∧
      Memory.holds (frameState (e1Frame.set 10 0x9B) 0 0).frame 0 ((e1Frame.take 12).set 10 0x9B) ∧
      crc16 (((e1Frame.take 12).set 10 0x9B).take 10) ≠
        byteAt ((e1Frame.take 12).set 10 0x9B) 10 ++ byteAt ((e1Frame.take 12).set 10 0x9B) 11 := by decide +kernel

/-- V-FP5: an address of all ones gives the greatest values the registers hold. -/
theorem test_witness_identity_digits :
    holdsNext (exec .phdr (frameState [0x19, 0x44, 0, 0, 0xFF, 0xFF, 0xFF, 0xFF, 0xFF, 0xFF,
        (crc16 [0x19, 0x44, 0, 0, 0xFF, 0xFF, 0xFF, 0xFF, 0xFF, 0xFF]).extractLsb' 8 8,
        (crc16 [0x19, 0x44, 0, 0, 0xFF, 0xFF, 0xFF, 0xFF, 0xFF, 0xFF]).extractLsb' 0 8] 0 0))
      (fun t => t.err = .ok && t.hdr.idYy = some 67 && t.hdr.idSerial = some 108863 &&
        t.hdr.idStr = some 0x5F36375F5F313038383633) = true := by decide +kernel

/-- DLEN = 13, an empty payload with its CRC 0xFFFF, and E1 without its last byte. -/
theorem test_witness_stpl :
    ((frameState (e1Frame.take 13) 0 0).dlen = some 13#16 ∧ (13#16).toNat < 14) ∧
    ((frameState (e1Frame.take 12 ++ [0xFF, 0xFF]) 0 0).dlen = some 14#16 ∧ 14 ≤ (14#16).toNat ∧
      ([] : List Byte).length = (14#16).toNat - 14 ∧
      Memory.holds (frameState (e1Frame.take 12 ++ [0xFF, 0xFF]) 0 0).frame 12 [] ∧
      Memory.read (frameState (e1Frame.take 12 ++ [0xFF, 0xFF]) 0 0).frame ((14#16).toNat - 2) = some 0xFF ∧
      Memory.read (frameState (e1Frame.take 12 ++ [0xFF, 0xFF]) 0 0).frame ((14#16).toNat - 1) = some 0xFF ∧
      crc16 [] = 0xFF#8 ++ 0xFF#8) ∧
    ((frameState (e1Frame.take 29) 0 0).dlen = some 29#16 ∧ 14 ≤ (29#16).toNat ∧
      Memory.holds (frameState (e1Frame.take 29) 0 0).frame 12 ((e1Frame.drop 12).take 15) ∧
      ((e1Frame.drop 12).take 15).length = (29#16).toNat - 14 ∧
      Memory.read (frameState (e1Frame.take 29) 0 0).frame ((29#16).toNat - 2) = some 0xFD ∧
      Memory.read (frameState (e1Frame.take 29) 0 0).frame ((29#16).toNat - 1) = some 0x51 ∧
      crc16 ((e1Frame.drop 12).take 15) ≠ 0xFD#8 ++ 0x51#8) := by decide +kernel

/-- DLEN = 15 is too short; DLEN = 16 with KEY written. -/
theorem test_witness_dkey :
    (frameState (e1Frame.take 15) 0 0).dlen = some 15#16 ∧ (15#16).toNat < 16 ∧ 16 ≤ (16#16).toNat ∧
    ({ frameState (e1Frame.take 16) 0 0 with key := some e1Key } : State).dlen = some 16#16 ∧
      ({ frameState (e1Frame.take 16) 0 0 with key := some e1Key } : State).key = some e1Key ∧
      (e1Frame.take 16).length = 16 ∧ Memory.holds (frameState (e1Frame.take 16) 0 0).frame 0 (e1Frame.take 16) := by
  decide +kernel

/-- A region that ends at DLEN and decrypts to the magic byte. -/
theorem test_witness_dcry :
    twoBytes.opa = some 0#16 ∧ twoBytes.opb = some 2#16 ∧ twoBytes.dlen = some 2#16 ∧
      twoBytes.seed = some 0x35F9AF30#32 ∧ (0#16).toNat + (2#16).toNat ≤ (2#16).toNat ∧
      [0xA9#8, 0x74].length = (2#16).toNat ∧ Memory.holds twoBytes.frame (0#16).toNat [0xA9, 0x74] ∧
      0 < (2#16).toNat ∧ byteAt [0xA9, 0x74] 0 ^^^ Spec.ks 0x35F9AF30 0 = 0x4B#8 := by decide +kernel

/-- Past DLEN by one; an empty region (R181); a first byte that does not decrypt to the magic byte. -/
theorem test_witness_dcry_failures :
    ((frameState [0xA9, 0x74] 0 3).opa = some 0#16 ∧ (frameState [0xA9, 0x74] 0 3).opb = some 3#16 ∧
      (frameState [0xA9, 0x74] 0 3).dlen = some 2#16 ∧ (2#16).toNat < (0#16).toNat + (3#16).toNat) ∧
    ((frameState [0xA9, 0x74] 2 0).opa = some 2#16 ∧ (frameState [0xA9, 0x74] 2 0).opb = some 0#16 ∧
      (2#16).toNat + (0#16).toNat ≤ (2#16).toNat ∧ (0#16).toNat = 0) ∧
    ((frameState [0xA8, 0x74] 0 2).opa = some 0#16 ∧ (frameState [0xA8, 0x74] 0 2).opb = some 2#16 ∧
      (0#16).toNat + (2#16).toNat ≤ (2#16).toNat ∧ 0 < (2#16).toNat ∧
      ({ frameState [0xA8, 0x74] 0 2 with seed := some 0x35F9AF30 } : State).seed = some 0x35F9AF30#32 ∧
      Memory.read (frameState [0xA8, 0x74] 0 2).frame (0#16).toNat = some 0xA8 ∧
      0xA8#8 ^^^ Spec.ks 0x35F9AF30 0 ≠ 0x4B#8) := by decide +kernel

/-- A seed with ks_0 = 0 (43_cipher.md R184) on a plaintext region, and the seed of E1. -/
theorem test_witness_second_decryption :
    holdsNext (exec .dcry { frameState [0x4B, 0x00] 0 2 with seed := some 0x88888888 }) (fun t => t.err = .ok) = true ∧
      Spec.ks 0x88888888 0 = 0#8 ∧ holdsNext (exec .dcry twoBytes) (fun t => t.err = .ok) = true ∧
      Spec.ks 0x35F9AF30 0 ≠ 0#8 := by decide +kernel

theorem test_witness_sequential_decryption :
    twoBytes.opa = some 0#16 ∧ (0#16).toNat + (1#16).toNat + (1#16).toNat < 65536 ∧
    holdsNext (exec .dcry { twoBytes with opb := some 1#16 }) (fun a =>
      a.err = .ok && holdsNext (exec .dcry { a with seed := a.lfsr, opa := some (0#16 + 1#16), opb := some 1#16 })
        (fun b => b.err = .ok)) = true := by decide +kernel

/-- A seed wrong in an ignored bit, and one wrong in a bit that counts. -/
theorem test_witness_wrong_seed :
    twoBytes.seed = some 0x35F9AF30#32 ∧ holdsNext (exec .dcry twoBytes) (fun t => t.err = .ok) = true ∧
      (0x00800000#32 &&& 0x00FFF008#32 = 0x00800000#32) ∧ Spec.ks 0x00800000 0 = 0#8 ∧ Spec.ks 1 0 ≠ 0#8 := by
  decide +kernel

/-- Byte 5 of the payload is UNDEF. -/
theorem test_witness_prdg :
    ∃ (s : State), s.opa = some 0#16 ∧ s.opb = some 16#16 ∧ s.dlen = some 16#16 ∧
      (∀ i, i < 16 → i ≠ 5 → Memory.read s.frame ((0#16).toNat + i) = some (byteAt e1Plain i)) ∧
      (0#16).toNat + (16#16).toNat ≤ (16#16).toNat ∧ 16 ≤ (16#16).toNat ∧ Memory.read s.frame 5 = none ∧
      e1Plain.length = 16 ∧ byteAt e1Plain 0 = 0x4B#8 ∧ s.hdr.idStr = some e1Id ∧
      s.rssi = some 0xFFBA ∧ s.build.unitField = [7, 6, 5, 4, 3] ∧ s.build.alarmMap = defaultAlarmMap :=
  ⟨{ e1Payload with frame := Memory.poison e1Payload.frame 5 6 }, by decide +kernel⟩

/-- Past DLEN by one; 15 bytes; a first byte of 0x4A. -/
theorem test_witness_prdg_failures :
    ((frameState e1Plain 1 16).opa = some 1#16 ∧ (frameState e1Plain 1 16).opb = some 16#16 ∧
      (frameState e1Plain 1 16).dlen = some 16#16 ∧ (16#16).toNat < (1#16).toNat + (16#16).toNat) ∧
    ((frameState e1Plain 0 15).opa = some 0#16 ∧ (frameState e1Plain 0 15).opb = some 15#16 ∧
    (0#16).toNat + (15#16).toNat ≤ (16#16).toNat ∧ (15#16).toNat < 16) ∧
    ((frameState (e1Plain.set 0 0x4A) 0 16).opa = some 0#16 ∧
      (frameState (e1Plain.set 0 0x4A) 0 16).opb = some 16#16 ∧
      (frameState (e1Plain.set 0 0x4A) 0 16).dlen = some 16#16 ∧
      (0#16).toNat + (16#16).toNat ≤ (16#16).toNat ∧ 16 ≤ (16#16).toNat ∧ (e1Plain.set 0 0x4A).length = 16 ∧
      Memory.holds (frameState (e1Plain.set 0 0x4A) 0 16).frame (0#16).toNat (e1Plain.set 0 0x4A) ∧
      byteAt (e1Plain.set 0 0x4A) 0 ≠ 0x4B#8) := by decide +kernel

/-- y7 = 80 gives 2080 and 81 gives 1981 (S19); the interval field is 15 and the exponent field 7. -/
theorem test_witness_reading_ranges :
    holdsNext (exec .prdg { e1Payload with
        frame := load [0x4B, 0x0F, 0, 0, 0x07, 0, 0, 0, 0, 0, 0, 0, 0, 0, 0xA1, 0x01] })
      (fun t => t.rd.year = some 2080 && t.rd.interval = some 0x20000 && t.rd.exp = some 1 && t.err = .ok) = true ∧
    holdsNext (exec .prdg { e1Payload with
        frame := load [0x4B, 0x00, 0, 0, 0x00, 0, 0, 0, 0, 0, 0, 0, 0, 0, 0xA1, 0x11] })
      (fun t => t.rd.year = some 1981 && t.rd.interval = some 4 && t.rd.exp = some 10 && t.err = .ok) = true := by
  decide +kernel

/-- An empty mailbox; a full one holding a packet of two bytes, and of none. -/
theorem test_witness_take :
    State.reset.pend = false ∧ (delivered [0x36, 0x57]).pend = true ∧ (delivered [0x36, 0x57]).mboxLen = some 2#16 ∧
      (delivered [0x36, 0x57]).mboxRssi = some 0xFFBA ∧ [0x36#8, 0x57].length = (2#16).toNat ∧
      Memory.holds (delivered [0x36, 0x57]).mbox 0 [0x36, 0x57] ∧
      (delivered []).mboxLen = some 0#16 ∧ Memory.holds (delivered []).mbox 0 [] := by decide +kernel

/-- E1, with its 45 raw bytes and no more. -/
theorem test_witness_pfrm :
    e1Received.build.sixbitWf = true ∧ Memory.holds e1Received.raw 0 e1Raw ∧
      e1Raw.length ≤ e1Received.rawLen.toNat ∧ Spec.rawEncodes e1Received.build e1Raw e1Frame ∧
      acceptedFrame e1Frame = true ∧ e1Received.rssi = some 0xFFBA := by decide +kernel

/-- RAW_LEN = 1; and RAW_LEN = 44, one less than L = 0x19 needs. -/
theorem test_witness_pfrm_missing_bytes :
    ({ e1Received with rawLen := 1 } : State).rawLen.toNat < 2 ∧
    (e1Received.build.sixbitWf = true ∧ [0x36#8, 0x57].length = 2 ∧
    2 ≤ ({ e1Received with rawLen := 44 } : State).rawLen.toNat ∧ Memory.holds e1Received.raw 0 [0x36, 0x57] ∧
      Spec.spells [0x36, 0x57] 0 (Spec.codeword e1Received.build ((0x19#8).extractLsb' 4 4)) ∧
      Spec.spells [0x36, 0x57] 1 (Spec.codeword e1Received.build ((0x19#8).extractLsb' 0 4)) ∧
      ({ e1Received with rawLen := 44 } : State).rawLen.toNat < (3 * ((0x19#8).toNat + 5) + 1) / 2) := by
  decide +kernel

/-- The line code of a frame, for the witnesses of PFRM's later checks. -/
def lineCode (f : List Byte) : List Byte :=
  Spec.encodeNibbles State.reset.build ((List.range (2 * f.length)).map (Spec.nibbleAt f))

/-- A 10-byte header with its CRC: the frame with L = 7 or 8 that PFRM finds too short for a payload. -/
def shortFrame (l : Byte) (last : List Byte) : List Byte :=
  [l, 0, 0, 0, 0, 0, 0, 0, 0, 0] ++ [(crc16 [l, 0, 0, 0, 0, 0, 0, 0, 0, 0]).extractLsb' 8 8,
    (crc16 [l, 0, 0, 0, 0, 0, 0, 0, 0, 0]).extractLsb' 0 8] ++ last

/-- The four outcomes: 5 bytes, a wrong header CRC, 13 bytes, a wrong transport CRC. -/
theorem test_witness_pfrm_first_failing_check :
    State.reset.build.sixbitWf = true ∧
    ∀ f, f ∈ [[0, 0, 0, 0, 0], (shortFrame 7 []).set 3 1, shortFrame 8 [0], shortFrame 9 [0xFF, 0xFE]] →
      Memory.holds (rawState (lineCode f)).raw 0 (lineCode f) ∧
      (lineCode f).length ≤ (rawState (lineCode f)).rawLen.toNat ∧
      Spec.rawEncodes State.reset.build (lineCode f) f ∧ f.length = (byteAt f 0).toNat + 5 ∧
      acceptedFrame f = false := by decide +kernel

/-- V-LC10: symbol 0 is bad, and 36 00 has symbol 1 bad (codeword 0x0D, then 0x20). -/
theorem test_witness_pfrm_first_pass_codeword :
    2 ≤ (rawState [0x00, 0x00]).rawLen.toNat ∧ [0x00#8, 0x00].length = 2 ∧
      Memory.holds (rawState [0x00, 0x00]).raw 0 [0x00, 0x00] ∧
      Spec.badSymbol State.reset.build [0x00, 0x00] 0 ∧
      2 ≤ (rawState [0x36, 0x00]).rawLen.toNat ∧ Memory.holds (rawState [0x36, 0x00]).raw 0 [0x36, 0x00] ∧
      Spec.badSymbol State.reset.build [0x36, 0x00] 1 := by decide +kernel

/-- E1 with a bit of its last symbol flipped (F0 for F1): the bad symbol is 59, the last below 2E = 60. -/
theorem test_witness_pfrm_second_pass_codeword :
    (rawState (e1Raw.set 44 0xF0)).build.sixbitWf = true ∧ 2 ≤ (e1Raw.set 44 0xF0).length ∧
      Memory.holds (rawState (e1Raw.set 44 0xF0)).raw 0 (e1Raw.set 44 0xF0) ∧
      Spec.spells (e1Raw.set 44 0xF0) 0 (Spec.codeword State.reset.build ((0x19#8).extractLsb' 4 4)) ∧
      Spec.spells (e1Raw.set 44 0xF0) 1 (Spec.codeword State.reset.build ((0x19#8).extractLsb' 0 4)) ∧
      (3 * ((0x19#8).toNat + 5) + 1) / 2 ≤ (rawState (e1Raw.set 44 0xF0)).rawLen.toNat ∧
      59 < 2 * ((0x19#8).toNat + 5) ∧ 6 * 59 + 5 < 8 * (e1Raw.set 44 0xF0).length ∧
      Spec.badSymbol State.reset.build (e1Raw.set 44 0xF0) 59 ∧
      holdsNext (exec .pfrm (rawState (e1Raw.set 44 0xF0))) (fun t => t.err = .codeword) = true := by decide +kernel

/-- PFRM of a packet one byte short, and PPAY with a wrong key. -/
theorem test_witness_composite_failures :
    holdsNext (exec .pfrm { e1Received with rawLen := 44 }) (fun t => t.err ≠ .ok) = true ∧
      e1Accepted.fok = true ∧
      holdsNext (exec .ppay { e1Accepted with key := some 0x0123456789ABCDEE }) (fun t => t.err ≠ .ok) = true := by
  decide +kernel

theorem test_witness_ppay_seq : State.reset.fok = false := rfl

/-- E1: the payload is exactly 16 bytes long. -/
theorem test_witness_ppay :
    e1Accepted.fok = true ∧ e1Accepted.tpOff = some 12#16 ∧ e1Accepted.tpLen = some 16#16 ∧
      e1Accepted.dlen = some 30#16 ∧ e1Accepted.key = some e1Key ∧ e1Accepted.hdr.idStr = some e1Id ∧
      e1Accepted.rssi = some 0xFFBA ∧ 16 ≤ (30#16).toNat ∧ e1Frame.length = (30#16).toNat ∧
      Memory.holds e1Accepted.frame 0 e1Frame ∧
      (12#16).toNat + (16#16).toNat ≤ (30#16).toNat ∧ e1Accepted.build.cipherOff + 16 ≤ (16#16).toNat ∧
      byteAt e1Frame ((12#16).toNat + e1Accepted.build.cipherOff) ^^^ Spec.ks (Spec.seedOf e1Key e1Frame) 0 = 0x4B#8 := by
  decide +kernel

/-- E1 accepted, under another CIPHER_OFF. -/
def e1AcceptedAt (k : Nat) : State := { e1Accepted with build := { defaultConfig with cipherOff := k } }

/-- The premises about the state, and the outcomes: TP_LEN below CIPHER_OFF; equal to it; a wrong key; 15 payload bytes
under the right seed. -/
theorem test_witness_ppay_first_failing_check :
    (∀ k, k ∈ [17, 16, 1] → (e1AcceptedAt k).fok = true ∧ (e1AcceptedAt k).tpOff = some 12#16 ∧
      (e1AcceptedAt k).tpLen = some 16#16 ∧ (e1AcceptedAt k).dlen = some 30#16 ∧ (e1AcceptedAt k).key = some e1Key ∧
      (16#16).toNat < (e1AcceptedAt k).build.cipherOff + 16) ∧
    e1Frame.length = (30#16).toNat ∧ Memory.holds e1Accepted.frame 0 e1Frame ∧
    (12#16).toNat + (16#16).toNat ≤ (30#16).toNat ∧
    byteAt e1Frame 12 ^^^ Spec.ks (Spec.seedOf 0x0123456789ABCDEE e1Frame) 0 ≠ 0x4B#8 ∧
    ((15#16).toNat < e1Accepted.build.cipherOff + 16 ∧
      byteAt e1Frame 12 ^^^ Spec.ks (Spec.seedOf e1Key e1Frame) 0 = 0x4B#8) := by decide +kernel

/-- DLEN = 15: an accepted frame with one payload byte is too short for a seed. -/
theorem test_witness_ppay_short :
    ({ e1Accepted with dlen := some 15, tpLen := some 1 } : State).fok = true ∧
      (e1Frame.take 15).length = (15#16).toNat ∧ Memory.holds e1Accepted.frame 0 (e1Frame.take 15) ∧
      (12#16).toNat + (1#16).toNat ≤ (15#16).toNat ∧ (15#16).toNat < 16 := by decide +kernel

theorem test_witness_hand_chain :
    e1Accepted.fok = true ∧ e1Accepted.tpOff = some 12#16 ∧ e1Accepted.tpLen = some 16#16 ∧
      e1Accepted.build.cipherOff ≤ (16#16).toNat ∧ (12#16).toNat + (16#16).toNat < 65536 ∧
      holdsNext (exec .dkey e1Accepted) (fun a => a.err = .ok &&
        holdsNext (exec .dcry { a with opa := some 12#16, opb := some 16#16 }) (fun b => b.err = .ok &&
          holdsNext (exec .prdg b) (fun e => e.err = .ok))) = true := by decide +kernel

/-- PFRM fails; PFRM succeeds and PPAY fails; both succeed. -/
theorem test_witness_ppkt :
    holdsNext (exec .pfrm { e1Received with rawLen := 44 }) (fun t => t.err ≠ .ok) = true ∧
    holdsNext (exec .pfrm e1Received) (fun t => t.err = .ok) = true ∧
    holdsNext (exec .ppkt { e1Received with key := some 0x0123456789ABCDEE }) (fun t => t.err ≠ .ok) = true ∧
    holdsNext (exec .ppkt e1Received) (fun t => t.err = .ok) = true := by decide +kernel

theorem test_witness_ppkt_chain :
    e1Received.build.sixbitWf = true ∧ Memory.holds e1Received.raw 0 e1Raw ∧ e1Raw.length ≤ e1Received.rawLen.toNat ∧
      Spec.rawEncodes e1Received.build e1Raw e1Frame ∧ acceptedFrame e1Frame = true ∧ e1Received.rssi = some 0xFFBA ∧
      e1Received.key = some e1Key ∧ e1Received.build.cipherOff + 30 ≤ e1Frame.length ∧
      byteAt e1Frame (12 + e1Received.build.cipherOff) ^^^ Spec.ks (Spec.seedOf e1Key e1Frame) 0 = 0x4B#8 := by
  decide +kernel

theorem test_witness_no_packet_faults :
    (delivered e1Raw).key.isSome = true ∧ (delivered e1Raw).pend = true ∧ MailboxComplete (delivered e1Raw) :=
  ⟨rfl, rfl, fun _ => ⟨45, 0xFFBA, rfl, rfl, by decide +kernel⟩⟩

/-- Each of the commands that store no byte answers a next state from the accepted frame. -/
theorem test_witness_register_commands :
    ∀ i, i ∈ [Instr.crc, .crcv, .phdr, .stpl, .dkey] →
      holdsNext (exec i { e1Accepted with opc := some 0x513D }) (fun t => t.err = .ok && t.fok) = true := by decide +kernel

theorem test_witness_storing_commands :
    holdsNext (exec .dbuf e1Received) (fun t => t.dlen = some 30) = true ∧
      holdsNext (exec .dcry twoBytes) (fun t => t.frame = load [0x4B, 0x4B]) = true ∧
      holdsNext (exec .ppay State.reset) (fun t => !t.fok) = true ∧ State.reset.fok = false ∧
      (delivered [1]).mboxLen = some 1#16 := by decide +kernel

theorem test_witness_what_no_command_writes :
    holdsNext (exec .take State.reset) (fun t => t.err = .noPkt) = true ∧ Instr.take ∉ [Instr.pfrm, .ppay, .ppkt] := by
  decide +kernel

/-- KEY is the widest register written this way: one bit more than its width. -/
theorem test_witness_host_write :
    Reg.ofNumber 0x09 = some .key ∧ Reg.key ∈ [Reg.opa, .opb, .opc, .key, .seed, .rssi] ∧
      ({ State.reset with schedule := [.writeReg 0x09 (2 ^ 64)] } : State).schedule = .writeReg 0x09 (2 ^ 64) :: [] := by
  decide +kernel

/-- RAW_LEN at RAW_MAX and above, DLEN at FRAME_MAX and above, and unassigned numbers. -/
theorem test_witness_host_register_duties :
    (390 ≤ State.reset.build.rawMax ∧ ¬ 391 ≤ State.reset.build.rawMax) ∧
    (260 ≤ State.reset.build.frameMax ∧ ¬ 261 ≤ State.reset.build.frameMax) ∧
    ((0x0F#8).toNat = 0x0F ∧ 0x1D ≤ (0x1D#8).toNat ∧ (0x1F#8).toNat ≤ 0x1F ∧ 0x2E ≤ (0x2E#8).toNat) ∧
    ({ State.reset with schedule := [.writeReg 0x05 390] } : State).schedule = .writeReg 0x05 390 :: [] ∧
    ({ State.reset with schedule := [.writeReg 0x06 261] } : State).schedule = .writeReg 0x06 261 :: [] ∧
    ({ State.reset with schedule := [.readReg 0x2E] } : State).schedule = .readReg 0x2E :: [] := by decide +kernel

theorem test_witness_read_only_write :
    Reg.ofNumber 0x01 = some .status ∧ Spec.readOnly .status = true ∧ Reg.ofNumber 0x2D = some .rdId ∧
      Spec.readOnly .rdId = true ∧
      ({ State.reset with schedule := [.writeReg 0x01 0xFF] } : State).schedule = .writeReg 0x01 0xFF :: [] := by
  decide +kernel

/-- A cell with a value, and a cell that holds UNDEF. -/
theorem test_witness_host_read :
    Reg.ofNumber 0x05 = some .rawLen ∧ regValue State.reset .rawLen = some 0 ∧ Reg.ofNumber 0x1C = some .idStr ∧
      regValue State.reset .idStr = none ∧
      ({ State.reset with schedule := [.readReg 0x1C] } : State).schedule = .readReg 0x1C :: [] := by decide +kernel

/-- One event in the log. -/
theorem test_witness_consume_event :
    ({ State.reset with schedule := [.consumeEvent], evlog := [.pkt e1Id e1Frame 12 16 0xFFBA] } : State).schedule =
        .consumeEvent :: [] ∧
      ({ State.reset with schedule := [.consumeEvent], evlog := [.pkt e1Id e1Frame 12 16 0xFFBA] } : State).evlog =
        .pkt e1Id e1Frame 12 16 0xFFBA :: [] := ⟨rfl, rfl⟩

/-- Reads of the last byte of each buffer, one past it, and of MBOX; a cell with a value and one that holds UNDEF. -/
theorem test_witness_host_buffer_reads :
    259 + 1 ≤ State.reset.build.frameMax ∧ State.reset.build.frameMax < 260 + 1 ∧
    389 + 1 ≤ State.reset.build.rawMax ∧ State.reset.build.rawMax < 390 + 1 ∧
    ({ State.reset with schedule := [.readBuf .frame 259 1] } : State).schedule = .readBuf .frame 259 1 :: [] ∧
    ({ State.reset with schedule := [.readBuf .raw 390 1] } : State).schedule = .readBuf .raw 390 1 :: [] ∧
    ({ State.reset with schedule := [.readBuf .mbox 0 1] } : State).schedule = .readBuf .mbox 0 1 :: [] ∧
    Memory.read (frameState e1Frame 0 0).frame 29 = some 0x3D ∧ Memory.read (frameState e1Frame 0 0).frame 30 = none ∧
    holdsNext (step { frameState e1Frame 0 0 with schedule := [.readBuf .frame 28 2] })
      (fun t => t.lastRead = .bytes .frame 28 [0x51, 0x3D] && t.fok = false && t.schedule = []) = true := by
  decide +kernel

/-- The last byte of each buffer, and one past it. -/
theorem test_witness_host_buffers :
    259 + [0x48#8].length ≤ State.reset.build.frameMax ∧ State.reset.build.frameMax < 260 + [0x48#8].length ∧
    389 + [0x48#8].length ≤ State.reset.build.rawMax ∧ State.reset.build.rawMax < 390 + [0x48#8].length ∧
    ({ State.reset with schedule := [.writeBuf .frame 259 [0x48]] } : State).schedule = .writeBuf .frame 259 [0x48] :: [] ∧
    ({ State.reset with schedule := [.writeBuf .raw 389 [0x48]] } : State).schedule = .writeBuf .raw 389 [0x48] :: [] ∧
    ({ State.reset with schedule := [.writeBuf .mbox 0 [0x48]] } : State).schedule = .writeBuf .mbox 0 [0x48] :: [] := by
  decide +kernel

/-- Into an empty mailbox; into a full one under each policy; the least and the greatest signal strength. -/
theorem test_witness_deliver :
    ({ State.reset with schedule := [.deliver e1Raw (-70)] } : State).schedule = .deliver e1Raw (-70) :: [] ∧
      State.reset.build.wf = true ∧ e1Raw.length ≤ State.reset.build.rawMax ∧
      -(2 ^ (State.reset.build.rssiW - 1)) ≤ (-32768 : Int) ∧ (32767 : Int) < 2 ^ (State.reset.build.rssiW - 1) ∧
      State.reset.pend = false ∧ (delivered e1Raw).pend = true ∧ (delivered e1Raw).build.mailboxPolicy = .dropNew ∧
      ({ defaultConfig with mailboxPolicy := .overwrite } : Config).mailboxPolicy = .overwrite := by decide +kernel

theorem test_witness_reset :
    ({ e1Accepted with schedule := [.reset] } : State).schedule = .reset :: [] := rfl

/-- A step that stores FRAME bytes, from a canonical state. -/
theorem test_witness_canonical :
    BuffersCanonical { e1Received with schedule := [.writeReg 0x00 0x0B] } ∧
      holdsNext (step { e1Received with schedule := [.writeReg 0x00 0x0B] }) (fun t => t.frame = load e1Frame) = true := by
  decide +kernel

/-- A step that empties a full mailbox. -/
theorem test_witness_within_capacity :
    WithinCapacity { delivered e1Raw with schedule := [.writeReg 0x00 0x0A] } ∧
      MailboxComplete { delivered e1Raw with schedule := [.writeReg 0x00 0x0A] } ∧
      RssiInWidth { delivered e1Raw with schedule := [.writeReg 0x00 0x0A] } ∧
      holdsNext (step { delivered e1Raw with schedule := [.writeReg 0x00 0x0A] }) (fun t => t.rawLen = 45) = true :=
  ⟨by decide +kernel, fun _ => ⟨45, 0xFFBA, rfl, rfl, by decide +kernel⟩, by decide +kernel, by decide +kernel⟩

/-- A PHDR that succeeds with FOK = 1 keeps it. -/
theorem test_witness_frame_validated :
    FrameValidated { e1Accepted with schedule := [.writeReg 0x00 0x05] } ∧
      holdsNext (step { e1Accepted with schedule := [.writeReg 0x00 0x05] }) (fun t => t.fok && t.hdr = e1Accepted.hdr) =
        true :=
  ⟨fun _ => ⟨e1Frame, by decide +kernel⟩, by decide +kernel⟩

theorem test_witness_only_pfrm_sets_fok :
    holdsNext (step { e1Received with schedule := [.writeReg 0x00 0x0B] }) (fun t => t.fok) = true ∧
      e1Received.fok = false ∧ issuedCommand (.writeReg 0x00 0x0B) = some .pfrm := by decide +kernel

/-- A step that writes KEY. -/
theorem test_witness_build_and_key :
    holdsNext (step { State.reset with schedule := [.writeReg 0x09 5] }) (fun t => t.key = some 5) = true := by
  decide +kernel

theorem test_witness_reset_invariants : defaultConfig.wf = true := by decide +kernel

end Sys2Proof.Tests
end

section
/-! SUPPORT. The write set of every command: the fields a command can change when it answers a next state, said once
per command (45_pipeline.md R228). -/

namespace Sys2Proof.Machine

/-- DNIB writes NIB and ERR (40_line_codec.md R102). -/
theorem execDnib_writes {s t : State} (h : exec .dnib s = .next t) :
    ∃ nib e, t = { s with nib := nib, err := e } := by
  obtain ⟨a, -, ⟨nb, -, rfl⟩ | ⟨-, rfl⟩⟩ := execDnib_next.1 h <;> exact ⟨_, _, rfl⟩

/-- DBUF writes FRAME, DLEN and ERR, and clears FOK (40_line_codec.md R104). -/
theorem execDbuf_writes {s t : State} (h : exec .dbuf s = .next t) :
    ∃ frame dlen e, t = { s with frame := frame, dlen := dlen, fok := false, err := e } := by
  obtain ⟨n, -, ⟨bs, -, rfl⟩ | ⟨e, -, rfl⟩⟩ := execDbuf_next.1 h <;> exact ⟨_, _, _, rfl⟩

/-- CRC writes CRC_OUT and ERR (41_frame_crc.md R122). -/
theorem execCrc_writes {s t : State} (h : exec .crc s = .next t) :
    ∃ c e, t = { s with crcOut := c, err := e } := by
  obtain ⟨off, len, -, -, ⟨bs, -, rfl⟩ | ⟨e, -, rfl⟩⟩ := execCrc_next.1 h <;> exact ⟨_, _, rfl⟩

/-- CRCV writes CRC_OUT and ERR (41_frame_crc.md R124). -/
theorem execCrcv_writes {s t : State} (h : exec .crcv s = .next t) :
    ∃ c e, t = { s with crcOut := c, err := e } := by
  obtain ⟨off, len, -, -, ⟨bs, w, -, -, rfl⟩ | ⟨e, -, rfl⟩⟩ := execCrcv_next.1 h <;> exact ⟨_, _, rfl⟩

/-- PHDR writes the header registers and ERR, and can only clear FOK (42_frame_parser.md R141). -/
theorem execPhdr_writes {s t : State} (h : exec .phdr s = .next t) :
    ∃ hdr f e, t = { s with hdr := hdr, fok := s.fok && f, err := e } := by
  obtain ⟨hd, -, rfl⟩ | ⟨e, -, rfl⟩ := execPhdr_next.1 h
  · exact ⟨headerRegsOf hd, true, .ok, by simp⟩
  · exact ⟨HeaderRegs.undef, false, e, by simp⟩

/-- STPL writes TP_OFF, TP_LEN and ERR, and can only clear FOK (42_frame_parser.md R150). -/
theorem execStpl_writes {s t : State} (h : exec .stpl s = .next t) :
    ∃ off len f e, t = { s with tpOff := off, tpLen := len, fok := s.fok && f, err := e } := by
  obtain ⟨n, -, rfl⟩ | ⟨e, -, rfl⟩ := execStpl_next.1 h
  · exact ⟨some 12, some (BitVec.ofNat 16 n), true, .ok, by simp⟩
  · exact ⟨none, none, false, e, by simp⟩

/-- DKEY writes SEED and ERR (43_cipher.md R171). -/
theorem execDkey_writes {s t : State} (h : exec .dkey s = .next t) :
    ∃ seed e, t = { s with seed := seed, err := e } := by
  obtain ⟨x, -, rfl⟩ | ⟨e, -, rfl⟩ := execDkey_next.1 h <;> exact ⟨_, _, rfl⟩

/-- DCRY writes FRAME, LFSR and ERR, and clears FOK (43_cipher.md R175). -/
theorem execDcry_writes {s t : State} (h : exec .dcry s = .next t) :
    ∃ frame lfsr e, t = { s with frame := frame, lfsr := lfsr, fok := false, err := e } := by
  obtain ⟨off, len, -, -, ⟨r, -, rfl⟩ | ⟨e, -, rfl⟩⟩ := execDcry_next.1 h <;> exact ⟨_, _, _, rfl⟩

/-- PRDG writes the reading registers and ERR (44_reading_parser.md R190). -/
theorem execPrdg_writes {s t : State} (h : exec .prdg s = .next t) :
    ∃ rd e, t = { s with rd := rd, err := e } := by
  obtain ⟨off, len, -, -, ⟨r, -, rfl⟩ | ⟨e, -, rfl⟩⟩ := execPrdg_next.1 h <;> exact ⟨_, _, rfl⟩

/-- TAKE writes RAW, RAW_LEN, RSSI, PEND and ERR, and can only clear FOK (45_pipeline.md R220). -/
theorem execTake_writes {s t : State} (h : exec .take s = .next t) :
    ∃ raw n q p f e,
      t = { s with raw := raw, rawLen := n, rssi := q, pend := p, fok := s.fok && f, err := e } := by
  obtain ⟨-, rfl⟩ | ⟨-, n, bs, r, -, rfl⟩ := execTake_next.1 h
  · exact ⟨s.raw, s.rawLen, s.rssi, s.pend, true, .noPkt, by simp⟩
  · exact ⟨Memory.writeBytes s.raw 0 bs, n, some r, false, false, .ok, by simp⟩

/-- PFRM writes FRAME, DLEN, the header registers, TP_OFF, TP_LEN, FOK and ERR, and appends to EVLOG
(45_pipeline.md R221). -/
theorem execPfrm_writes {s t : State} (h : exec .pfrm s = .next t) :
    ∃ frame dlen hdr off len es f e,
      t = { s with frame := frame, dlen := dlen, hdr := hdr, tpOff := off, tpLen := len, evlog := s.evlog ++ es,
                   fok := f, err := e } := by
  obtain ⟨r, -, rfl⟩ | ⟨e, -, rfl⟩ := execPfrm_next.1 h
  · exact ⟨_, _, _, _, _, [pktEvent r], _, _, rfl⟩
  · exact ⟨[], none, HeaderRegs.undef, none, none, [], false, e, by rw [List.append_nil]; rfl⟩

/-- PPAY writes SEED, LFSR, FRAME, the reading registers and ERR, appends to EVLOG, and leaves FOK = 0
(45_pipeline.md R224, R225). -/
theorem execPpay_writes {s t : State} (h : exec .ppay s = .next t) :
    ∃ seed lfsr frame rd es e,
      t = { s with seed := seed, lfsr := lfsr, frame := frame, rd := rd, evlog := s.evlog ++ es, fok := false,
                   err := e } := by
  obtain ⟨hf, rfl⟩ | ⟨-, off, len, -, -, ⟨r, -, rfl⟩ | ⟨e, -, rfl⟩⟩ := execPpay_next.1 h
  · exact ⟨s.seed, s.lfsr, s.frame, s.rd, [], .seq, by simp [← hf]⟩
  · exact ⟨_, _, _, _, [.reading r.reading], _, rfl⟩
  · exact ⟨none, none, _, ReadingRegs.undef, [], e, by rw [List.append_nil]; rfl⟩

/-- A PFRM that ends with an error leaves FOK = 0 (45_pipeline.md R221). -/
theorem execPfrm_fok_of_err {s t : State} (h : exec .pfrm s = .next t) (he : t.err ≠ .ok) : t.fok = false := by
  obtain ⟨r, -, rfl⟩ | ⟨e, -, rfl⟩ := execPfrm_next.1 h
  · exact absurd rfl he
  · rfl

/-- PPKT writes what PFRM and PPAY write, and leaves FOK = 0 (45_pipeline.md R227). -/
theorem execPpkt_writes {s t : State} (h : exec .ppkt s = .next t) :
    ∃ frame dlen hdr off len seed lfsr rd es e,
      t = { s with frame := frame, dlen := dlen, hdr := hdr, tpOff := off, tpLen := len, seed := seed, lfsr := lfsr,
                   rd := rd, evlog := s.evlog ++ es, fok := false, err := e } := by
  obtain ⟨u, hu, ⟨he, rfl⟩ | ⟨-, hp⟩⟩ := execPpkt_next.1 h
  · have hf := execPfrm_fok_of_err hu he
    obtain ⟨_, _, _, _, _, es, f, _, rfl⟩ := execPfrm_writes hu
    obtain rfl : f = false := hf
    exact ⟨_, _, _, _, _, s.seed, s.lfsr, s.rd, es, _, rfl⟩
  · obtain ⟨_, dlen, hdr, off, len, es, _, _, rfl⟩ := execPfrm_writes hu
    obtain ⟨seed, lfsr, frame, rd, es', e, rfl⟩ := execPpay_writes hp
    exact ⟨frame, dlen, hdr, off, len, seed, lfsr, rd, es ++ es', e, by rw [← List.append_assoc]⟩

/-- Settles O47, from the write set of each command. -/
theorem whatNoCommandWrites : Obligations.WhatNoCommandWrites := by
  intro i s t h
  cases i
  case dnib => obtain ⟨_, _, rfl⟩ := execDnib_writes h; simp
  case dbuf => obtain ⟨_, _, _, rfl⟩ := execDbuf_writes h; simp
  case crc => obtain ⟨_, _, rfl⟩ := execCrc_writes h; simp
  case crcv => obtain ⟨_, _, rfl⟩ := execCrcv_writes h; simp
  case phdr => obtain ⟨_, _, _, rfl⟩ := execPhdr_writes h; simp
  case stpl => obtain ⟨_, _, _, _, rfl⟩ := execStpl_writes h; simp
  case dkey => obtain ⟨_, _, rfl⟩ := execDkey_writes h; simp
  case dcry => obtain ⟨_, _, _, rfl⟩ := execDcry_writes h; simp
  case prdg => obtain ⟨_, _, rfl⟩ := execPrdg_writes h; simp
  case take => obtain ⟨_, _, _, _, _, _, rfl⟩ := execTake_writes h; simp
  case pfrm => obtain ⟨_, _, _, _, _, _, _, _, rfl⟩ := execPfrm_writes h; simp
  case ppay => obtain ⟨_, _, _, _, _, _, rfl⟩ := execPpay_writes h; simp
  case ppkt => obtain ⟨_, _, _, _, _, _, _, _, _, _, rfl⟩ := execPpkt_writes h; simp

end Sys2Proof.Machine
end

section
/-! SUPPORT. What an accepted frame is, read from FRAME and decoded from RAW (45_pipeline.md R221). -/

namespace Sys2Proof.Machine

theorem byteAt_eq_getElem {bs : List Byte} {i : Nat} (h : i < bs.length) : byteAt bs i = bs[i] := by
  simp [byteAt, h]

/-- Bytes that stand at one place of a buffer are determined by their number. -/
theorem holds_unique {m : Memory} {a : Nat} {bs cs : List Byte} (hb : Memory.holds m a bs)
    (hc : Memory.holds m a cs) (hl : bs.length = cs.length) : bs = cs := by
  refine List.ext_getElem hl fun i hi hi' => ?_
  rw [← byteAt_eq_getElem hi, ← byteAt_eq_getElem hi']
  exact Option.some.inj ((hb i hi).symm.trans (hc i hi'))

/-- Bytes that stand within a frame at the head of a buffer are a slice of the frame. -/
theorem holds_eq_slice {m : Memory} {f bs : List Byte} {k : Nat} (hf : Memory.holds m 0 f)
    (hb : Memory.holds m k bs) (hl : k + bs.length ≤ f.length) : bs = (f.drop k).take bs.length := by
  have hs : Memory.holds m (0 + k) ((f.drop k).take bs.length) := holds_slice hf
  rw [Nat.zero_add] at hs
  exact holds_unique hb hs (by simp; omega)

/-- A byte read within a frame at the head of a buffer is the frame's. -/
theorem read_of_holds {m : Memory} {f : List Byte} {k : Nat} {v : Byte} (hf : Memory.holds m 0 f)
    (hv : Memory.read m k = some v) (hk : k < f.length) : v = byteAt f k := by
  have h := hf k hk
  rw [Nat.zero_add, hv] at h
  exact Option.some.inj h

/-- PHDR on a frame of at least 12 bytes reads that frame's header (42_frame_parser.md R141). -/
theorem parseHeader_of_holds {c : Config} {m : Memory} {d : Cell 16} {h : Header} {f : List Byte}
    (hf : Memory.holds m 0 f) (hl : 12 ≤ f.length) (hp : parseHeader c m d = .ok h) :
    crc16 (f.take 10) = be16 (byteAt f 10) (byteAt f 11) ∧
      h = headerOf c (f.take 10) (be16 (byteAt f 10) (byteAt f 11)) := by
  obtain ⟨_, b, b10, b11, -, -, hbl, hb, h10, h11, hcrc, rfl⟩ := parseHeader_ok.1 hp
  obtain rfl := read_of_holds hf h10 (by omega)
  obtain rfl := read_of_holds hf h11 (by omega)
  have hb' : b = f.take 10 := by simpa [hbl] using holds_eq_slice hf hb (by omega)
  subst hb'
  exact ⟨hcrc, rfl⟩

/-- STPL on a frame whose length DLEN gives splits off that frame's payload (42_frame_parser.md R150). -/
theorem splitTransport_of_holds {m : Memory} {f : List Byte} {n : Nat} (hf : Memory.holds m 0 f)
    (hl : f.length < 65536) (hs : splitTransport m (some (BitVec.ofNat 16 f.length)) = .ok n) :
    14 ≤ f.length ∧ n = f.length - 14 ∧
      crc16 ((f.drop 12).take (f.length - 14)) = be16 (byteAt f (f.length - 2)) (byteAt f (f.length - 1)) := by
  obtain ⟨d, p, c0, c1, hd, hle, rfl, hpl, hp, h0, h1, hcrc⟩ := splitTransport_ok.1 hs
  have hdl : d.toNat = f.length := by
    rw [← Option.some.inj hd, BitVec.toNat_ofNat, Nat.mod_eq_of_lt hl]
  rw [hdl] at hle hpl h0 h1 ⊢
  obtain rfl := read_of_holds hf h0 (by omega)
  obtain rfl := read_of_holds hf h1 (by omega)
  have hp' := holds_eq_slice hf hp (by omega)
  rw [hpl] at hp'
  exact ⟨hle, rfl, hp' ▸ hcrc⟩

theorem acceptedFrame_iff {f : List Byte} :
    acceptedFrame f = true ↔
      14 ≤ f.length ∧ f.length = (byteAt f 0).toNat + 5 ∧
        crc16 (f.take 10) = be16 (byteAt f 10) (byteAt f 11) ∧
        crc16 ((f.drop 12).take (f.length - 14)) = be16 (byteAt f (f.length - 2)) (byteAt f (f.length - 1)) := by
  simp only [acceptedFrame, Bool.and_eq_true, decide_eq_true_eq, beq_iff_eq, and_assoc]

/-- An accepted frame has at most 260 bytes (45_pipeline.md R222). -/
theorem acceptedFrame_length_lt {f : List Byte} (h : acceptedFrame f = true) : f.length < 65536 := by
  have hlen := (acceptedFrame_iff.1 h).2.1
  have := (byteAt f 0).isLt
  omega

/-- need(E) raw bytes decode to E bytes (40_line_codec.md R106). -/
theorem decodedLength_requiredRaw (e : Nat) : decodedLength (requiredRaw e) = e := by
  simp only [decodedLength, symbolCount, requiredRaw]
  omega

theorem byteAt_packNibbles_zero (nibs : List (BitVec 4)) :
    byteAt (packNibbles nibs) 0 = nibs.getD 0 0 ++ nibs.getD 1 0 := by
  match nibs with
  | [] => rfl
  | [_] => rfl
  | _ :: _ :: _ => rfl

/-- The first decoded byte does not depend on how many raw bytes are decoded, when there are two at least
(45_pipeline.md R222). -/
theorem lineDecode_byteAt_zero {c : Config} {raw : Memory} {m n : Nat} {bs cs : List Byte} (hm : 2 ≤ m) (hn : 2 ≤ n)
    (hb : lineDecode c raw m = .ok bs) (hc : lineDecode c raw n = .ok cs) : byteAt bs 0 = byteAt cs 0 := by
  obtain ⟨xs, hx, hbs⟩ := bind_ok.1 hb
  obtain ⟨ys, hy, hcs⟩ := bind_ok.1 hc
  cases hbs
  cases hcs
  have hnib : ∀ i, i < 2 → xs.getD i 0 = ys.getD i 0 := fun i hi => by
    obtain ⟨x, hx1, hx2⟩ := (decodeSymbols_ok.1 hx).2 i (by simp only [symbolCount]; omega)
    obtain ⟨y, hy1, hy2⟩ := (decodeSymbols_ok.1 hy).2 i (by simp only [symbolCount]; omega)
    obtain rfl : x = y := Except.ok.inj (hx1.symm.trans hy1)
    exact Option.some.inj (hx2.symm.trans hy2)
  rw [byteAt_packNibbles_zero, byteAt_packNibbles_zero, hnib 0 (by omega), hnib 1 (by omega)]

/-- PFRM's bytes are as many as their own L-field says (45_pipeline.md R221, R222). -/
theorem frameStage_length {s : State} {r : FrameResult} (h : frameStage s = .ok r) :
    r.bytes.length = (byteAt r.bytes 0).toNat + 5 := by
  obtain ⟨l, hl, -, hbs, -⟩ := frameStage_ok.1 h
  have hlen : r.bytes.length = l + 5 := (dbufBytes_length hbs).trans (decodedLength_requiredRaw _)
  have hfirst : l = (byteAt r.bytes 0).toNat := by
    simp only [firstPass] at hl
    split at hl
    · cases hl
    · obtain ⟨cs, hcs, hl⟩ := bind_ok.1 hl
      cases hl
      simp only [dbufBytes] at hbs
      split at hbs
      · cases hbs
      · rw [lineDecode_byteAt_zero (Nat.le_refl 2) (by simp only [requiredRaw, expectedLength]; omega) hcs hbs]
  omega

/-- A PFRM that succeeds leaves a validated frame (45_pipeline.md R221). -/
theorem frameDone_validated {s : State} {r : FrameResult} (h : frameStage s = .ok r) :
    FrameValidated { frameDone s r with err := .ok } := by
  have hlen := frameStage_length h
  obtain ⟨l, -, -, -, hframe, hhdr, htp, hrssi⟩ := frameStage_ok.1 h
  have hf : Memory.holds r.frame 0 r.bytes := hframe ▸ Memory.writeBytes_holds s.frame 0 r.bytes
  have hlt : r.bytes.length < 65536 := by have := (byteAt r.bytes 0).isLt; omega
  obtain ⟨h14, hn, htcrc⟩ := splitTransport_of_holds hf hlt htp
  obtain ⟨hhcrc, hh⟩ := parseHeader_of_holds hf (by omega) hhdr
  exact fun _ => ⟨r.bytes, acceptedFrame_iff.2 ⟨h14, hlen, hhcrc, htcrc⟩, hf, rfl, congrArg headerRegsOf hh, rfl,
    congrArg (fun k => some (BitVec.ofNat 16 k)) hn, by simp [hrssi]⟩

theorem frameValidated_of_fok {s : State} (h : s.fok = false) : FrameValidated s :=
  fun hs => absurd (h.symm.trans hs) (by decide)

/-- From `s` to `t` FOK does not rise, and what FOK = 1 promises stays true (10_state.md R25). -/
structure KeepsPromise (s t : State) : Prop where
  fok : t.fok = true → s.fok = true
  validated : FrameValidated s → FrameValidated t

theorem keepsPromise_of_fok {s t : State} (h : t.fok = false) : KeepsPromise s t :=
  ⟨fun ht => absurd (h.symm.trans ht) (by decide), fun _ => frameValidated_of_fok h⟩

/-- PHDR on a validated frame writes the same header again (42_frame_parser.md R141). -/
theorem execPhdr_keepsPromise {s t : State} (h : exec .phdr s = .next t) : KeepsPromise s t := by
  obtain ⟨hd, hp, rfl⟩ | ⟨e, -, rfl⟩ := execPhdr_next.1 h
  · refine ⟨id, fun hs hfok => ?_⟩
    obtain ⟨f, hacc, hf, hdlen, -, hoff, hlen, hrssi⟩ := hs hfok
    have h12 : 12 ≤ f.length := by have := (acceptedFrame_iff.1 hacc).1; omega
    obtain ⟨-, rfl⟩ := parseHeader_of_holds hf h12 hp
    exact ⟨f, hacc, hf, hdlen, rfl, hoff, hlen, hrssi⟩
  · exact keepsPromise_of_fok rfl

/-- STPL on a validated frame writes the same slice again (42_frame_parser.md R150). -/
theorem execStpl_keepsPromise {s t : State} (h : exec .stpl s = .next t) : KeepsPromise s t := by
  obtain ⟨n, hp, rfl⟩ | ⟨e, -, rfl⟩ := execStpl_next.1 h
  · refine ⟨id, fun hs hfok => ?_⟩
    obtain ⟨f, hacc, hf, hdlen, hhdr, -, -, hrssi⟩ := hs hfok
    rw [hdlen] at hp
    obtain ⟨-, rfl, -⟩ := splitTransport_of_holds hf (acceptedFrame_length_lt hacc) hp
    exact ⟨f, hacc, hf, hdlen, hhdr, rfl, rfl, hrssi⟩
  · exact keepsPromise_of_fok rfl

theorem execTake_keepsPromise {s t : State} (h : exec .take s = .next t) : KeepsPromise s t := by
  obtain ⟨-, rfl⟩ | ⟨-, n, bs, r, -, rfl⟩ := execTake_next.1 h
  · exact ⟨id, id⟩
  · exact keepsPromise_of_fok rfl

theorem execPfrm_validated {s t : State} (h : exec .pfrm s = .next t) : FrameValidated t := by
  obtain ⟨r, hr, rfl⟩ | ⟨e, -, rfl⟩ := execPfrm_next.1 h
  · exact frameDone_validated hr
  · exact frameValidated_of_fok rfl

/-- Every command but PFRM leaves the frame, its header and its slice alone, or writes them again as they were, or
clears FOK (10_state.md R25). -/
theorem exec_keepsPromise {i : Instr} {s t : State} (hi : i ≠ .pfrm) (h : exec i s = .next t) : KeepsPromise s t := by
  cases i
  case dnib => obtain ⟨_, _, rfl⟩ := execDnib_writes h; exact ⟨id, id⟩
  case dbuf => obtain ⟨_, _, _, rfl⟩ := execDbuf_writes h; exact keepsPromise_of_fok rfl
  case crc => obtain ⟨_, _, rfl⟩ := execCrc_writes h; exact ⟨id, id⟩
  case crcv => obtain ⟨_, _, rfl⟩ := execCrcv_writes h; exact ⟨id, id⟩
  case phdr => exact execPhdr_keepsPromise h
  case stpl => exact execStpl_keepsPromise h
  case dkey => obtain ⟨_, _, rfl⟩ := execDkey_writes h; exact ⟨id, id⟩
  case dcry => obtain ⟨_, _, _, rfl⟩ := execDcry_writes h; exact keepsPromise_of_fok rfl
  case prdg => obtain ⟨_, _, rfl⟩ := execPrdg_writes h; exact ⟨id, id⟩
  case take => exact execTake_keepsPromise h
  case pfrm => exact absurd rfl hi
  case ppay => obtain ⟨_, _, _, _, _, _, rfl⟩ := execPpay_writes h; exact keepsPromise_of_fok rfl
  case ppkt => obtain ⟨_, _, _, _, _, _, _, _, _, _, rfl⟩ := execPpkt_writes h; exact keepsPromise_of_fok rfl

end Sys2Proof.Machine
end

section
/-! SUPPORT. What the agents outside the Core leave unchanged: the build, KEY and the promise of FOK = 1
(45_pipeline.md R230 to R242, 70_reset_and_hazards.md R280). -/

namespace Sys2Proof.Machine

/-- The action `a`, which runs no command, keeps the promise of FOK = 1 and the build, and changes KEY only when it is
reset or a Host write of KEY (10_state.md R25, R31, R45). -/
structure AgentKeeps (a : Action) (s t : State) : Prop extends KeepsPromise s t where
  build : t.build = s.build
  key : t.key = s.key ∨ a = .reset ∨ ∃ v, a = .writeReg 0x09#8 v

theorem ofNumber_eq_cmd {num : BitVec 8} : Reg.ofNumber num = some .cmd → num = cmdNumber := by
  revert num
  decide

theorem ofNumber_eq_key {num : BitVec 8} : Reg.ofNumber num = some .key → num = 0x09#8 := by
  revert num
  decide

/-- A Host read of a register changes the Host's own records alone (45_pipeline.md R242). -/
theorem readRegister_writes (s : State) (r : Reg) :
    ∃ d n, readRegister s r = { s with lastRead := d, draws := n } := by
  simp only [readRegister]
  split <;> exact ⟨_, _, rfl⟩

/-- Consuming an event changes EVLOG and the Host's record alone (10_state.md R46). -/
theorem consumeHead_writes (s : State) : ∃ es d, consumeHead s = { s with evlog := es, lastRead := d } := by
  simp only [consumeHead]
  split <;> exact ⟨_, _, rfl⟩

/-- A delivery changes the mailbox and PEND alone (45_pipeline.md R230). -/
theorem deliverPacket_writes (s : State) (bs : List Byte) (q : Int) :
    ∃ m n r p, deliverPacket s bs q = { s with mbox := m, mboxLen := n, mboxRssi := r, pend := p } := by
  simp only [deliverPacket]
  split
  · split
    · exact ⟨_, _, _, _, rfl⟩
    · exact ⟨_, _, _, _, rfl⟩
  · exact ⟨_, _, _, _, rfl⟩

/-- A Host write of at least one FRAME byte clears FOK; one of no byte changes nothing (45_pipeline.md R241). -/
theorem writeBuffer_agentKeeps (a : Action) (s : State) (b : Buffer) (start : Nat) (bs : List Byte) :
    AgentKeeps a s (writeBuffer s b start bs) := by
  cases b with
  | raw => exact ⟨⟨id, id⟩, rfl, .inl rfl⟩
  | mbox => exact ⟨⟨id, id⟩, rfl, .inl rfl⟩
  | frame =>
    cases bs with
    | nil =>
      have hs : writeBuffer s .frame start [] = s := by simp [writeBuffer, Memory.writeBytes]
      rw [hs]
      exact ⟨⟨id, id⟩, rfl, .inl rfl⟩
    | cons v rest => exact ⟨keepsPromise_of_fok (by simp [writeBuffer]), rfl, .inl rfl⟩

/-- Writing RSSI leaves it a value, so it keeps the promise of FOK = 1. -/
theorem writeRssi_keepsPromise (s : State) (q : Nat) : KeepsPromise s { s with rssi := some q } :=
  ⟨id, fun hs hfok =>
    let ⟨f, hacc, hf, hdlen, hhdr, hoff, hlen, _⟩ := hs hfok
    ⟨f, hacc, hf, hdlen, hhdr, hoff, hlen, rfl⟩⟩

/-- A Host write of a register runs a command or keeps what every agent keeps (45_pipeline.md R241). -/
theorem writeRegister_cases {num : BitVec 8} {v : Nat} {r : Reg} {s t : State} (hr : Reg.ofNumber num = some r)
    (h : writeRegister s (.writeReg num v) r v = .next t) :
    (∃ i w, issuedCommand (.writeReg num v) = some i ∧ exec i { s with cmd := w } = .next t) ∨
      AgentKeeps (.writeReg num v) s t := by
  obtain ⟨rfl, ⟨i, hi, hx⟩ | ⟨e, -, rfl⟩⟩ | ⟨-, rfl⟩ | ⟨-, rfl⟩ | ⟨-, rfl⟩ | ⟨-, -, rfl⟩ | ⟨-, -, rfl⟩ | ⟨rfl, rfl⟩ |
    ⟨-, rfl⟩ | ⟨-, rfl⟩ | rfl := writeRegister_next h
  · refine .inl ⟨i, _, ?_, hx⟩
    simp only [issuedCommand, if_pos (ofNumber_eq_cmd hr), hi, Except.toOption]
  · exact .inr ⟨⟨id, id⟩, rfl, .inl rfl⟩
  · exact .inr ⟨⟨id, id⟩, rfl, .inl rfl⟩
  · exact .inr ⟨⟨id, id⟩, rfl, .inl rfl⟩
  · exact .inr ⟨⟨id, id⟩, rfl, .inl rfl⟩
  · exact .inr ⟨⟨id, id⟩, rfl, .inl rfl⟩
  · exact .inr ⟨keepsPromise_of_fok rfl, rfl, .inl rfl⟩
  · exact .inr ⟨⟨id, id⟩, rfl, .inr (.inr ⟨v, by rw [ofNumber_eq_key hr]⟩)⟩
  · exact .inr ⟨⟨id, id⟩, rfl, .inl rfl⟩
  · exact .inr ⟨writeRssi_keepsPromise s _, rfl, .inl rfl⟩
  · exact .inr ⟨⟨id, id⟩, rfl, .inl rfl⟩

/-- An action runs the command it issues, or keeps what every agent keeps. -/
theorem perform_cases {a : Action} {s t : State} (h : perform a s = .next t) :
    (∃ i w, issuedCommand a = some i ∧ exec i { s with cmd := w } = .next t) ∨ AgentKeeps a s t := by
  obtain ⟨num, v, r, rfl, hr, hw⟩ | ⟨num, r, rfl, -, rfl⟩ | ⟨b, start, bs, rfl, -, rfl⟩ | ⟨b, start, n, rfl, -, rfl⟩ |
    ⟨rfl, rfl⟩ | ⟨bs, q, rfl, -, -, rfl⟩ | ⟨rfl, rfl⟩ := perform_next h
  · exact writeRegister_cases hr hw
  · obtain ⟨d, n, hs⟩ := readRegister_writes s r
    exact .inr (hs ▸ ⟨⟨id, id⟩, rfl, .inl rfl⟩)
  · exact .inr (writeBuffer_agentKeeps _ s b start bs)
  · exact .inr ⟨⟨id, id⟩, rfl, .inl rfl⟩
  · obtain ⟨es, d, hs⟩ := consumeHead_writes s
    exact .inr (hs ▸ ⟨⟨id, id⟩, rfl, .inl rfl⟩)
  · obtain ⟨m, n, r, p, hs⟩ := deliverPacket_writes s bs q
    exact .inr (hs ▸ ⟨⟨id, id⟩, rfl, .inl rfl⟩)
  · exact .inr ⟨keepsPromise_of_fok rfl, rfl, .inr (.inl rfl)⟩

/-- Settles O57: PFRM establishes a validated frame, and every other command and every agent keeps the promise. -/
theorem stepKeepsFokMeaningAValidatedFrame : Obligations.StepKeepsFokMeaningAValidatedFrame := by
  intro s t hs h
  obtain ⟨-, rfl⟩ | ⟨a, rest, -, hp⟩ := step_cases h
  · exact hs
  · obtain ⟨i, w, -, hx⟩ | hk := perform_cases hp
    · by_cases hi : i = .pfrm
      · exact execPfrm_validated (hi ▸ hx)
      · exact (exec_keepsPromise hi hx).validated hs
    · exact hk.validated hs

/-- Settles O58: no command but PFRM, and no other action, lets FOK rise. -/
theorem onlyPfrmSetsFok : Obligations.OnlyPfrmSetsFok := by
  intro s t h hs ht
  have hrise : ¬ (t.fok = true → s.fok = true) := fun hk => absurd (hs.symm.trans (hk ht)) (by decide)
  obtain ⟨-, rfl⟩ | ⟨a, rest, ha, hp⟩ := step_cases h
  · exact absurd id hrise
  · obtain ⟨i, w, hi, hx⟩ | hk := perform_cases hp
    · by_cases hpfrm : i = .pfrm
      · exact ⟨a, rest, ha, hpfrm ▸ hi⟩
      · exact absurd (exec_keepsPromise hpfrm hx).fok hrise
    · exact absurd hk.fok hrise

/-- Settles O59: no command writes the build or KEY, and of the agents' actions only reset and a Host write of KEY
change KEY. -/
theorem stepKeepsBuildAndKey : Obligations.StepKeepsBuildAndKey := by
  intro s t h
  obtain ⟨-, rfl⟩ | ⟨a, rest, ha, hp⟩ := step_cases h
  · exact ⟨rfl, .inl rfl⟩
  · obtain ⟨i, w, -, hx⟩ | hk := perform_cases hp
    · obtain ⟨-, -, -, -, hkey, -, -, -, hbuild, -⟩ := whatNoCommandWrites i _ t hx
      exact ⟨hbuild, .inl hkey⟩
    · exact ⟨hk.build, hk.key.imp_right fun hkey => ⟨a, rest, ha, hkey⟩⟩

end Sys2Proof.Machine
end

section
/-! SUPPORT. The ranges of the reading registers after a successful PRDG (10_state.md R37). -/

namespace Sys2Proof.Machine

theorem yearBits_lt (o : YearOrder) (p14 p15 : Byte) : yearBits o p14 p15 < 128 := by
  have h3 := (p14.extractLsb' 5 3).isLt
  have h4 := (p15.extractLsb' 4 4).isLt
  cases o <;> simp only [yearBits] <;> omega

/-- The century rule puts a 7-bit year into 1981 to 2080 (44_reading_parser.md R203). -/
theorem fullYear_bounds {y : Nat} (h : y < 128) : 1981 ≤ fullYear y ∧ fullYear y ≤ 2080 := by
  simp only [fullYear]
  split <;> omega

/-- The interval is four times a power of two that s0[3:0] names (44_reading_parser.md R193). -/
theorem intervalField_toNat (s0 : Byte) : (intervalField s0).toNat = 4 * 2 ^ (s0.extractLsb' 0 4).toNat := by
  have hk : 2 ^ ((s0.extractLsb' 0 4).toNat + 2) < 2 ^ 32 :=
    Nat.pow_lt_pow_right (by decide) (by have := (s0.extractLsb' 0 4).isLt; omega)
  have hone : (1#32).toNat = 1 := rfl
  rw [intervalField, BitVec.toNat_shiftLeft, Nat.shiftLeft_eq, hone, Nat.one_mul, Nat.mod_eq_of_lt hk]
  ring

/-- u[2:0] - 6 in 4 bits signed lies in -6 to 1 (44_reading_parser.md R197). -/
theorem exponentField_bounds (u : Byte) : -6 ≤ (exponentField u).toInt ∧ (exponentField u).toInt ≤ 1 := by
  rw [exponentField]
  generalize u.extractLsb' 0 3 = x
  revert x
  decide

/-- Settles O32: a PRDG that answers OK holds a reading, whose year, interval and exponent have these ranges. -/
theorem readingRanges : Obligations.ReadingRanges := by
  intro s t h hok
  obtain ⟨off, len, -, -, ⟨r, hr, rfl⟩ | ⟨e, he, rfl⟩⟩ := execPrdg_next.1 h
  · obtain ⟨d, lo, hi, id, q, -, -, -, -, -, -, -, -, -, -, rfl⟩ := parseReading_ok.1 hr
    have hy := fullYear_bounds (yearBits_lt s.build.yearOrder (byteAt hi 8) (byteAt hi 9))
    refine ⟨_, _, _, ((byteAt lo 1).extractLsb' 0 4).toNat, rfl, rfl, rfl, ?_, ?_, ?_, intervalField_toNat _,
      exponentField_bounds _⟩
    · simp only [readingOf, BitVec.toNat_ofNat]; omega
    · simp only [readingOf, BitVec.toNat_ofNat]; omega
    · have := ((byteAt lo 1).extractLsb' 0 4).isLt; omega
  · obtain rfl : e = .ok := hok
    obtain he | he | he := parseReading_status he <;> cases he

end Sys2Proof.Machine
end

section
/-! SUPPORT. STATUS, the operand registers, the Host's registers and reset (10_state.md R21 to R28, R47). -/

namespace Sys2Proof.Machine

/-- A step with an action left performs the first one. -/
theorem step_of_schedule {s : State} {a : Action} {rest : List Action} (h : s.schedule = a :: rest) :
    step s = perform a { s with schedule := rest } := by
  simp only [step, runNext, h]

/-- Settles O4: the action taken is a write of CMD, and a write of CMD runs what its word decodes to. -/
theorem stepRunsTheDecodedCommand : Obligations.StepRunsTheDecodedCommand := by
  intro s v rest i hs hi
  have hcmd : Reg.ofNumber 0x00#8 = some .cmd := rfl
  simp only [step_of_schedule hs, perform, hcmd, writeRegister, writeCmd, hi]

/-- The three fields of STATUS and its reserved bit (10_state.md R24). -/
theorem statusByte_fields (s : State) :
    (statusByte s).extractLsb' 0 5 = s.err.code ∧ (statusByte s).getLsbD 5 = s.fok ∧
      (statusByte s).getLsbD 6 = s.pend ∧ (statusByte s).getLsbD 7 = false := by
  refine ⟨BitVec.extractLsb'_append_eq_right, ?_, ?_, ?_⟩
  · rw [statusByte, BitVec.getLsbD_append, BitVec.getLsbD_append]; simp
  · rw [statusByte, BitVec.getLsbD_append, BitVec.getLsbD_append, BitVec.getLsbD_append]; simp
  · rw [statusByte, BitVec.getLsbD_append, BitVec.getLsbD_append, BitVec.getLsbD_append]; simp

theorem errCode_le (e : Err) : e.code.toNat ≤ 0x0D := by
  cases e <;> decide

/-- Settles O6, from the four fields of STATUS and the 14 codes. -/
theorem statusByteLayout : Obligations.StatusByteLayout := by
  refine ⟨fun s => ?_, by decide⟩
  obtain ⟨herr, hfok, hpend, hrsv⟩ := statusByte_fields s
  exact ⟨herr, hfok, hpend, hrsv, errCode_le s.err⟩

theorem opaNat_none {s : State} (h : s.opa = none) : opaNat s = .error (.undef (.reg .opa)) := by
  simp only [opaNat, h, need_none]; rfl

theorem opaNat_some {s : State} {a : BitVec 16} (h : s.opa = some a) : opaNat s = .ok a.toNat := by
  simp only [opaNat, h, need_some]; rfl

theorem opbNat_none {s : State} (h : s.opb = none) : opbNat s = .error (.undef (.reg .opb)) := by
  simp only [opbNat, h, need_none]; rfl

theorem opbNat_some {s : State} {b : BitVec 16} (h : s.opb = some b) : opbNat s = .ok b.toNat := by
  simp only [opbNat, h, need_some]; rfl

/-- CRCV with OPC = UNDEF stops at OPC once its region is read (41_frame_crc.md R124). -/
theorem crcvPair_opc_none {s : State} {off len : BitVec 16} {bs : List Byte} (hoff : s.opa = some off)
    (hlen : s.opb = some len) (hbs : regionRead s off.toNat len.toNat = .ok bs) (hopc : s.opc = none) :
    crcvPair s = .error (.undef (.reg .opc)) := by
  simp only [crcvPair, opaNat_some hoff, opbNat_some hlen, hbs, hopc, need_none, bind, Except.bind]

/-- The commands that read OPA first stop there when it holds UNDEF. -/
theorem exec_opa_none {s : State} (h : s.opa = none) :
    exec .dnib s = .fault (.readUndef (.reg .opa)) ∧ exec .crc s = .fault (.readUndef (.reg .opa)) ∧
      exec .crcv s = .fault (.readUndef (.reg .opa)) ∧ exec .dcry s = .fault (.readUndef (.reg .opa)) ∧
      exec .prdg s = .fault (.readUndef (.reg .opa)) := by
  refine ⟨?_, ?_, ?_, ?_, ?_⟩
  · simp only [exec, execDnib, h, need_none, bind, Except.bind, conclude_undef]
  · simp only [exec, execCrc, opaNat_none h, bind, Except.bind, conclude_undef]
  · simp only [exec, execCrcv, crcvPair, opaNat_none h, bind, Except.bind]
  · simp only [exec, execDcry, h]
  · simp only [exec, execPrdg, opaNat_none h, bind, Except.bind, conclude_undef]

/-- The commands that read OPB after OPA stop there when it holds UNDEF. -/
theorem exec_opb_none {s : State} {a : BitVec 16} (ha : s.opa = some a) (h : s.opb = none) :
    exec .crc s = .fault (.readUndef (.reg .opb)) ∧ exec .crcv s = .fault (.readUndef (.reg .opb)) ∧
      exec .dcry s = .fault (.readUndef (.reg .opb)) ∧ exec .prdg s = .fault (.readUndef (.reg .opb)) := by
  refine ⟨?_, ?_, ?_, ?_⟩
  · simp only [exec, execCrc, opaNat_some ha, opbNat_none h, bind, Except.bind, conclude_undef]
  · simp only [exec, execCrcv, crcvPair, opaNat_some ha, opbNat_none h, bind, Except.bind]
  · simp only [exec, execDcry, ha, h]
  · simp only [exec, execPrdg, opaNat_some ha, opbNat_none h, bind, Except.bind, conclude_undef]

/-- Settles O7: OPA, OPB and OPC are read in this order, OPC once the region of CRCV is read. -/
theorem undefinedOperandFaults : Obligations.UndefinedOperandFaults := by
  intro s
  refine ⟨exec_opa_none, fun h => ?_, fun a ha h => exec_opb_none ha h, ?_⟩
  · simp only [exec, execDbuf, h]
  · intro off len d bs hoff hlen hopc hd hle hbl hbs
    have hr : regionRead s off.toNat len.toNat = .ok bs := regionRead_ok.2 ⟨d, hd, hle, hbl, hbs⟩
    simp only [exec, execCrcv, crcvPair_opc_none hoff hlen hr hopc]

/-- The unassigned register numbers (10_state.md R22). -/
theorem ofNumber_unassigned {num : BitVec 8} :
    num.toNat = 0x0F ∨ (0x1D ≤ num.toNat ∧ num.toNat ≤ 0x1F) ∨ 0x2E ≤ num.toNat → Reg.ofNumber num = none := by
  revert num
  decide

/-- Settles O49, from the register map and the bounds of a Host write of RAW_LEN and DLEN. -/
theorem hostRegisterDuties : Obligations.HostRegisterDuties := by
  intro s v rest
  have hraw : Reg.ofNumber 0x05#8 = some .rawLen := rfl
  have hdlen : Reg.ofNumber 0x06#8 = some .dlen := rfl
  refine ⟨fun hs => ?_, fun hs => ?_, fun num hnum => ⟨fun hs => ?_, fun hs => ?_⟩⟩
  · simp only [step_of_schedule hs, perform, hraw, writeRegister]
  · simp only [step_of_schedule hs, perform, hdlen, writeRegister, clearFok]
  · simp only [step_of_schedule hs, perform, ofNumber_unassigned hnum]
  · simp only [step_of_schedule hs, perform, ofNumber_unassigned hnum]

/-- After reset every register but CMD, STATUS, RAW_LEN and DLEN holds UNDEF (10_state.md R47). -/
theorem regValue_resetBlock {s : State} {r : Reg} (hr : r ∉ [Reg.cmd, .status, .rawLen, .dlen]) :
    regValue (resetBlock s) r = none := by
  cases r <;> simp at hr <;> rfl

/-- Settles O54: reset performs `resetBlock`, whose cells are the reset values. -/
theorem resetLeavesTheResetValues : Obligations.ResetLeavesTheResetValues := by
  intro s rest hs
  refine ⟨resetBlock { s with schedule := rest }, step_of_schedule hs, rfl, ?_, rfl, rfl, rfl,
    fun r hr => regValue_resetBlock hr, fun a => ⟨rfl, rfl, rfl⟩, rfl, rfl, rfl, rfl⟩
  simp only [statusByte, resetBlock_pend, resetBlock_fok, resetBlock_err]
  decide

/-- Settles O60: the reset state holds no byte, no length above 0, no signal strength, and FOK = 0. -/
theorem resetMeetsTheInvariants : Obligations.ResetMeetsTheInvariants := by
  refine ⟨fun c hc => ⟨?_, ?_, ?_, ?_, ?_⟩, rfl, by decide⟩
  · exact ⟨.nil, .nil, .nil⟩
  · exact ⟨hc, by simp [State.resetWith], by simp [State.resetWith], by simp [State.resetWith], Nat.zero_le _,
      by simp [State.resetWith, cellAtMost], rfl⟩
  · exact fun h => absurd h Bool.false_ne_true
  · exact ⟨rfl, rfl, rfl⟩
  · exact frameValidated_of_fok rfl

end Sys2Proof.Machine
end

section
/-! SUPPORT. What every step keeps of the buffers, the valid lengths, the mailbox and the signal strengths
(20_memory.md R60, R61, R74, 10_state.md R34). -/

namespace Sys2Proof.Machine

/-- No cell and no valid length lies beyond a capacity, a full mailbox is complete, and every signal strength fits its
width (20_memory.md R61, R74, 10_state.md R34). -/
abbrev BlockSound (s : State) : Prop := WithinCapacity s ∧ MailboxComplete s ∧ RssiInWidth s

/-- From `s` to `t` the buffers stay in canonical form and the block stays sound. -/
abbrev KeepsInvariants (s t : State) : Prop :=
  (BuffersCanonical s → BuffersCanonical t) ∧ (BlockSound s → BlockSound t)

theorem KeepsInvariants.trans {s t u : State} (h : KeepsInvariants s t) (h' : KeepsInvariants t u) :
    KeepsInvariants s u :=
  ⟨h'.1 ∘ h.1, h'.2 ∘ h.2⟩

theorem cellAtMost_some {w : Nat} {v : BitVec w} {bound : Nat} :
    cellAtMost (some v) bound = true ↔ v.toNat ≤ bound := by
  simp [cellAtMost]

theorem cellAtMost_ofNat {w n bound : Nat} (h : n ≤ bound) : cellAtMost (some (BitVec.ofNat w n)) bound = true :=
  cellAtMost_some.2 (by rw [BitVec.toNat_ofNat]; exact (Nat.mod_le _ _).trans h)

/-- FRAME holds whatever DBUF makes of a full RAW (00_scope.md R8). -/
theorem decodedLength_le_frameMax {c : Config} {n : Nat} (hc : c.wf = true) (hn : n ≤ c.rawMax) :
    decodedLength n ≤ c.frameMax := by
  simp only [Config.wf, Config.frameMaxWf, Bool.and_eq_true, decide_eq_true_eq] at hc
  have hmax : frameBytes c.rawMax ≤ c.frameMax := (le_max_right _ _).trans hc.1.1.1.2
  simp only [frameBytes] at hmax
  simp only [decodedLength, symbolCount]
  omega

/-- DBUF decodes no more raw bytes than RAW_LEN counts (40_line_codec.md R104). -/
theorem le_rawLen_of_dbufBytes {s : State} {n : Nat} {bs : List Byte} (h : dbufBytes s n = .ok bs) :
    n ≤ s.rawLen.toNat := by
  simp only [dbufBytes] at h
  split at h
  · cases h
  · omega

/-- A reading's signal strength is the one in RSSI (44_reading_parser.md R190). -/
theorem parseReading_rssi {c : Config} {idStr : Cell 88} {rssi : RssiCell} {frame : Memory} {dlen : Cell 16}
    {off len : Nat} {r : Reading} (h : parseReading c idStr rssi frame dlen off len = .ok r) : rssi = some r.rssi := by
  obtain ⟨d, lo, hi, id, q, -, -, -, -, -, -, -, -, -, hq, rfl⟩ := parseReading_ok.1 h
  exact hq

/-! ### Writes of FRAME with DLEN, and of the reading registers -/

/-- A new FRAME and DLEN that are canonical and within capacity wherever the old ones were. -/
theorem keepsInvariants_frame {s : State} {m : Memory} {d : Cell 16} (hwf : Memory.wf s.frame → Memory.wf m)
    (hcap : BlockSound s → Memory.below m s.build.frameMax ∧ cellAtMost d s.build.frameMax = true) :
    KeepsInvariants s { s with frame := m, dlen := d } := by
  refine ⟨fun ⟨hraw, hframe, hmbox⟩ => ⟨hraw, hwf hframe, hmbox⟩, fun hs => ?_⟩
  obtain ⟨hframe, hdlen⟩ := hcap hs
  obtain ⟨⟨hbuild, hraw, -, hmbox, hrawLen, -, hmboxLen⟩, hrest⟩ := hs
  exact ⟨⟨hbuild, hraw, hframe, hmbox, hrawLen, hdlen, hmboxLen⟩, hrest⟩

/-- New reading registers whose signal strength, if any, is the one in RSSI. -/
theorem keepsInvariants_rd {s : State} {rd : ReadingRegs} (h : rd.rssi = none ∨ rd.rssi = s.rssi) :
    KeepsInvariants s { s with rd := rd } := by
  refine ⟨id, fun ⟨hcap, hfull, hrssi, hmbox, _⟩ => ⟨hcap, hfull, hrssi, hmbox, ?_⟩⟩
  obtain h | h := h
  · simp [h]
  · simpa only [h] using hrssi

/-- The bytes DBUF decodes fit FRAME, and DLEN counts them (40_line_codec.md R104). -/
theorem dbufBytes_keepsInvariants {s : State} {n : Nat} {bs : List Byte} (h : dbufBytes s n = .ok bs) :
    KeepsInvariants s
      { s with frame := Memory.writeBytes s.frame 0 bs, dlen := some (BitVec.ofNat 16 bs.length) } := by
  refine keepsInvariants_frame (Memory.writeBytes_wf 0 bs) fun hs => ?_
  obtain ⟨⟨hbuild, -, hframe, -, hrawLen, -, -⟩, -⟩ := hs
  have hfits : bs.length ≤ s.build.frameMax :=
    dbufBytes_length h ▸ decodedLength_le_frameMax hbuild ((le_rawLen_of_dbufBytes h).trans hrawLen)
  exact ⟨Memory.writeBytes_below hframe (by omega), cellAtMost_ofNat hfits⟩

/-- A region decrypted in place lies within DLEN (43_cipher.md R175). -/
theorem decrypt_keepsInvariants {s : State} {seed : Cell 32} {off len : Nat} {r : List Byte × BitVec 32}
    (h : decrypt seed s.frame s.dlen off len = .ok r) :
    KeepsInvariants s { s with frame := Memory.writeBytes s.frame off r.1 } := by
  refine keepsInvariants_frame (Memory.writeBytes_wf off r.1) fun hs => ?_
  obtain ⟨⟨-, -, hframe, -, -, hdlen, -⟩, -⟩ := hs
  obtain ⟨d, -, -, hd, hle, -⟩ := decrypt_ok.1 h
  have hcap : d.toNat ≤ s.build.frameMax := cellAtMost_some.1 (hd ▸ hdlen)
  exact ⟨Memory.writeBytes_below hframe (by rw [decrypt_length h]; omega), hdlen⟩

theorem poison_keepsInvariants (s : State) (lo hi : Nat) :
    KeepsInvariants s { s with frame := Memory.poison s.frame lo hi } :=
  keepsInvariants_frame (Memory.poison_wf lo hi)
    fun ⟨⟨_, _, hframe, _, _, hdlen, _⟩, _⟩ => ⟨Memory.poison_below lo hi hframe, hdlen⟩

theorem undefDlen_keepsInvariants (s : State) : KeepsInvariants s { s with dlen := none } :=
  keepsInvariants_frame id fun ⟨⟨_, _, hframe, _⟩, _⟩ => ⟨hframe, rfl⟩

/-! ### Commands -/

theorem execDbuf_keepsInvariants {s t : State} (h : exec .dbuf s = .next t) : KeepsInvariants s t := by
  obtain ⟨n, -, ⟨bs, hbs, rfl⟩ | ⟨e, -, rfl⟩⟩ := execDbuf_next.1 h
  · exact dbufBytes_keepsInvariants hbs
  · exact (undefDlen_keepsInvariants s).trans (poison_keepsInvariants { s with dlen := none } _ _)

theorem execDcry_keepsInvariants {s t : State} (h : exec .dcry s = .next t) : KeepsInvariants s t := by
  obtain ⟨off, len, -, -, ⟨r, hr, rfl⟩ | ⟨e, -, rfl⟩⟩ := execDcry_next.1 h
  · exact decrypt_keepsInvariants hr
  · exact poison_keepsInvariants s _ _

theorem execPrdg_keepsInvariants {s t : State} (h : exec .prdg s = .next t) : KeepsInvariants s t := by
  obtain ⟨off, len, -, -, ⟨r, hr, rfl⟩ | ⟨e, -, rfl⟩⟩ := execPrdg_next.1 h
  · exact keepsInvariants_rd (rd := readingRegsOf r) (.inr (parseReading_rssi hr).symm)
  · exact keepsInvariants_rd (rd := ReadingRegs.undef) (.inl rfl)

/-- TAKE moves a packet of MBOX_LEN bytes, which RAW holds since MBOX does, and its signal strength
(45_pipeline.md R220). -/
theorem execTake_keepsInvariants {s t : State} (h : exec .take s = .next t) : KeepsInvariants s t := by
  obtain ⟨-, rfl⟩ | ⟨-, n, bs, r, hr, rfl⟩ := execTake_next.1 h
  · exact ⟨id, id⟩
  · obtain ⟨hn, hbs, -, hq⟩ := mailboxPacket_ok.1 hr
    refine ⟨fun ⟨hraw, hframe, hmbox⟩ => ⟨Memory.writeBytes_wf 0 bs hraw, hframe, hmbox⟩, fun hs => ?_⟩
    obtain ⟨⟨hbuild, hraw, hframe, hmbox, -, hdlen, hmboxLen⟩, -, -, hmboxRssi, hrd⟩ := hs
    have hlen : n.toNat ≤ s.build.rawMax := cellAtMost_some.1 (hn ▸ hmboxLen)
    have hfits : 0 + bs.length ≤ s.build.rawMax := by omega
    exact ⟨⟨hbuild, Memory.writeBytes_below hraw hfits, hframe, hmbox, hlen, hdlen, hmboxLen⟩,
      fun hpend => absurd hpend Bool.false_ne_true, hq ▸ hmboxRssi, hmboxRssi, hrd⟩

theorem execPfrm_keepsInvariants {s t : State} (h : exec .pfrm s = .next t) : KeepsInvariants s t := by
  obtain ⟨r, hr, rfl⟩ | ⟨e, -, rfl⟩ := execPfrm_next.1 h
  · obtain ⟨l, -, -, hbs, hframe, -⟩ := frameStage_ok.1 hr
    have hk := dbufBytes_keepsInvariants hbs
    rw [← hframe] at hk
    exact hk
  · exact keepsInvariants_frame (s := s) (m := []) (d := none) (fun _ => .nil) fun _ => ⟨by simp, rfl⟩

/-- PPAY decrypts its region in place, then reads the reading (45_pipeline.md R224). -/
theorem execPpay_keepsInvariants {s t : State} (h : exec .ppay s = .next t) : KeepsInvariants s t := by
  obtain ⟨-, rfl⟩ | ⟨-, off, len, -, -, ⟨r, hr, rfl⟩ | ⟨e, -, rfl⟩⟩ := execPpay_next.1 h
  · exact ⟨id, id⟩
  · obtain ⟨ps, -, -, hdec, hframe, hrd⟩ := payloadStage_ok.1 hr
    have hk := decrypt_keepsInvariants hdec
    rw [← hframe] at hk
    exact hk.trans (keepsInvariants_rd (rd := readingRegsOf r.reading) (.inr (parseReading_rssi hrd).symm))
  · exact (poison_keepsInvariants s _ _).trans (keepsInvariants_rd (rd := ReadingRegs.undef) (.inl rfl))

/-- Every command keeps the invariants; PPKT is PFRM, then PPAY (45_pipeline.md R227). -/
theorem exec_keepsInvariants {i : Instr} {s t : State} (h : exec i s = .next t) : KeepsInvariants s t := by
  cases i
  case dnib => obtain ⟨_, _, rfl⟩ := execDnib_writes h; exact ⟨id, id⟩
  case dbuf => exact execDbuf_keepsInvariants h
  case crc => obtain ⟨_, _, rfl⟩ := execCrc_writes h; exact ⟨id, id⟩
  case crcv => obtain ⟨_, _, rfl⟩ := execCrcv_writes h; exact ⟨id, id⟩
  case phdr => obtain ⟨_, _, _, rfl⟩ := execPhdr_writes h; exact ⟨id, id⟩
  case stpl => obtain ⟨_, _, _, _, rfl⟩ := execStpl_writes h; exact ⟨id, id⟩
  case dkey => obtain ⟨_, _, rfl⟩ := execDkey_writes h; exact ⟨id, id⟩
  case dcry => exact execDcry_keepsInvariants h
  case prdg => exact execPrdg_keepsInvariants h
  case take => exact execTake_keepsInvariants h
  case pfrm => exact execPfrm_keepsInvariants h
  case ppay => exact execPpay_keepsInvariants h
  case ppkt =>
    obtain ⟨u, hu, ⟨-, rfl⟩ | ⟨-, hp⟩⟩ := execPpkt_next.1 h
    · exact execPfrm_keepsInvariants hu
    · exact (execPfrm_keepsInvariants hu).trans (execPpay_keepsInvariants hp)

/-! ### Host, Radio and platform -/

theorem writeRawLen_keepsInvariants {s : State} {v : Nat} (hv : v ≤ s.build.rawMax) :
    KeepsInvariants s { s with rawLen := BitVec.ofNat 16 v } := by
  refine ⟨id, fun ⟨⟨hbuild, hraw, hframe, hmbox, _, hlens⟩, hrest⟩ =>
    ⟨⟨hbuild, hraw, hframe, hmbox, ?_, hlens⟩, hrest⟩⟩
  exact cellAtMost_some.1 (cellAtMost_ofNat hv)

theorem writeDlen_keepsInvariants {s : State} {v : Nat} (hv : v ≤ s.build.frameMax) :
    KeepsInvariants s { s with dlen := some (BitVec.ofNat 16 v) } :=
  keepsInvariants_frame id fun ⟨⟨_, _, hframe, _⟩, _⟩ => ⟨hframe, cellAtMost_ofNat hv⟩

/-- A Host write of RSSI is cut to RSSI_W bits (45_pipeline.md R241). -/
theorem writeRssi_keepsInvariants (s : State) (v : Nat) :
    KeepsInvariants s { s with rssi := some (v % 2 ^ s.build.rssiW) } :=
  ⟨id, fun ⟨hcap, hfull, _, hrest⟩ => ⟨hcap, hfull, by simpa using Nat.mod_lt v (Nat.two_pow_pos _), hrest⟩⟩

/-- A Host write of a register runs a command, writes a valid length or RSSI, or writes what the invariants do not
speak of (45_pipeline.md R241). -/
theorem writeRegister_keepsInvariants {a : Action} {r : Reg} {v : Nat} {s t : State}
    (h : writeRegister s a r v = .next t) : KeepsInvariants s t := by
  obtain ⟨-, ⟨i, -, hx⟩ | ⟨e, -, rfl⟩⟩ | ⟨-, rfl⟩ | ⟨-, rfl⟩ | ⟨-, rfl⟩ | ⟨-, hv, rfl⟩ | ⟨-, hv, rfl⟩ | ⟨-, rfl⟩ |
    ⟨-, rfl⟩ | ⟨-, rfl⟩ | rfl := writeRegister_next h
  · have hk := exec_keepsInvariants hx
    exact hk
  · exact ⟨id, id⟩
  · exact ⟨id, id⟩
  · exact ⟨id, id⟩
  · exact ⟨id, id⟩
  · exact writeRawLen_keepsInvariants hv
  · exact writeDlen_keepsInvariants hv
  · exact ⟨id, id⟩
  · exact ⟨id, id⟩
  · exact writeRssi_keepsInvariants s v
  · exact ⟨id, id⟩

/-- Bytes written by an access that is none or ends within the capacity stay below it (45_pipeline.md R240). -/
theorem writeBytes_below_of_access {m : Memory} {a cap : Nat} {bs : List Byte} (h : Memory.below m cap)
    (hb : bs.length = 0 ∨ a + bs.length ≤ cap) : Memory.below (Memory.writeBytes m a bs) cap := by
  obtain hb | hb := hb
  · obtain rfl := List.length_eq_zero_iff.1 hb
    exact h
  · exact Memory.writeBytes_below h hb

theorem accessAllowed_raw {c : Config} {start n : Nat} :
    accessAllowed c .raw start n = true ↔ n = 0 ∨ start + n ≤ c.rawMax := by
  simp [accessAllowed]

theorem accessAllowed_frame {c : Config} {start n : Nat} :
    accessAllowed c .frame start n = true ↔ n = 0 ∨ start + n ≤ c.frameMax := by
  simp [accessAllowed]

theorem writeBuffer_keepsInvariants {s : State} {b : Buffer} {start : Nat} {bs : List Byte}
    (h : accessAllowed s.build b start bs.length = true) : KeepsInvariants s (writeBuffer s b start bs) := by
  cases b with
  | raw =>
    exact ⟨fun ⟨hraw, hrest⟩ => ⟨Memory.writeBytes_wf start bs hraw, hrest⟩,
      fun ⟨⟨hbuild, hraw, hcap⟩, hrest⟩ =>
        ⟨⟨hbuild, writeBytes_below_of_access hraw (accessAllowed_raw.1 h), hcap⟩, hrest⟩⟩
  | frame =>
    exact keepsInvariants_frame (d := s.dlen) (Memory.writeBytes_wf start bs)
      fun ⟨⟨_, _, hframe, _, _, hdlen, _⟩, _⟩ =>
        ⟨writeBytes_below_of_access hframe (accessAllowed_frame.1 h), hdlen⟩
  | mbox => exact ⟨id, id⟩

/-- A two's complement pattern lies below 2^RSSI_W (10_state.md R34). -/
theorem rssiPattern_lt (c : Config) (q : Int) : rssiPattern c q < 2 ^ c.rssiW := by
  have hpos : (0 : Int) < 2 ^ c.rssiW := by positivity
  have hlt := Int.emod_lt_of_pos q hpos
  have hnn := Int.emod_nonneg q hpos.ne'
  zify
  rw [rssiPattern, Int.toNat_of_nonneg hnn]
  exact hlt

/-- An accepted packet makes the mailbox complete (20_memory.md R74, 45_pipeline.md R230). -/
theorem acceptPacket_mailboxComplete (s : State) (bs : List Byte) (q : Int) :
    MailboxComplete (acceptPacket s bs q) := by
  refine fun _ => ⟨_, _, rfl, rfl, fun i hi => ?_⟩
  have hi' : i < bs.length := hi.trans_le (by rw [BitVec.toNat_ofNat]; exact Nat.mod_le _ _)
  have hread := Memory.writeBytes_holds s.mbox 0 bs i hi'
  rw [Nat.zero_add] at hread
  exact Option.isSome_iff_exists.2 ⟨_, hread⟩

theorem acceptPacket_keepsInvariants {s : State} {bs : List Byte} {q : Int} (h : bs.length ≤ s.build.rawMax) :
    KeepsInvariants s (acceptPacket s bs q) := by
  refine ⟨fun ⟨hraw, hframe, hmbox⟩ => ⟨hraw, hframe, Memory.writeBytes_wf 0 bs hmbox⟩, fun hs => ?_⟩
  obtain ⟨⟨hbuild, hraw, hframe, hmbox, hrawLen, hdlen, -⟩, -, hrssi, -, hrd⟩ := hs
  have hfits : 0 + bs.length ≤ s.build.rawMax := by omega
  exact ⟨⟨hbuild, hraw, hframe, Memory.writeBytes_below hmbox hfits, hrawLen, hdlen, cellAtMost_ofNat h⟩,
    acceptPacket_mailboxComplete s bs q, hrssi, by simp [rssiPattern_lt], hrd⟩

/-- A delivery is accepted whole or changes nothing (45_pipeline.md R230). -/
theorem deliverPacket_eq (s : State) (bs : List Byte) (q : Int) :
    deliverPacket s bs q = s ∨ deliverPacket s bs q = acceptPacket s bs q := by
  simp only [deliverPacket]
  split
  · split
    · exact .inl rfl
    · exact .inr rfl
  · exact .inr rfl

theorem deliverPacket_keepsInvariants {s : State} {bs : List Byte} {q : Int} (h : bs.length ≤ s.build.rawMax) :
    KeepsInvariants s (deliverPacket s bs q) := by
  obtain hd | hd := deliverPacket_eq s bs q
  · rw [hd]; exact ⟨id, id⟩
  · rw [hd]; exact acceptPacket_keepsInvariants h

/-- Reset keeps the invariants: in a well-formed build the reset state meets them (70_reset_and_hazards.md R281). -/
theorem resetBlock_keepsInvariants (s : State) : KeepsInvariants s (resetBlock s) := by
  refine ⟨fun _ => ⟨.nil, .nil, .nil⟩, fun ⟨⟨hbuild, _⟩, _⟩ => ?_⟩
  obtain ⟨-, hcap, hfull, hrssi, -⟩ := resetMeetsTheInvariants.1 s.build hbuild
  exact ⟨hcap, hfull, hrssi⟩

theorem perform_keepsInvariants {a : Action} {s t : State} (h : perform a s = .next t) : KeepsInvariants s t := by
  obtain ⟨num, v, r, -, -, hw⟩ | ⟨num, r, -, -, rfl⟩ | ⟨b, start, bs, -, hb, rfl⟩ | ⟨b, start, n, -, -, rfl⟩ |
    ⟨-, rfl⟩ | ⟨bs, q, -, hlen, -, rfl⟩ | ⟨-, rfl⟩ := perform_next h
  · exact writeRegister_keepsInvariants hw
  · obtain ⟨d, n, hs⟩ := readRegister_writes s r
    exact hs ▸ ⟨id, id⟩
  · exact writeBuffer_keepsInvariants hb
  · exact ⟨id, id⟩
  · obtain ⟨es, d, hs⟩ := consumeHead_writes s
    exact hs ▸ ⟨id, id⟩
  · exact deliverPacket_keepsInvariants hlen
  · exact resetBlock_keepsInvariants s

theorem step_keepsInvariants {s t : State} (h : step s = .next t) : KeepsInvariants s t := by
  obtain ⟨-, rfl⟩ | ⟨a, rest, -, hp⟩ := step_cases h
  · exact ⟨id, id⟩
  · have hk := perform_keepsInvariants hp
    exact hk

/-- Settles O55: every buffer operation keeps the canonical form. -/
theorem stepKeepsBuffersCanonical : Obligations.StepKeepsBuffersCanonical :=
  fun _ _ hs h => (step_keepsInvariants h).1 hs

/-- Settles O56: every write is bounded by RAW_LEN, DLEN, MBOX_LEN or a duty of Host and Radio, which are bounded by the
capacities. -/
theorem stepKeepsTheBlockWithinCapacity : Obligations.StepKeepsTheBlockWithinCapacity :=
  fun _ _ hcap hfull hrssi h => (step_keepsInvariants h).2 ⟨hcap, hfull, hrssi⟩

end Sys2Proof.Machine
end

section
/-! SUPPORT. What a Host access to the buffers, a Host read of a register and the consumption of an event do
(20_memory.md R68, 45_pipeline.md R240 to R242, 10_state.md R46). -/

namespace Sys2Proof.Machine

theorem drawBytes_length (m : Memory) (k a n : Nat) : (drawBytes m k a n).1.length = n := by
  induction n generalizing k a with
  | zero => rfl
  | succ n ih =>
    simp only [drawBytes]
    split <;> simp [ih]

/-- A Host read of buffer bytes returns each cell's value where it holds one (45_pipeline.md R242). -/
theorem drawBytes_returns (m : Memory) (k a n : Nat) : Spec.returns m a (drawBytes m k a n).1 := by
  induction n generalizing k a with
  | zero => exact fun i v hi => absurd hi (Nat.not_lt_zero i)
  | succ n ih =>
    intro i v hi hv
    simp only [drawBytes] at hi ⊢
    cases i with
    | zero =>
      rw [Nat.add_zero] at hv
      simp only [hv]
      rfl
    | succ i =>
      rw [show a + (i + 1) = a + 1 + i by omega] at hv
      split at hi
      · exact ih _ _ i v (by simpa using hi) hv
      · exact ih _ _ i v (by simpa using hi) hv

/-- A Host write of buffer bytes is done where it is allowed and a HostFault elsewhere (45_pipeline.md R240). -/
theorem step_writeBuf {s : State} {b : Buffer} {start : Nat} {bs : List Byte} {rest : List Action}
    (h : s.schedule = .writeBuf b start bs :: rest) :
    step s = if accessAllowed s.build b start bs.length then .next (writeBuffer { s with schedule := rest } b start bs)
      else .fault (.hostFault (.writeBuf b start bs)) :=
  step_of_schedule h

/-- A Host read of buffer bytes is done where it is allowed and a HostFault elsewhere (45_pipeline.md R240). -/
theorem step_readBuf {s : State} {b : Buffer} {start n : Nat} {rest : List Action}
    (h : s.schedule = .readBuf b start n :: rest) :
    step s = if accessAllowed s.build b start n then .next (readBuffer { s with schedule := rest } b start n)
      else .fault (.hostFault (.readBuf b start n)) :=
  step_of_schedule h

/-- An access past the capacity of RAW is not allowed (45_pipeline.md R240). -/
theorem not_accessAllowed_raw {c : Config} {start n : Nat} (hn : 0 < n) (h : c.rawMax < start + n) :
    ¬ accessAllowed c .raw start n = true := by
  rw [accessAllowed_raw]
  omega

/-- An access past the capacity of FRAME is not allowed (45_pipeline.md R240). -/
theorem not_accessAllowed_frame {c : Config} {start n : Nat} (hn : 0 < n) (h : c.frameMax < start + n) :
    ¬ accessAllowed c .frame start n = true := by
  rw [accessAllowed_frame]
  omega

/-- A write of at least one FRAME byte leaves FOK = 0 (45_pipeline.md R241). -/
theorem writeBuffer_frame {s : State} {start : Nat} {bs : List Byte} (h : 0 < bs.length) :
    writeBuffer s .frame start bs = { s with frame := Memory.writeBytes s.frame start bs, fok := false } := by
  cases bs with
  | nil => exact absurd h (Nat.lt_irrefl 0)
  | cons v rest => simp [writeBuffer]

/-- Every byte outside the written ones reads as before. -/
theorem writeBytes_sameOutside (m : Memory) (start : Nat) (bs : List Byte) :
    Spec.sameOutside (Memory.writeBytes m start bs) m start (start + bs.length) :=
  fun a ha => Memory.read_writeBytes_outside m start a bs ha

/-- Settles O52: an access is a HostFault past the capacity and in MBOX; elsewhere a write is `Memory.writeBytes` and a
read is `drawBytes`. -/
theorem hostBufferAccess : Obligations.HostBufferAccess := by
  refine ⟨fun s start bs rest => ⟨fun h hpos => ⟨fun hle => ?_, fun hlt => ?_⟩,
      fun h hpos => ⟨fun hle => ?_, fun hlt => ?_⟩, step_writeBuf⟩,
    fun s start n rest => ⟨fun h hpos => ⟨fun hle => ?_, fun hlt => ?_⟩,
      fun h hpos => ⟨fun hle => ?_, fun hlt => ?_⟩, step_readBuf⟩⟩
  · rw [step_writeBuf h, if_pos (accessAllowed_frame.2 (.inr hle)), writeBuffer_frame hpos]
    exact ⟨_, rfl, rfl, Memory.writeBytes_holds s.frame start bs, writeBytes_sameOutside s.frame start bs⟩
  · rw [step_writeBuf h, if_neg (not_accessAllowed_frame hpos hlt)]
  · rw [step_writeBuf h, if_pos (accessAllowed_raw.2 (.inr hle))]
    exact ⟨_, rfl, rfl, Memory.writeBytes_holds s.raw start bs, writeBytes_sameOutside s.raw start bs⟩
  · rw [step_writeBuf h, if_neg (not_accessAllowed_raw hpos hlt)]
  · rw [step_readBuf h, if_pos (accessAllowed_frame.2 (.inr hle))]
    exact ⟨_, _, rfl, rfl, rfl, rfl, drawBytes_length s.frame _ _ _, drawBytes_returns s.frame _ _ _⟩
  · rw [step_readBuf h, if_neg (not_accessAllowed_frame hpos hlt)]
  · rw [step_readBuf h, if_pos (accessAllowed_raw.2 (.inr hle))]
    exact ⟨_, _, rfl, rfl, rfl, rfl, drawBytes_length s.raw _ _ _, drawBytes_returns s.raw _ _ _⟩
  · rw [step_readBuf h, if_neg (not_accessAllowed_raw hpos hlt)]

/-- A Host read of a register records its value, or a number of its width where it holds UNDEF
(45_pipeline.md R242). -/
theorem readRegister_records (s : State) (r : Reg) :
    ∃ v d, readRegister s r = { s with lastRead := .reg r v, draws := d } ∧ (∀ w, regValue s r = some w → v = w) ∧
      (regValue s r = none → v < 2 ^ Reg.width s.build r) := by
  cases hv : regValue s r with
  | some v =>
    refine ⟨v, s.draws, by simp only [readRegister, hv], fun w hw => Option.some.inj hw, fun h => ?_⟩
    cases h
  | none =>
    refine ⟨_, s.draws + 1, by simp only [readRegister, hv]; rfl, fun w hw => ?_, fun _ => ?_⟩
    · cases hw
    · exact Nat.mod_lt _ (Nat.two_pow_pos _)

/-- The schedule is no part of any register. -/
theorem regValue_schedule (s : State) (as : List Action) (r : Reg) :
    regValue { s with schedule := as } r = regValue s r := by
  cases r <;> rfl

theorem step_readReg {s : State} {num : BitVec 8} {r : Reg} {rest : List Action}
    (h : s.schedule = .readReg num :: rest) (hr : Reg.ofNumber num = some r) :
    step s = .next (readRegister { s with schedule := rest } r) := by
  simp only [step_of_schedule h, perform, hr]

/-- Settles O51, from what a register read records and what an event consumption takes. -/
theorem hostReadReturnsTheCell : Obligations.HostReadReturnsTheCell := by
  refine ⟨fun s num rest r h hr => ?_, fun s rest e es h he => ?_⟩
  · obtain ⟨v, d, ht, hval, hundef⟩ := readRegister_records { s with schedule := rest } r
    rw [regValue_schedule] at hval hundef
    rw [step_readReg h hr, ht]
    exact ⟨_, v, rfl, rfl, rfl, rfl, hval, hundef⟩
  · simp only [step_of_schedule h, perform, consumeHead, he]

end Sys2Proof.Machine
end

section
/-! SUPPORT. The decoder and the encoder field by field, and a Host write of CMD (30_encoding.md R80 to R86). -/

namespace Sys2Proof

/-- `decodeOpcode` and `opcodeOf` are the two directions of the opcode map (30_encoding.md R83). -/
theorem decodeOpcode_eq_some_iff {op : BitVec 4} {i : Instr} : decodeOpcode op = some i ↔ opcodeOf i = op := by
  constructor
  · revert op
    cases i <;> decide
  · rintro rfl
    cases i <;> rfl

/-- The opcodes without a command (30_encoding.md R81). -/
theorem decodeOpcode_eq_none_iff {op : BitVec 4} : decodeOpcode op = none ↔ op = 0x0#4 ∨ op = 0xE#4 ∨ op = 0xF#4 := by
  revert op
  decide

/-- The word of a command is the one whose fields are RSV 0000 and the command's opcode (30_encoding.md R80). -/
theorem encode_eq_iff {i : Instr} {w : Byte} : encode i = w ↔ rsvField w = 0#4 ∧ opcodeOf i = opcodeField w := by
  constructor
  · rintro rfl
    exact ⟨BitVec.extractLsb'_append_eq_left, BitVec.extractLsb'_append_eq_right.symm⟩
  · rintro ⟨hrsv, hop⟩
    calc encode i = rsvField w ++ opcodeField w := by rw [encode, hrsv, hop]
      _ = w := BitVec.extractLsb'_append_extractLsb'

/-- A word decodes to a command by its two fields. -/
theorem decode_eq_ok_iff_fields {w : Byte} {i : Instr} :
    decode w = .ok i ↔ rsvField w = 0#4 ∧ decodeOpcode (opcodeField w) = some i := by
  unfold decode
  split
  case isTrue hrsv => cases hop : decodeOpcode (opcodeField w) <;> simp [hrsv]
  case isFalse hrsv => simp [hrsv]

/-- A word decodes to a command exactly when it is that command's word. -/
theorem decode_eq_ok_iff {w : Byte} {i : Instr} : decode w = .ok i ↔ encode i = w := by
  rw [decode_eq_ok_iff_fields, decodeOpcode_eq_some_iff, encode_eq_iff]

theorem decode_encode (i : Instr) : decode (encode i) = .ok i := decode_eq_ok_iff.2 rfl

/-- A word is rejected exactly when one of its fields is reserved (30_encoding.md R81, R86). -/
theorem decode_error_iff_reservedWord {w : Byte} : (∃ e, decode w = .error e) ↔ Spec.reservedWord w := by
  have hfields : Spec.reservedWord w ↔ ¬ (rsvField w = 0#4 ∧ ∃ i, decodeOpcode (opcodeField w) = some i) := by
    rw [← Option.ne_none_iff_exists', ne_eq, decodeOpcode_eq_none_iff, not_and, not_not, imp_iff_not_or]
    rfl
  rw [hfields, ← exists_and_left]
  simp only [← decode_eq_ok_iff_fields]
  cases decode w <;> simp

/-- Settles O1: the first byte alone is decoded, and it is the command's word. -/
theorem decodeInvertsEncode : Obligations.DecodeInvertsEncode := by
  intro i _ rest
  rw [decodeBytes, decode_encode]

/-- Settles O2: each of the 13 words is the encoding of its command; 0x00 has a reserved opcode and 0x1B a set RSV
bit. -/
theorem commandWordsDecode : Obligations.CommandWordsDecode := by
  have hreserved : ∀ w, Spec.reservedWord w → (decode w).toOption = none := by
    intro w hw
    obtain ⟨e, he⟩ := decode_error_iff_reservedWord.2 hw
    rw [he, Except.toOption]
  exact ⟨decode_encode .dnib, decode_encode .dbuf, decode_encode .crc, decode_encode .crcv, decode_encode .phdr,
    decode_encode .stpl, decode_encode .dkey, decode_encode .dcry, decode_encode .prdg, decode_encode .take,
    decode_encode .pfrm, decode_encode .ppay, decode_encode .ppkt, hreserved 0x00#8 (by decide),
    hreserved 0x1B#8 (by decide)⟩

/-- Settles O3: decoding fails on the reserved words alone, and what it answers elsewhere encodes to the word. -/
theorem everyWordIsACommandOrReserved : Obligations.EveryWordIsACommandOrReserved := by
  refine fun w => ⟨decode_error_iff_reservedWord.2, fun hw => ?_⟩
  cases hd : decode w with
  | error e => exact absurd (decode_error_iff_reservedWord.1 ⟨e, hd⟩) hw
  | ok i => exact ⟨i, rfl, decode_eq_ok_iff.1 hd⟩

end Sys2Proof

namespace Sys2Proof.Machine

/-- A step whose action is a Host write of register 0x00 writes CMD (10_state.md R23). -/
theorem step_writeCmd {s : State} {v : Nat} {rest : List Action} (h : s.schedule = .writeReg 0x00#8 v :: rest) :
    step s = writeCmd { s with schedule := rest } (BitVec.ofNat 8 v) :=
  step_of_schedule h

/-- A Host write of a word that does not decode raises E_ILLEGAL and stores the word (30_encoding.md R81). -/
theorem writeCmd_of_error {s : State} {w : Byte} {e : DecodeError} (h : decode w = .error e) :
    writeCmd s w = .next { s with cmd := w, err := .illegal } := by
  simp only [writeCmd, h, raiseStatus]

/-- Settles O5: the step writes CMD, and a reserved word does not decode. -/
theorem illegalWordChangesErrAlone : Obligations.IllegalWordChangesErrAlone := by
  intro s v rest hs hw
  obtain ⟨e, he⟩ := decode_error_iff_reservedWord.2 hw
  rw [step_writeCmd hs, writeCmd_of_error he]

end Sys2Proof.Machine
end

section
/-! SUPPORT. The 3-out-of-6 table: the nibble of a symbol, DNIB, and the weight of a codeword
(40_line_codec.md R101, R102, R108). -/

namespace Sys2Proof.Machine

theorem sixbitTable_nodup {c : Config} (h : c.sixbitWf = true) : c.sixbitTable.toList.Nodup := by
  simp only [Config.sixbitWf, Bool.and_eq_true, decide_eq_true_eq] at h
  exact h.1.1.1.1

theorem weight_of_mem_sixbitTable {c : Config} {w : BitVec 6} (h : c.sixbitWf = true)
    (hw : w ∈ c.sixbitTable.toList) : weight w = 3 := by
  simp only [Config.sixbitWf, Bool.and_eq_true, List.all_eq_true, beq_iff_eq] at h
  exact h.1.1.1.2 w hw

theorem codeword_eq_getElem (c : Config) (nb : BitVec 4) :
    Spec.codeword c nb = c.sixbitTable.toList[nb.toNat]'(c.sixbitTable.length_toList.symm ▸ nb.isLt) := by
  simp [Spec.codeword, Vector.get_eq_getElem]

theorem codeword_mem (c : Config) (nb : BitVec 4) : Spec.codeword c nb ∈ c.sixbitTable.toList :=
  codeword_eq_getElem c nb ▸ List.getElem_mem _

/-- The nibble of a symbol is the one whose codeword it is (40_line_codec.md R100, R101). -/
theorem nibbleOf_eq_some_iff {c : Config} {sym : BitVec 6} {nb : BitVec 4} (h : c.sixbitWf = true) :
    nibbleOf c sym = some nb ↔ Spec.codeword c nb = sym := by
  have hlen : c.sixbitTable.toList.length = 16 := c.sixbitTable.length_toList
  simp only [nibbleOf, Option.map_eq_some_iff, List.findIdx?_eq_some_iff_getElem, beq_iff_eq, codeword_eq_getElem]
  constructor
  · rintro ⟨i, ⟨hi, hsym, -⟩, rfl⟩
    have hi' : (BitVec.ofNat 4 i).toNat = i := by
      rw [BitVec.toNat_ofNat]
      omega
    simp only [hi', hsym]
  · rintro rfl
    refine ⟨nb.toNat, ⟨by omega, rfl, fun j hj heq => ?_⟩, by simp⟩
    exact hj.ne ((sixbitTable_nodup h).getElem_inj_iff.1 heq)

/-- A symbol has no nibble when it is not in the table (40_line_codec.md R102). -/
theorem nibbleOf_eq_none_iff {c : Config} {sym : BitVec 6} :
    nibbleOf c sym = none ↔ sym ∉ c.sixbitTable.toList := by
  simp only [nibbleOf, Option.map_eq_none_iff, List.findIdx?_eq_none_iff, beq_eq_false_iff_ne]
  exact ⟨fun h hm => h sym hm rfl, fun h w hw heq => h (heq ▸ hw)⟩

/-- Words that differ in exactly one bit differ in weight, so one flipped bit makes no codeword of a codeword
(40_line_codec.md R110). -/
theorem weight_ne_of_flipped {u w : BitVec 6} {i : Nat} (hi : i < 6)
    (h : ∀ j < 6, u.getLsbD j = (w.getLsbD j ^^ decide (j = i))) : weight u ≠ weight w := by
  have hu : u = w ^^^ BitVec.twoPow 6 i := BitVec.eq_of_getLsbD_eq fun j hj => by
    simp [h j hj, BitVec.getLsbD_twoPow, hi, eq_comm]
  have hflip : ∀ (w : BitVec 6) (i : Fin 6), weight (w ^^^ BitVec.twoPow 6 i) ≠ weight w := by decide
  exact hu ▸ hflip w ⟨i, hi⟩

/-- Settles O8: the symbol is OPA[5:0], and its nibble is the one whose codeword it is. -/
theorem dnibDecodesOneSymbol : Obligations.DnibDecodesOneSymbol := by
  refine ⟨decode_encode .dnib, fun s a hwf ha => ?_⟩
  rw [← BitVec.setWidth_eq_extractLsb' (by decide : 6 ≤ 16)]
  refine ⟨fun nb hnb => ?_, fun hnone => ?_⟩
  · exact execDnib_next.2 ⟨a, ha, .inl ⟨nb, (nibbleOf_eq_some_iff hwf).2 hnb, rfl⟩⟩
  · refine execDnib_next.2 ⟨a, ha, .inr ⟨Option.eq_none_iff_forall_ne_some.2 fun nb hnb => ?_, rfl⟩⟩
    exact hnone nb ((nibbleOf_eq_some_iff hwf).1 hnb)

/-- Settles O9: with the table given, the claim is about 64 symbols. -/
theorem inverseMapOfTheDefaultTable : Obligations.InverseMapOfTheDefaultTable := by
  intro c sym htable
  rw [nibbleOf, htable]
  revert sym
  decide

end Sys2Proof.Machine
end

section
/-! SUPPORT. The raw bit stream: its symbols, the nibbles DBUF makes of them, and one flipped bit
(40_line_codec.md R103, R104, R110). -/

namespace Sys2Proof.Machine

/-- The model's window over two bytes is the six stream bits of the symbol (40_line_codec.md R103). -/
theorem spells_symbolAt (bs : List Byte) (k : Nat) :
    Spec.spells bs k (symbolAt (byteAt bs (6 * k / 8)) (byteAt bs ((6 * k + 5) / 8)) (6 * k % 8)) := by
  intro j hj
  simp only [Spec.streamBit, symbolAt, BitVec.getLsbD_setWidth, BitVec.getLsbD_ushiftRight, BitVec.getLsbD_append]
  rw [decide_eq_true (by omega : 5 - j < 6), Bool.true_and]
  by_cases hfirst : 6 * k % 8 + j < 8
  · rw [if_neg (by omega), show (6 * k + j) / 8 = 6 * k / 8 by omega,
      show 10 - 6 * k % 8 + (5 - j) - 8 = 7 - (6 * k + j) % 8 by omega]
  · rw [if_pos (by omega), show (6 * k + j) / 8 = (6 * k + 5) / 8 by omega,
      show 10 - 6 * k % 8 + (5 - j) = 7 - (6 * k + j) % 8 by omega]

theorem spells_unique {bs : List Byte} {k : Nat} {u w : BitVec 6} (hu : Spec.spells bs k u)
    (hw : Spec.spells bs k w) : u = w :=
  BitVec.eq_of_getLsbD_eq fun i hi => by
    rw [show i = 5 - (5 - i) by omega, ← hu (5 - i) (by omega), ← hw (5 - i) (by omega)]

/-- The complete symbols of n bytes lie within them (40_line_codec.md R104). -/
theorem symbol_within {n k : Nat} (h : k < symbolCount n) : 6 * k + 5 < 8 * n := by
  simp only [symbolCount] at h
  omega

/-- A symbol whose two bytes hold values reads as what the stream spells there (40_line_codec.md R103). -/
theorem symbol_ok_iff_spells {raw : Memory} {bs : List Byte} {k : Nat} {sym : BitVec 6}
    (hbs : Memory.holds raw 0 bs) (hk : 6 * k + 5 < 8 * bs.length) :
    symbol raw k = .ok sym ↔ Spec.spells bs k sym := by
  have h0 := hbs (6 * k / 8) (by omega)
  have h1 := hbs ((6 * k + 5) / 8) (by omega)
  have hsym : symbol raw k = .ok (symbolAt (byteAt bs (6 * k / 8)) (byteAt bs ((6 * k + 5) / 8)) (6 * k % 8)) := by
    rw [Nat.zero_add] at h0 h1
    simp only [symbol, h0, h1, need_some]
    rfl
  constructor
  · intro h
    rw [← Except.ok.inj (hsym.symm.trans h)]
    exact spells_symbolAt bs k
  · intro h
    rw [hsym, spells_unique h (spells_symbolAt bs k)]

/-- A symbol that reads reads its second byte. -/
theorem read_of_symbol {raw : Memory} {k : Nat} {sym : BitVec 6} (h : symbol raw k = .ok sym) :
    ∃ b, Memory.read raw ((6 * k + 5) / 8) = some b := by
  obtain ⟨_, -, h⟩ := bind_ok.1 h
  obtain ⟨b, hb, -⟩ := bind_ok.1 h
  exact ⟨b, need_ok.1 hb⟩

/-- Cells that hold values hold the bytes of a list. -/
theorem holds_of_filled {m : Memory} {n : Nat} (h : Memory.filled m n) :
    ∃ bs, bs.length = n ∧ Memory.holds m 0 bs := by
  refine ⟨(List.range n).map fun i => (Memory.read m i).getD 0, by simp, fun i hi => ?_⟩
  obtain ⟨v, hv⟩ := Option.isSome_iff_exists.1 (h i (by simpa using hi))
  rw [Nat.zero_add, byteAt_eq_getElem hi]
  simp [hv]

/-- A decoding that succeeds has read every one of its raw bytes: byte i ends symbol 8i div 6. -/
theorem filled_of_decodeSymbols {c : Config} {raw : Memory} {n : Nat} {nibs : List (BitVec 4)}
    (h : decodeSymbols c raw 0 (symbolCount n) = .ok nibs) : Memory.filled raw n := by
  intro i hi
  obtain ⟨sym, hsym, -⟩ := (decodeSymbols_ok.1 h).2 (8 * i / 6) (by simp only [symbolCount]; omega)
  obtain ⟨b, hb⟩ := read_of_symbol hsym
  rw [show (6 * (0 + 8 * i / 6) + 5) / 8 = i by omega] at hb
  exact Option.isSome_iff_exists.2 ⟨b, hb⟩

/-- The nibbles of a raw buffer are those whose codewords its stream spells (40_line_codec.md R104). -/
theorem decodeSymbols_ok_iff_spells {c : Config} {raw : Memory} {bs : List Byte} {n : Nat} {nibs : List (BitVec 4)}
    (hwf : c.sixbitWf = true) (hbs : Memory.holds raw 0 bs) (hn : bs.length = n) :
    decodeSymbols c raw 0 (symbolCount n) = .ok nibs ↔
      nibs.length = symbolCount n ∧ ∀ k < symbolCount n, Spec.spells bs k (Spec.codeword c (nibs.getD k 0)) := by
  rw [decodeSymbols_ok]
  refine and_congr_right fun _ => forall₂_congr fun k hk => ?_
  have hk := symbol_within hk
  simp only [Nat.zero_add, symbol_ok_iff_spells hbs (hn ▸ hk), nibbleOf_eq_some_iff hwf, exists_eq_right']

/-- The first symbol that is no codeword ends the decoding; the symbols after it are not read
(40_line_codec.md R104). -/
theorem decodeSymbols_codeword {c : Config} {raw : Memory} {k g i : Nat} {sym : BitVec 6} (hi : i < g)
    (hread : ∀ j < i, ∃ sym, symbol raw (k + j) = .ok sym) (hsym : symbol raw (k + i) = .ok sym)
    (hnone : nibbleOf c sym = none) : decodeSymbols c raw k g = .error (.status .codeword) := by
  induction g generalizing k i with
  | zero => exact absurd hi (Nat.not_lt_zero i)
  | succ g ih =>
    rw [decodeSymbols]
    cases i with
    | zero =>
      refine bind_error.2 (.inr ⟨sym, hsym, ?_⟩)
      rw [hnone]
    | succ i =>
      obtain ⟨first, hfirst⟩ := hread 0 (Nat.succ_pos i)
      refine bind_error.2 (.inr ⟨first, hfirst, ?_⟩)
      cases nibbleOf c first with
      | none => rfl
      | some nb =>
        refine bind_error.2 (.inl (ih (Nat.lt_of_succ_lt_succ hi) (fun j hj => ?_) ?_))
        · rw [Nat.add_assoc, Nat.add_comm 1]
          exact hread (j + 1) (Nat.succ_lt_succ hj)
        · rw [Nat.add_assoc, Nat.add_comm 1]
          exact hsym

/-- A symbol that is no codeword, all bytes up to it holding values, raises E_CODEWORD. -/
theorem decodeSymbols_of_badSymbol {c : Config} {raw : Memory} {bs : List Byte} {k g : Nat}
    (hbs : Memory.holds raw 0 bs) (hk : k < g) (hlen : 6 * k + 5 < 8 * bs.length) (hbad : Spec.badSymbol c bs k) :
    decodeSymbols c raw 0 g = .error (.status .codeword) := by
  have hsym : ∀ j ≤ k, ∃ sym, symbol raw (0 + j) = .ok sym ∧ Spec.spells bs j sym := fun j hj => by
    refine ⟨_, ?_, spells_symbolAt bs j⟩
    rw [Nat.zero_add, symbol_ok_iff_spells hbs (by omega)]
    exact spells_symbolAt bs j
  obtain ⟨sym, hread, hspells⟩ := hsym k (Nat.le_refl k)
  refine decodeSymbols_codeword hk (fun j hj => ?_) hread (nibbleOf_eq_none_iff.2 fun hmem => hbad sym hmem hspells)
  obtain ⟨sym, hread, -⟩ := hsym j hj.le
  exact ⟨sym, hread⟩

/-- Byte j of packed nibbles: nibbles 2j and 2j + 1, a missing one 0 (20_memory.md R63). -/
theorem byteAt_packNibbles (nibs : List (BitVec 4)) (j : Nat) :
    byteAt (packNibbles nibs) j = nibs.getD (2 * j) 0 ++ nibs.getD (2 * j + 1) 0 := by
  induction nibs using packNibbles.induct generalizing j with
  | case1 => simp [packNibbles, byteAt]
  | case2 hi => cases j <;> simp [packNibbles, byteAt]
  | case3 hi lo rest ih =>
    cases j with
    | zero => rfl
    | succ j => exact ih j

/-! ### DBUF -/

/-- DBUF within RAW_LEN answers what the decoding of its symbols gives (40_line_codec.md R104). -/
theorem dbufBytes_eq {s : State} {n : Nat} (h : n ≤ s.rawLen.toNat) :
    dbufBytes s n = (decodeSymbols s.build s.raw 0 (symbolCount n)).map packNibbles := by
  rw [dbufBytes, if_neg (by omega), lineDecode]
  cases decodeSymbols s.build s.raw 0 (symbolCount n) <;> rfl

theorem decodeSymbols_of_dbufBytes {s : State} {n : Nat} {bs : List Byte} (h : dbufBytes s n = .ok bs) :
    ∃ nibs, decodeSymbols s.build s.raw 0 (symbolCount n) = .ok nibs ∧ bs = packNibbles nibs := by
  rw [dbufBytes_eq (le_rawLen_of_dbufBytes h)] at h
  cases hd : decodeSymbols s.build s.raw 0 (symbolCount n) with
  | error e => rw [hd] at h; cases h
  | ok nibs => rw [hd] at h; cases h; exact ⟨nibs, rfl, rfl⟩

/-- DBUF of symbols that decode packs their nibbles into FRAME (40_line_codec.md R104). -/
theorem execDbuf_of_decodeSymbols {s : State} {n : BitVec 16} {nibs : List (BitVec 4)} (hn : s.opb = some n)
    (hle : n.toNat ≤ s.rawLen.toNat) (h : decodeSymbols s.build s.raw 0 (symbolCount n.toNat) = .ok nibs) :
    exec .dbuf s = .next { s with frame := Memory.writeBytes s.frame 0 (packNibbles nibs),
                                  dlen := some (BitVec.ofNat 16 (packNibbles nibs).length), fok := false,
                                  err := .ok } := by
  refine execDbuf_next.2 ⟨n, hn, .inl ⟨packNibbles nibs, ?_, rfl⟩⟩
  rw [dbufBytes_eq hle, h]
  rfl

/-- DBUF of a buffer with a symbol that is no codeword raises E_CODEWORD (40_line_codec.md R104). -/
theorem execDbuf_of_badSymbol {s : State} {n : BitVec 16} {bs : List Byte} {k : Nat} (hn : s.opb = some n)
    (hle : n.toNat ≤ s.rawLen.toNat) (hbs : Memory.holds s.raw 0 bs) (hk : k < symbolCount n.toNat)
    (hlen : 6 * k + 5 < 8 * bs.length) (hbad : Spec.badSymbol s.build bs k) :
    exec .dbuf s = .next { dbufPoisoned s n.toNat with err := .codeword } := by
  refine execDbuf_next.2 ⟨n, hn, .inr ⟨.codeword, ?_, rfl⟩⟩
  rw [dbufBytes_eq hle, decodeSymbols_of_badSymbol hbs hk hlen hbad]
  rfl

/-- DBUF past RAW_LEN raises E_BOUNDS (40_line_codec.md R104). -/
theorem execDbuf_of_rawLen_lt {s : State} {n : BitVec 16} (hn : s.opb = some n) (hlt : s.rawLen.toNat < n.toNat) :
    exec .dbuf s = .next { dbufPoisoned s n.toNat with err := .bounds } :=
  execDbuf_next.2 ⟨n, hn, .inr ⟨.bounds, by rw [dbufBytes, if_pos hlt], rfl⟩⟩

/-- A DBUF that ends with OK decoded its symbols, within RAW_LEN (40_line_codec.md R104). -/
theorem execDbuf_ok {s t : State} {n : BitVec 16} (hn : s.opb = some n) (ht : exec .dbuf s = .next t)
    (hok : t.err = .ok) :
    ∃ nibs, n.toNat ≤ s.rawLen.toNat ∧ decodeSymbols s.build s.raw 0 (symbolCount n.toNat) = .ok nibs := by
  obtain ⟨n', hn', ⟨bs, hbs, -⟩ | ⟨e, he, rfl⟩⟩ := execDbuf_next.1 ht
  · obtain rfl := Option.some.inj (hn.symm.trans hn')
    obtain ⟨nibs, hnibs, -⟩ := decodeSymbols_of_dbufBytes hbs
    exact ⟨nibs, le_rawLen_of_dbufBytes hbs, hnibs⟩
  · obtain rfl : e = .ok := hok
    rcases dbufBytes_status he with h | h <;> cases h

/-- Settles O10: the stream decodes to the nibbles whose codewords it spells, and DBUF stores them packed. -/
theorem dbufWritesThePackedNibbles : Obligations.DbufWritesThePackedNibbles := by
  intro s n bs nibs hwf hn hle hlen hbs hcount hspells
  have hpacked : (packNibbles nibs).length = (8 * n.toNat / 6 + 1) / 2 := by rw [packNibbles_length, hcount]
  have hnibs : decodeSymbols s.build s.raw 0 (symbolCount n.toNat) = .ok nibs :=
    (decodeSymbols_ok_iff_spells hwf hbs hlen).2 ⟨hcount, fun k hk => hspells k (hcount.symm ▸ hk)⟩
  refine ⟨_, execDbuf_of_decodeSymbols hn hle hnibs, ?_, fun j hj => ?_, fun a ha => ?_⟩
  · rw [hpacked]
  · have h := Memory.writeBytes_holds s.frame 0 (packNibbles nibs) j (hpacked.symm ▸ hj)
    rwa [Nat.zero_add, byteAt_packNibbles] at h
  · exact Memory.read_writeBytes_outside s.frame 0 a _ (by omega)

/-- Settles O11: either failure leaves DBUF's poisoned state, with its status. -/
theorem dbufFailuresPoison : Obligations.DbufFailuresPoison := by
  intro s n e hn hfail
  have hexec : exec .dbuf s = .next { dbufPoisoned s n.toNat with err := e } := by
    rcases hfail with ⟨hlt, rfl⟩ | ⟨hle, rfl, bs, k, hbs, hk, hlen, hbad⟩
    · exact execDbuf_of_rawLen_lt hn hlt
    · exact execDbuf_of_badSymbol hn hle hbs hk hlen hbad
  refine ⟨_, hexec, rfl, fun a hlo hhi => ?_, fun a ha => ?_⟩
  · rw [dbufPoisoned_frame, Memory.read_poison, if_pos ⟨hlo, hhi⟩]
  · rw [dbufPoisoned_frame, Memory.read_poison, if_neg (by simp only [decodedLength, symbolCount]; omega)]

/-! ### One flipped bit -/

/-- The raw bytes `bs` with stream bit `p` flipped (40_line_codec.md R110). -/
def flipBit (bs : List Byte) (p : Nat) : List Byte := bs.set (p / 8) (byteAt bs (p / 8) ^^^ (0x80#8 >>> (p % 8)))

@[simp] theorem flipBit_length (bs : List Byte) (p : Nat) : (flipBit bs p).length = bs.length := List.length_set

theorem byteAt_flipBit {bs : List Byte} {p : Nat} (hp : p < 8 * bs.length) (i : Nat) :
    byteAt (flipBit bs p) i =
      if i = p / 8 then byteAt bs (p / 8) ^^^ (0x80#8 >>> (p % 8)) else byteAt bs i := by
  simp only [byteAt, flipBit, List.getD_eq_getElem?_getD, List.getElem?_set, eq_comm (a := i)]
  rw [if_pos (by omega : p / 8 < bs.length)]
  split <;> rfl

/-- Flipping one bit changes that stream bit and no other. -/
theorem streamBit_flipBit {bs : List Byte} {p : Nat} (hp : p < 8 * bs.length) (q : Nat) :
    Spec.streamBit (flipBit bs p) q = (Spec.streamBit bs q ^^ decide (q = p)) := by
  have hmask : ∀ i j : Fin 8, (0x80#8 >>> i.val).getLsbD (7 - j.val) = decide (j = i) := by decide
  rw [Spec.streamBit, Spec.streamBit, byteAt_flipBit hp]
  split
  case isTrue hbyte =>
    have hmask := hmask ⟨p % 8, by omega⟩ ⟨q % 8, by omega⟩
    rw [BitVec.getLsbD_xor, hmask, hbyte]
    congr 2
    simp only [Fin.mk.injEq, eq_iff_iff]
    omega
  case isFalse hbyte =>
    rw [decide_eq_false (by rintro rfl; exact hbyte rfl), Bool.xor_false]

/-- RAW after the write of the byte with the flipped bit holds the flipped bytes. -/
theorem holds_flipBit {raw : Memory} {bs : List Byte} {p : Nat} (hbs : Memory.holds raw 0 bs)
    (hp : p < 8 * bs.length) :
    Memory.holds (Memory.write raw (p / 8) (byteAt bs (p / 8) ^^^ (0x80#8 >>> (p % 8)))) 0 (flipBit bs p) := by
  intro i hi
  rw [flipBit_length] at hi
  rw [Memory.read_write, byteAt_flipBit hp, Nat.zero_add]
  split
  · rfl
  · rw [← hbs i hi, Nat.zero_add]

/-- One flipped bit in a symbol of weight 3 leaves no codeword there (40_line_codec.md R101, R110). -/
theorem badSymbol_flipBit {c : Config} {bs : List Byte} {p : Nat} {w : BitVec 6} (hwf : c.sixbitWf = true)
    (hp : p < 8 * bs.length) (hw : w ∈ c.sixbitTable.toList) (hspells : Spec.spells bs (p / 6) w) :
    Spec.badSymbol c (flipBit bs p) (p / 6) := by
  intro u hu hflipped
  have hne : weight u ≠ weight w := weight_ne_of_flipped (i := 5 - p % 6) (by omega) fun j hj => by
    have huj := hflipped (5 - j) (by omega)
    have hwj := hspells (5 - j) (by omega)
    rw [show 5 - (5 - j) = j by omega] at huj hwj
    rw [← huj, ← hwj, streamBit_flipBit hp]
    congr 2
    simp only [eq_iff_iff]
    omega
  exact hne ((weight_of_mem_sixbitTable hwf hu).trans (weight_of_mem_sixbitTable hwf hw).symm)

/-- A flipped bit outside a symbol leaves what it spells. -/
theorem spells_flipBit_outside {bs : List Byte} {p k : Nat} {w : BitVec 6} (hp : p < 8 * bs.length)
    (hk : 6 * k + 5 < p) (h : Spec.spells bs k w) : Spec.spells (flipBit bs p) k w := fun j hj => by
  rw [streamBit_flipBit hp, decide_eq_false (by omega), Bool.xor_false, h j hj]

/-- Settles O14: a flipped bit in a symbol makes it no codeword; one after the symbols leaves them as they are. -/
theorem singleFlippedBitFailsDbuf : Obligations.SingleFlippedBitFailsDbuf := by
  intro s t n p b hwf hn ht hok hp hb
  obtain ⟨nibs, hle, hnibs⟩ := execDbuf_ok hn ht hok
  obtain ⟨bs, hlen, hbs⟩ := holds_of_filled (filled_of_decodeSymbols hnibs)
  obtain ⟨hcount, hspells⟩ := (decodeSymbols_ok_iff_spells hwf hbs hlen).1 hnibs
  have hp' : p < 8 * bs.length := hlen.symm ▸ hp
  obtain rfl := read_of_holds hbs hb (by omega)
  have hflip := holds_flipBit hbs hp'
  constructor
  · intro hin
    have hk : p / 6 < symbolCount n.toNat := by simp only [symbolCount]; omega
    have hbad := badSymbol_flipBit hwf hp' (codeword_mem _ _) (hspells (p / 6) hk)
    exact ⟨_, execDbuf_of_badSymbol hn hle hflip hk (by rw [flipBit_length, hlen]; exact symbol_within hk) hbad,
      rfl, rfl⟩
  · intro hout
    have hsame := (decodeSymbols_ok_iff_spells hwf hflip ((flipBit_length bs p).trans hlen)).2
      ⟨hcount, fun k hk => spells_flipBit_outside hp' (by simp only [symbolCount] at hk; omega) (hspells k hk)⟩
    obtain rfl := Host.Outcome.next.inj ((execDbuf_of_decodeSymbols hn hle hnibs).symm.trans ht)
    exact execDbuf_of_decodeSymbols (s := { s with raw := _ }) hn hle hsame

end Sys2Proof.Machine
end

section
/-! SUPPORT. The test-fixture encoder and its decoding by DBUF (40_line_codec.md R109). -/

namespace Sys2Proof.Machine

/-- Bit j of a number gathered from n bits, first bit most significant. -/
theorem testBit_foldl_range (f : Nat → Bool) (n j : Nat) :
    ((List.range n).foldl (fun acc i => 2 * acc + (f i).toNat) 0).testBit j = (decide (j < n) && f (n - 1 - j)) := by
  induction n generalizing j with
  | zero => simp
  | succ n ih =>
    rw [List.range_succ, List.foldl_append, List.foldl_cons, List.foldl_nil, ← Nat.bit_val]
    cases j with
    | zero => simp
    | succ j =>
      rw [Nat.testBit_bit_succ, ih, show n + 1 - 1 - (j + 1) = n - 1 - j by omega]
      simp

/-- Bit 7 - j of a packed byte is bit j of its eight. -/
theorem getLsbD_packedByte (bits : List Bool) (i : Nat) {j : Nat} (hj : j < 8) :
    (Spec.packedByte bits i).getLsbD (7 - j) = bits.getD (8 * i + j) false := by
  rw [Spec.packedByte, BitVec.getLsbD_ofNat, testBit_foldl_range (fun j => bits.getD (8 * i + j) false),
    show 8 - 1 - (7 - j) = j by omega]
  simp [show 7 - j < 8 by omega]

theorem encodeNibbles_length (c : Config) (nibs : List (BitVec 4)) :
    (Spec.encodeNibbles c nibs).length = (6 * nibs.length + 7) / 8 := by
  simp [Spec.encodeNibbles]

/-- Fewer than 6 bits of padding hold no symbol, which is so unless the count is 3 modulo 4 (40_line_codec.md R109). -/
theorem symbolCount_encodeNibbles (c : Config) {nibs : List (BitVec 4)} (h : nibs.length % 4 ≠ 3) :
    symbolCount (Spec.encodeNibbles c nibs).length = nibs.length := by
  rw [encodeNibbles_length, symbolCount]
  rcases (by omega : nibs.length % 4 = 0 ∨ nibs.length % 4 = 1 ∨ nibs.length % 4 = 2) with h | h | h
  all_goals omega

/-- The stream of the encoded bytes is the stream of the codewords, zero-padded (40_line_codec.md R109). -/
theorem streamBit_encodeNibbles (c : Config) (nibs : List (BitVec 4)) {p : Nat}
    (hp : p < 8 * (Spec.encodeNibbles c nibs).length) :
    Spec.streamBit (Spec.encodeNibbles c nibs) p = (Spec.streamOf c nibs).getD p false := by
  have hi : p / 8 < (Spec.encodeNibbles c nibs).length := by omega
  have hbyte : byteAt (Spec.encodeNibbles c nibs) (p / 8) = Spec.packedByte (Spec.streamOf c nibs) (p / 8) := by
    rw [byteAt_eq_getElem hi]
    simp [Spec.encodeNibbles]
  rw [Spec.streamBit, hbyte, getLsbD_packedByte _ _ (Nat.mod_lt p (by decide)), Nat.div_add_mod]

/-- Bits 6k to 6k + 5 of the codeword stream are those of codeword k, and 0 past the last nibble. -/
theorem getD_streamOf (c : Config) (nibs : List (BitVec 4)) (k : Nat) {j : Nat} (hj : j < 6) :
    (Spec.streamOf c nibs).getD (6 * k + j) false =
      (decide (k < nibs.length) && (Spec.codeword c (nibs.getD k 0)).getLsbD (5 - j)) := by
  induction nibs generalizing k with
  | nil => simp [Spec.streamOf]
  | cons nb rest ih =>
    have hcons : Spec.streamOf c (nb :: rest) =
        ((List.range 6).map fun i => (Spec.codeword c nb).getLsbD (5 - i)) ++ Spec.streamOf c rest := rfl
    rw [hcons]
    cases k with
    | zero =>
      rw [List.getD_append _ _ _ _ (by simpa using hj)]
      simp [hj]
    | succ k =>
      rw [List.getD_append_right _ _ _ _ (by simp; omega), List.length_map, List.length_range,
        show 6 * (k + 1) + j - 6 = 6 * k + j by omega, ih k]
      simp

theorem spells_encodeNibbles (c : Config) (nibs : List (BitVec 4)) {k : Nat} (hk : k < nibs.length) :
    Spec.spells (Spec.encodeNibbles c nibs) k (Spec.codeword c (nibs.getD k 0)) := by
  intro j hj
  rw [streamBit_encodeNibbles c nibs (by rw [encodeNibbles_length]; omega), getD_streamOf c nibs k hj,
    decide_eq_true hk, Bool.true_and]

/-- The complete symbol after the last nibble, where the padding has room for one, spells 0. -/
theorem spells_encodeNibbles_padding (c : Config) (nibs : List (BitVec 4))
    (hroom : 6 * nibs.length + 5 < 8 * (Spec.encodeNibbles c nibs).length) :
    Spec.spells (Spec.encodeNibbles c nibs) nibs.length 0#6 := by
  intro j hj
  rw [streamBit_encodeNibbles c nibs (by omega), getD_streamOf c nibs _ hj]
  simp

/-- Settles O12: unless the count is 3 modulo 4, the encoded bytes have as many complete symbols as nibbles, each the
codeword of its nibble. -/
theorem dbufRoundTrip : Obligations.DbufRoundTrip := by
  intro s n nibs hwf hmod hn hlen hle hholds
  have hcount : nibs.length = symbolCount n.toNat := by rw [hlen, symbolCount_encodeNibbles s.build hmod]
  obtain ⟨t, hexec, ht, hbytes, -⟩ := dbufWritesThePackedNibbles s n _ nibs hwf hn hle hlen.symm hholds hcount
    fun k hk => spells_encodeNibbles s.build nibs hk
  rw [symbolCount] at hcount
  rw [← hcount] at ht hbytes
  exact ⟨t, hexec, by rw [ht], by rw [ht], hbytes⟩

/-- Settles O13: the six padding bits are one more symbol, whose weight is 0 and not 3. -/
theorem sixPaddingBitsFailTheRoundTrip : Obligations.SixPaddingBitsFailTheRoundTrip := by
  intro s n nibs hwf hmod hn hlen hle hholds
  have hroom : 6 * nibs.length + 5 < 8 * (Spec.encodeNibbles s.build nibs).length := by
    rw [encodeNibbles_length]
    omega
  have hpadding := spells_encodeNibbles_padding s.build nibs hroom
  have hbad : Spec.badSymbol s.build (Spec.encodeNibbles s.build nibs) nibs.length := fun w hw hspells => by
    have hweight := weight_of_mem_sixbitTable hwf hw
    rw [spells_unique hspells hpadding] at hweight
    exact absurd hweight (by decide)
  exact ⟨_, execDbuf_of_badSymbol hn hle hholds (by rw [hlen, symbolCount]; omega) hroom hbad, rfl⟩

end Sys2Proof.Machine
end

section
/-! SUPPORT. The commands CRC and CRCV on a region within DLEN and past it (41_frame_crc.md R122, R124). -/

namespace Sys2Proof.Machine

/-- A region that passes DLEN is not read (41_frame_crc.md R122). -/
theorem regionRead_of_dlen_lt {s : State} {d : BitVec 16} {off len : Nat} (hd : s.dlen = some d)
    (h : d.toNat < off + len) : regionRead s off len = .error (.status .bounds) := by
  rw [regionRead, dlenNat_ok.2 ⟨d, hd, rfl⟩]
  exact if_pos h

/-- Settles O15: within DLEN the region is read, past it the read raises E_BOUNDS. -/
theorem crcComputesTheRegion : Obligations.CrcComputesTheRegion := by
  refine ⟨decode_encode .crc, fun s off len d hoff hlen hd => ⟨fun bs hle hbl hbs => ?_, fun hlt => ?_⟩⟩
  · exact execCrc_next.2 ⟨off, len, hoff, hlen, .inl ⟨bs, regionRead_ok.2 ⟨d, hd, hle, hbl, hbs⟩, rfl⟩⟩
  · exact execCrc_next.2 ⟨off, len, hoff, hlen, .inr ⟨.bounds, regionRead_of_dlen_lt hd hlt, rfl⟩⟩

/-- Settles O16: within DLEN crc16 of the region is compared with OPC, past it the read raises E_BOUNDS. -/
theorem crcvVerifiesTheRegion : Obligations.CrcvVerifiesTheRegion := by
  refine ⟨decode_encode .crcv, fun s off len d w hoff hlen hw hd => ⟨fun bs hle hbl hbs => ?_, fun hlt => ?_⟩⟩
  · exact execCrcv_next.2 ⟨off, len, hoff, hlen, .inl ⟨bs, w, regionRead_ok.2 ⟨d, hd, hle, hbl, hbs⟩, hw, rfl⟩⟩
  · exact execCrcv_next.2 ⟨off, len, hoff, hlen, .inr ⟨.bounds, regionRead_of_dlen_lt hd hlt, rfl⟩⟩

end Sys2Proof.Machine
end

section
/-! SUPPORT. The CRC register is linear over GF(2), and with it the table-driven form (41_frame_crc.md R123). -/

namespace Sys2Proof.Machine

/-- The inner loop's turn adds the polynomial when bit 15 falls out (41_frame_crc.md R121). -/
theorem crcBit_eq (c : BitVec 16) : crcBit c = (c <<< 1) ^^^ bif c.getLsbD 15 then 0x3D65#16 else 0#16 := by
  rw [crcBit]
  cases c.getLsbD 15 <;> simp

theorem crcBit_xor (c e : BitVec 16) : crcBit (c ^^^ e) = crcBit c ^^^ crcBit e := by
  have hpoly : ∀ x y : Bool, (bif x ^^ y then 0x3D65#16 else 0#16) =
      (bif x then 0x3D65#16 else 0#16) ^^^ bif y then 0x3D65#16 else 0#16 := by decide
  rw [crcBit_eq, crcBit_eq, crcBit_eq, BitVec.shiftLeft_xor_distrib, BitVec.getLsbD_xor, hpoly]
  ac_rfl

theorem crcBits_xor (n : Nat) (c e : BitVec 16) : crcBits n (c ^^^ e) = crcBits n c ^^^ crcBits n e := by
  induction n generalizing c e with
  | zero => rfl
  | succ n ih => simp only [crcBits, crcBit_xor, ih]

/-- Turns that push no 1 out of bit 15 only shift. -/
theorem crcBits_eq_shiftLeft {n : Nat} {c : BitVec 16} (h : c.toNat * 2 ^ n < 2 ^ 16) : crcBits n c = c <<< n := by
  induction n generalizing c with
  | zero => simp [crcBits]
  | succ n ih =>
    have h' : 2 * c.toNat * 2 ^ n < 2 ^ 16 := by rwa [Nat.mul_comm 2, Nat.mul_assoc, ← Nat.pow_succ']
    have h15 : 2 * c.toNat < 2 ^ 16 := Nat.lt_of_le_of_lt (Nat.le_mul_of_pos_right _ (Nat.two_pow_pos n)) h'
    have hbit : crcBit c = c <<< 1 := by
      rw [crcBit_eq, BitVec.getLsbD, Nat.testBit_lt_two_pow (by omega)]
      simp
    have hdbl : (c <<< 1).toNat = 2 * c.toNat := by
      rw [BitVec.toNat_shiftLeft, Nat.shiftLeft_eq, Nat.pow_one, Nat.mul_comm, Nat.mod_eq_of_lt h15]
    rw [crcBits, hbit, ih (hdbl ▸ h'), ← BitVec.shiftLeft_add, Nat.add_comm]

/-- The byte enters the high half of the register; the low half stays (41_frame_crc.md R121). -/
theorem xor_shiftLeft_eq_high_xor_low (c : BitVec 16) (b : Byte) :
    c ^^^ (b.setWidth 16 <<< 8) =
      (((c >>> 8).setWidth 8 ^^^ b).setWidth 16 <<< 8) ^^^ (c.setWidth 8).setWidth 16 := by
  refine BitVec.eq_of_getLsbD_eq fun i hi => ?_
  by_cases h : i < 8
  · simp [h, hi]
  · simp [h, hi, show i - 8 < 8 by omega, show 8 + (i - 8) = i by omega]

/-- The printed table is the register after one byte from 0 (41_frame_crc.md R123). -/
theorem crcTable_eq_map : Spec.crcTable = (List.range 256).map fun i => crcByte 0#16 (BitVec.ofNat 8 i) := by
  decide +kernel

theorem crcTable_getD (i : Byte) : Spec.crcTable.getD i.toNat 0 = crcByte 0#16 i := by
  simp [crcTable_eq_map, i.isLt]

/-- Eight turns on the low half of the register shift it up. -/
theorem crcBits_low (c : BitVec 16) : crcBits 8 ((c.setWidth 8).setWidth 16) = c <<< 8 := by
  rw [crcBits_eq_shiftLeft (by simp; omega)]
  refine BitVec.eq_of_getLsbD_eq fun i hi => ?_
  simp [show i - 8 < 8 by omega, show i - 8 < 16 by omega]

theorem crcByte_eq_table (c : BitVec 16) (b : Byte) :
    crcByte c b = (c <<< 8) ^^^ Spec.crcTable.getD ((c >>> 8).setWidth 8 ^^^ b).toNat 0 := by
  rw [crcTable_getD, crcByte, crcByte, xor_shiftLeft_eq_high_xor_low, crcBits_xor, crcBits_low, BitVec.xor_comm,
    BitVec.zero_xor]

/-- Settles O17: the printed table holds the register after one byte, and linearity splits off the high half. -/
theorem crcTableDrivenForm : Obligations.CrcTableDrivenForm := by
  refine ⟨by simp [crcTable_eq_map], crcTable_getD, crcByte_eq_table, fun d => ?_⟩
  simp only [crc16, ← crcByte_eq_table]

end Sys2Proof.Machine
end

section
/-! SUPPORT. One changed byte changes crc16, so CRCV detects every flipped bit (41_frame_crc.md R125). -/

namespace Sys2Proof.Machine

/-- The polynomial has its x^0 term, so the bit that falls out stands in bit 0 after the turn. -/
theorem crcBit_getLsbD_zero (c : BitVec 16) : (crcBit c).getLsbD 0 = c.getLsbD 15 := by
  rw [crcBit_eq]
  cases c.getLsbD 15 <;> simp

/-- No turn maps two registers to one: bit 0 tells whether the polynomial was added (41_frame_crc.md R125). -/
theorem crcBit_injective : Function.Injective crcBit := by
  intro c e h
  have h15 : c.getLsbD 15 = e.getLsbD 15 := by rw [← crcBit_getLsbD_zero, h, crcBit_getLsbD_zero]
  rw [crcBit_eq, crcBit_eq, h15, BitVec.xor_left_inj] at h
  refine BitVec.eq_of_getLsbD_eq fun i hi => ?_
  rcases Nat.lt_or_eq_of_le (Nat.le_of_lt_succ hi) with hlt | rfl
  · simpa [hi, Nat.succ_lt_succ hlt] using congrArg (BitVec.getLsbD · (i + 1)) h
  · exact h15

theorem crcBits_injective (n : Nat) : Function.Injective (crcBits n) := by
  induction n with
  | zero => exact fun _ _ h => h
  | succ n ih => exact ih.comp crcBit_injective

theorem crcByte_left_injective (d : Byte) : Function.Injective (crcByte · d) := fun _ _ h =>
  BitVec.xor_left_inj _ |>.1 (crcBits_injective 8 h)

theorem crcByte_right_injective (c : BitVec 16) : Function.Injective (crcByte c) := fun d e h => by
  have hshift := BitVec.xor_right_inj _ |>.1 (crcBits_injective 8 h)
  refine BitVec.eq_of_getLsbD_eq fun i hi => ?_
  simpa [hi, show i + 8 < 16 by omega] using congrArg (BitVec.getLsbD · (i + 8)) hshift

theorem foldl_crcByte_injective (ds : List Byte) : Function.Injective (ds.foldl crcByte) := by
  induction ds with
  | nil => exact fun _ _ h => h
  | cons d ds ih => exact ih.comp (crcByte_left_injective d)

/-- From any register, a list with one byte changed ends in another register. -/
theorem foldl_crcByte_set_ne (c : BitVec 16) {bs : List Byte} {i : Nat} {v : Byte} (hi : i < bs.length)
    (hv : v ≠ byteAt bs i) : (bs.set i v).foldl crcByte c ≠ bs.foldl crcByte c := by
  induction bs generalizing c i with
  | nil => cases hi
  | cons b bs ih =>
    cases i with
    | zero => exact fun h => hv (crcByte_right_injective c (foldl_crcByte_injective bs h))
    | succ i => exact ih (crcByte c b) (Nat.lt_of_succ_lt_succ hi) hv

/-- A region with one byte changed has another crc16. -/
theorem crc16_set_ne {bs : List Byte} {i : Nat} {v : Byte} (hi : i < bs.length) (hv : v ≠ byteAt bs i) :
    crc16 (bs.set i v) ≠ crc16 bs := fun h =>
  foldl_crcByte_set_ne 0#16 hi hv (BitVec.xor_left_inj _ |>.1 h)

theorem xor_one_shiftLeft_ne (b : Byte) {j : Nat} (hj : j < 8) : b ^^^ (1#8 <<< j) ≠ b := fun h => by
  have := congrArg (BitVec.getLsbD · j) h
  simp [hj] at this

/-- A region holds the bytes with one replaced after the write of that byte. -/
theorem holds_set {m : Memory} {a i : Nat} {bs : List Byte} (v : Byte) (h : Memory.holds m a bs) :
    Memory.holds (Memory.write m (a + i) v) a (bs.set i v) := by
  intro k hk
  rw [List.length_set] at hk
  rw [Memory.read_write, byteAt, List.getD_eq_getElem?_getD, List.getElem?_set]
  by_cases hki : k = i
  · simp [hki, hki ▸ hk]
  · simp only [Nat.add_left_cancel_iff, if_neg hki, if_neg (Ne.symm hki), h k hk, byteAt, List.getD_eq_getElem?_getD]

/-- A CRCV that answers OK read a region whose crc16 is OPC. -/
theorem execCrcv_ok {s t : State} {off len : BitVec 16} (hoff : s.opa = some off) (hlen : s.opb = some len)
    (h : exec .crcv s = .next t) (hok : t.err = .ok) :
    ∃ bs, regionRead s off.toNat len.toNat = .ok bs ∧ s.opc = some (crc16 bs) := by
  obtain ⟨o, l, ho, hl, ⟨bs, w, hbs, hw, rfl⟩ | ⟨e, he, rfl⟩⟩ := execCrcv_next.1 h
  · obtain rfl := Option.some.inj (hoff.symm.trans ho)
    obtain rfl := Option.some.inj (hlen.symm.trans hl)
    have heq : crc16 bs = w := by
      by_contra hne
      simp [hne] at hok
    exact ⟨bs, hbs, heq ▸ hw⟩
  · obtain rfl : e = .ok := hok
    cases regionRead_status he

/-- Settles O18: a flipped bit is a changed byte, and OPC still holds the crc16 of the region before it. -/
theorem crcDetectsEverySingleBitFlip : Obligations.CrcDetectsEverySingleBitFlip := by
  refine ⟨fun bs i j hi hj => crc16_set_ne hi (xor_one_shiftLeft_ne _ hj), ?_⟩
  intro s t off len i j b hoff hlen ht hok hi hj hb
  obtain ⟨bs, hregion, hopc⟩ := execCrcv_ok hoff hlen ht hok
  obtain ⟨d, hd, hle, hbl, hbs⟩ := regionRead_ok.1 hregion
  have hi' : i < bs.length := hbl ▸ hi
  obtain rfl : b = byteAt bs i := Option.some.inj (hb.symm.trans (hbs i hi'))
  have hne := crc16_set_ne hi' (xor_one_shiftLeft_ne (byteAt bs i) hj)
  have hflip : regionRead { s with frame := Memory.write s.frame (off.toNat + i) (byteAt bs i ^^^ (1#8 <<< j)) }
      off.toNat len.toNat = .ok (bs.set i (byteAt bs i ^^^ (1#8 <<< j))) :=
    regionRead_ok.2 ⟨d, hd, hle, List.length_set.trans hbl, holds_set _ hbs⟩
  exact ⟨_, execCrcv_next.2 ⟨off, len, hoff, hlen, .inl ⟨_, _, hflip, hopc, rfl⟩⟩, if_neg hne⟩

end Sys2Proof.Machine
end

section
/-! SUPPORT. Numbers spelled by bytes and by bit positions, and the identity fields of a header
(42_frame_parser.md R143 to R147). -/

namespace Sys2Proof.Machine

/-- One more base-256 digit at the low end of a number is one more byte at the low end of its bit vector. -/
theorem ofNat_mul_add_byte (w n : Nat) (b : Byte) :
    BitVec.ofNat (w + 8) (n * 256 + b.toNat) = BitVec.ofNat w n ++ b := by
  refine BitVec.eq_of_toNat_eq ?_
  have hb := b.isLt
  have hlow : (n * 256 + b.toNat) % 2 ^ 8 = b.toNat := by omega
  have hhigh : (n * 256 + b.toNat) / 2 ^ 8 = n := by omega
  rw [BitVec.toNat_append, BitVec.toNat_ofNat, BitVec.toNat_ofNat, ← Nat.shiftLeft_add_eq_or_of_lt hb,
    Nat.shiftLeft_eq, Nat.pow_add, Nat.mul_comm (2 ^ w), Nat.mod_mul, hlow, hhigh]
  omega

theorem beNat_concat (bs : List Byte) (b : Byte) : beNat (bs ++ [b]) = beNat bs * 256 + b.toNat := by
  simp [beNat]

/-- Byte k of the bit vector that a list of bytes spells, most significant byte first, is byte k of the list. -/
theorem extractLsb'_ofNat_beNat {w : Nat} {bs : List Byte} {k : Nat} (hw : w = 8 * bs.length) (hk : k < bs.length) :
    (BitVec.ofNat w (beNat bs)).extractLsb' (8 * (bs.length - 1 - k)) 8 = byteAt bs k := by
  induction bs using List.reverseRecOn generalizing w with
  | nil => cases hk
  | append_singleton bs b ih =>
    simp only [List.length_append, List.length_singleton] at hw hk
    obtain rfl : w = 8 * bs.length + 8 := by omega
    rw [beNat_concat, ofNat_mul_add_byte, List.length_append, List.length_singleton]
    rcases Nat.lt_or_eq_of_le (Nat.le_of_lt_succ hk) with hlt | rfl
    · rw [BitVec.extractLsb'_append_eq_of_le (by omega),
        show 8 * (bs.length + 1 - 1 - k) - 8 = 8 * (bs.length - 1 - k) by omega, ih rfl hlt]
      simp [byteAt, List.getElem?_append_left hlt]
    · rw [show 8 * (bs.length + 1 - 1 - bs.length) = 0 by omega, BitVec.extractLsb'_append_eq_right]
      simp [byteAt]

/-- Gathering n positions that fall by one down to `lo` takes the bit field of width n at `lo`. -/
theorem ofNat_gather_descending {w : Nat} (a : BitVec w) (lo n : Nat) :
    BitVec.ofNat n (gather a ((List.range n).map fun i => lo + (n - 1 - i))) = a.extractLsb' lo n := by
  refine BitVec.eq_of_getLsbD_eq fun j hj => ?_
  rw [BitVec.getLsbD_ofNat, gather, List.foldl_map, testBit_foldl_range (fun i => a.getLsbD (lo + (n - 1 - i))),
    show n - 1 - (n - 1 - j) = j by omega]
  simp [hj]

/-- ch(v) of the model is the spec's (42_frame_parser.md R144). -/
theorem letterChar_eq_letter (c : Config) (v : BitVec 5) : letterChar c v = Spec.letter c v := by
  have hzero : v.toNat = 0 ↔ v = 0#5 := ⟨fun h => BitVec.eq_of_toNat_eq h, fun h => by rw [h]; rfl⟩
  rw [letterChar, Spec.letter]
  by_cases hv : v = 0#5
  · rw [if_pos hv, if_pos (hzero.2 hv)]
  · rw [if_neg hv, if_neg (mt hzero.1 hv)]
    bv_omega

/-- Under the default IDENT_MAP, ID26 is the low 26 bits of the little-endian address field
(42_frame_parser.md R145). -/
theorem identInteger_default {c : Config} (hc : c.identMap = defaultIdentMap) (b4 b5 b6 b7 b8 b9 : Byte) :
    identInteger c (addressBits b4 b5 b6 b7 b8 b9) = b7.extractLsb' 0 2 ++ b6 ++ b5 ++ b4 := by
  have hmap : defaultIdentMap.id26.toList.map Fin.val = (List.range 26).map fun i => 0 + (26 - 1 - i) := by decide
  rw [identInteger, hc, hmap, ofNat_gather_descending]
  refine BitVec.eq_of_getLsbD_eq fun i hi => ?_
  grind [addressBits]

/-- Under the default IDENT_MAP, ID_LET is bits 29 to 43 of the little-endian address field
(42_frame_parser.md R146). -/
theorem identLetters_default {c : Config} (hc : c.identMap = defaultIdentMap) (b4 b5 b6 b7 b8 b9 : Byte) :
    identLetters c (addressBits b4 b5 b6 b7 b8 b9) =
      b9.extractLsb' 0 4 ++ b8.extractLsb' 7 1 ++ b8.extractLsb' 2 5 ++ b8.extractLsb' 0 2 ++ b7.extractLsb' 5 3 := by
  have hmap : defaultIdentMap.letters.toList.map Fin.val = (List.range 15).map fun i => 29 + (15 - 1 - i) := by decide
  rw [identLetters, hc, hmap, ofNat_gather_descending]
  refine BitVec.eq_of_getLsbD_eq fun i hi => ?_
  grind [addressBits]

theorem digitChar_eq_digit (n : Nat) : digitChar n = Spec.digit n := rfl

/-- The 11 characters of the identity, written as one number, are ID_STR (42_frame_parser.md R147). -/
theorem ofNat_beNat_identChars (c : Config) (x : BitVec 26) (lt : BitVec 15) :
    BitVec.ofNat 88 (beNat (identChars c (x.toNat / 1000000) (x.toNat % 1000000) lt)) = Spec.identString c x lt := by
  simp [beNat, identChars, Spec.identString, ofNat_mul_add_byte, letterChar_eq_letter, digitChar_eq_digit]

/-- Six bytes written as one number are their concatenation. -/
theorem ofNat_beNat_six (b0 b1 b2 b3 b4 b5 : Byte) :
    BitVec.ofNat 48 (beNat [b0, b1, b2, b3, b4, b5]) = b0 ++ b1 ++ b2 ++ b3 ++ b4 ++ b5 := by
  simp [beNat, ofNat_mul_add_byte]

theorem digitChar_toNat (n : Nat) : (digitChar n).toNat = 0x30 + n % 10 := by
  rw [digitChar, BitVec.toNat_ofNat]
  omega

section IdentString

variable {c : Config} {yy serial : Nat} {lt : BitVec 15} {str : BitVec 88}
  (hstr : str = BitVec.ofNat 88 (beNat (identChars c yy serial lt)))
include hstr

/-- Character k of the identity string, counted from 0 at the most significant byte (42_frame_parser.md R147). -/
theorem identString_char {k : Nat} (hk : k < 11) :
    str.extractLsb' (8 * (10 - k)) 8 = byteAt (identChars c yy serial lt) k :=
  hstr ▸ extractLsb'_ofNat_beNat rfl hk

/-- A number read from characters of the identity string is the one read from the 11 characters. -/
theorem foldl_identString_char {ks : List Nat} (hks : ∀ k ∈ ks, k < 11) :
    ks.foldl (fun acc k => 10 * acc + ((str.extractLsb' (8 * (10 - k)) 8).toNat - 0x30)) 0 =
      ks.foldl (fun acc k => 10 * acc + ((byteAt (identChars c yy serial lt) k).toNat - 0x30)) 0 :=
  List.foldl_ext _ _ _ fun acc k hk => by rw [identString_char hstr (hks k hk)]

/-- Characters 1, 2 and 5 to 10 of the identity string are decimal digits (42_frame_parser.md R147). -/
theorem identString_digit {k : Nat} (hk : k ∈ [1, 2, 5, 6, 7, 8, 9, 10]) :
    0x30 ≤ (str.extractLsb' (8 * (10 - k)) 8).toNat ∧ (str.extractLsb' (8 * (10 - k)) 8).toNat ≤ 0x39 := by
  have hlt : ∀ j ∈ [1, 2, 5, 6, 7, 8, 9, 10], j < 11 := by decide
  have hdigit : ∀ j ∈ [1, 2, 5, 6, 7, 8, 9, 10], ∃ n, byteAt (identChars c yy serial lt) j = digitChar n := by
    simp [byteAt, identChars]
  obtain ⟨n, hn⟩ := hdigit k hk
  rw [identString_char hstr (hlt k hk), hn, digitChar_toNat]
  omega

/-- Characters 1 and 2 of the identity string spell the year part (42_frame_parser.md R147). -/
theorem identString_spells_year (h : yy < 100) :
    [1, 2].foldl (fun acc k => 10 * acc + ((str.extractLsb' (8 * (10 - k)) 8).toNat - 0x30)) 0 = yy := by
  rw [foldl_identString_char hstr (by decide)]
  simp only [List.foldl_cons, List.foldl_nil, byteAt, identChars, List.getD_cons_succ, List.getD_cons_zero,
    digitChar_toNat]
  omega

/-- Characters 5 to 10 of the identity string spell the serial number (42_frame_parser.md R147). -/
theorem identString_spells_serial (h : serial < 1000000) :
    [5, 6, 7, 8, 9, 10].foldl (fun acc k => 10 * acc + ((str.extractLsb' (8 * (10 - k)) 8).toNat - 0x30)) 0 =
      serial := by
  rw [foldl_identString_char hstr (by decide)]
  simp only [List.foldl_cons, List.foldl_nil, byteAt, identChars, List.getD_cons_succ, List.getD_cons_zero,
    digitChar_toNat]
  omega

end IdentString

end Sys2Proof.Machine
end

section
/-! SUPPORT. The commands PHDR and STPL on each outcome (42_frame_parser.md R141 to R150). -/

namespace Sys2Proof.Machine

/-- A frame of fewer than 12 bytes has no header (42_frame_parser.md R141). -/
theorem parseHeader_of_dlen_lt {c : Config} {m : Memory} {d : BitVec 16} (h : d.toNat < 12) :
    parseHeader c m (some d) = .error (.status .short) := if_pos h

/-- On 12 bytes the header CRC alone decides between the header and E_HDR_CRC (42_frame_parser.md R141, R142). -/
theorem parseHeader_eq {c : Config} {m : Memory} {d : BitVec 16} {f : List Byte} (hd : 12 ≤ d.toNat)
    (hl : f.length = 12) (hf : Memory.holds m 0 f) :
    parseHeader c m (some d) =
      if crc16 (f.take 10) = be16 (byteAt f 10) (byteAt f 11) then
        .ok (headerOf c (f.take 10) (be16 (byteAt f 10) (byteAt f 11)))
      else .error (.status .hdrCrc) := by
  have hcrc : frameBe16 m 10 = .ok (be16 (byteAt f 10) (byteAt f 11)) :=
    frameBe16_ok.2 ⟨_, _, by simpa using hf 10 (by omega), by simpa using hf 11 (by omega), rfl⟩
  have hbytes : frameRead m 0 10 = .ok (f.take 10) := memRead_ok.2 ⟨by simp [hl], holds_slice (k := 0) hf⟩
  rw [parseHeader, dlenNat_ok.2 ⟨d, rfl, rfl⟩]
  refine (if_neg (Nat.not_lt.2 hd)).trans ?_
  rw [hcrc, hbytes]
  rfl

/-- The registers PHDR writes for 10 bytes, in the terms of 42_frame_parser.md R141 to R147. -/
theorem headerRegsOf_headerOf (c : Config) (f : List Byte) (hc m : BitVec 16) (a : BitVec 48)
    (hm : m = manufacturerWord c.mfrOrder (byteAt f 2) (byteAt f 3))
    (ha : a = addressBits (byteAt f 4) (byteAt f 5) (byteAt f 6) (byteAt f 7) (byteAt f 8) (byteAt f 9)) :
    headerRegsOf (headerOf c (f.take 10) hc) =
      { l := some (byteAt f 0)
        c := some (byteAt f 1)
        m := some m
        mfr := some (Spec.letter c (m.extractLsb' 10 5) ++ Spec.letter c (m.extractLsb' 5 5) ++
          Spec.letter c (m.extractLsb' 0 5))
        addr := some (byteAt f 4 ++ byteAt f 5 ++ byteAt f 6 ++ byteAt f 7 ++ byteAt f 8 ++ byteAt f 9)
        ver := some (byteAt f 8)
        devType := some (byteAt f 9)
        crc := some hc
        id26 := some (identInteger c a)
        idYy := some (BitVec.ofNat 7 ((identInteger c a).toNat / 1000000))
        idSerial := some (BitVec.ofNat 20 ((identInteger c a).toNat % 1000000))
        idLet := some (identLetters c a)
        idStr := some (Spec.identString c (identInteger c a) (identLetters c a)) } := by
  have htake : ∀ i, i < 10 → byteAt (f.take 10) i = byteAt f i := fun i hi => by
    simp [byteAt, List.getD_eq_getElem?_getD, hi]
  subst hm ha
  simp [headerRegsOf, headerOf, htake, ofNat_beNat_identChars, ofNat_beNat_six, manufacturerLetters,
    letterChar_eq_letter]

/-- Settles O19: the header parse succeeds on the 12 bytes, and each of its values is the spec's. -/
theorem phdrWritesTheHeader : Obligations.PhdrWritesTheHeader := by
  intro s d f hd hle hl hf hcrc
  have hparse : parseHeader s.build s.frame s.dlen =
      .ok (headerOf s.build (f.take 10) (byteAt f 10 ++ byteAt f 11)) := by
    rw [hd, parseHeader_eq hle hl hf]
    exact if_pos hcrc
  refine ⟨_, _, _, _, execPhdr_next.2 (.inl ⟨_, hparse, rfl⟩), ?_,
    headerRegsOf_headerOf s.build f _ _ _ rfl rfl,
    fun hmap => ⟨identInteger_default hmap .., identLetters_default hmap ..⟩⟩
  cases s.build.mfrOrder <;> rfl

/-- Settles O20: below 12 bytes the parse raises E_SHORT, with another CRC E_HDR_CRC. -/
theorem phdrFailuresPoisonTheHeader : Obligations.PhdrFailuresPoisonTheHeader := by
  refine fun s d hd => ⟨fun hlt => ?_, fun f hle hl hf hne => ?_⟩
  · exact execPhdr_next.2 (.inr ⟨.short, hd ▸ parseHeader_of_dlen_lt hlt, rfl⟩)
  · exact execPhdr_next.2 (.inr ⟨.hdrCrc, hd ▸ (parseHeader_eq hle hl hf).trans (if_neg hne), rfl⟩)

/-- A PHDR that answers OK wrote the header of some 10 bytes. -/
theorem execPhdr_ok {s t : State} (h : exec .phdr s = .next t) (hok : t.err = .ok) :
    ∃ b hc, t.hdr = headerRegsOf (headerOf s.build b hc) := by
  obtain ⟨hd, hparse, rfl⟩ | ⟨e, he, rfl⟩ := execPhdr_next.1 h
  · obtain ⟨-, b, b10, b11, -, -, -, -, -, -, -, rfl⟩ := parseHeader_ok.1 hparse
    exact ⟨b, _, rfl⟩
  · obtain rfl : e = .ok := hok
    obtain h | h := parseHeader_status he <;> cases h

/-- The two decimal parts of ID26 fit their registers, since ID26 is below 2^26 (42_frame_parser.md R145, R148). -/
theorem identInteger_parts (x : BitVec 26) :
    x.toNat / 1000000 ≤ 67 ∧ (BitVec.ofNat 7 (x.toNat / 1000000)).toNat = x.toNat / 1000000 ∧
      (BitVec.ofNat 20 (x.toNat % 1000000)).toNat = x.toNat % 1000000 := by
  have hx := x.isLt
  exact ⟨by omega, Nat.mod_eq_of_lt (by omega), Nat.mod_eq_of_lt (by omega)⟩

/-- Settles O21: the two parts of ID26 fit their registers, and the characters of ID_STR are their digits. -/
theorem identityDigits : Obligations.IdentityDigits := by
  intro s t h hok
  obtain ⟨b, hc, hregs⟩ := execPhdr_ok h hok
  rw [hregs]
  refine ⟨_, _, _, rfl, rfl, rfl, ?_⟩
  dsimp only [headerOf]
  generalize identInteger s.build _ = x
  obtain ⟨hle, hyy, hserial⟩ := identInteger_parts x
  have hlt : x.toNat % 1000000 < 1000000 := Nat.mod_lt _ (by decide)
  rw [hyy, hserial]
  exact ⟨hle, Nat.le_of_lt_succ hlt, fun k hk => identString_digit rfl hk,
    identString_spells_year rfl (by omega), identString_spells_serial rfl hlt⟩

/-- A frame of fewer than 14 bytes has no transport payload (42_frame_parser.md R150). -/
theorem splitTransport_of_dlen_lt {m : Memory} {d : BitVec 16} (h : d.toNat < 14) :
    splitTransport m (some d) = .error (.status .tplShort) := if_pos h

/-- On 14 bytes or more the transport CRC alone decides between the split and E_TPL_CRC (42_frame_parser.md R150). -/
theorem splitTransport_eq {m : Memory} {d : BitVec 16} {p : List Byte} {c0 c1 : Byte} (hd : 14 ≤ d.toNat)
    (hl : p.length = d.toNat - 14) (hp : Memory.holds m 12 p) (h0 : Memory.read m (d.toNat - 2) = some c0)
    (h1 : Memory.read m (d.toNat - 1) = some c1) :
    splitTransport m (some d) =
      if crc16 p = be16 c0 c1 then .ok (d.toNat - 14) else .error (.status .tplCrc) := by
  have hpayload : frameRead m 12 (d.toNat - 14) = .ok p := memRead_ok.2 ⟨hl, hp⟩
  have hcrc : frameBe16 m (d.toNat - 2) = .ok (be16 c0 c1) :=
    frameBe16_ok.2 ⟨c0, c1, h0, by rwa [show d.toNat - 2 + 1 = d.toNat - 1 by omega], rfl⟩
  rw [splitTransport, dlenNat_ok.2 ⟨d, rfl, rfl⟩]
  refine (if_neg (Nat.not_lt.2 hd)).trans ?_
  rw [hpayload, hcrc]
  rfl

/-- Settles O22: below 14 bytes the split raises E_TPL_SHORT, from there on the transport CRC decides. -/
theorem stplSplitsTheTransport : Obligations.StplSplitsTheTransport := by
  refine ⟨decode_encode .stpl, fun s d hd => ⟨fun hlt => ?_, fun p c0 c1 hle hl hp h0 h1 => ?_⟩⟩
  · exact execStpl_next.2 (.inr ⟨.tplShort, hd ▸ splitTransport_of_dlen_lt hlt, rfl⟩)
  have hsplit := splitTransport_eq hle hl hp h0 h1
  rw [← hd] at hsplit
  split
  case isTrue hcrc =>
    have hlen : BitVec.ofNat 16 (d.toNat - 14) = d - 14#16 := by bv_omega
    exact execStpl_next.2 (.inl ⟨_, hsplit.trans (if_pos hcrc), by rw [hlen]; rfl⟩)
  case isFalse hne => exact execStpl_next.2 (.inr ⟨.tplCrc, hsplit.trans (if_neg hne), rfl⟩)

end Sys2Proof.Machine
end

section
/-! SUPPORT. The LFSR as a linear shift register, and the keystream it gives (43_cipher.md R174, R177, R184). -/

namespace Sys2Proof.Machine

/-- The feedback bit enters at bit 0 (43_cipher.md R174, R176). -/
@[simp] theorem lfsrStep_getLsbD_zero (s : BitVec 32) :
    (lfsrStep s).getLsbD 0 = (((s.getLsbD 1 ^^ s.getLsbD 2) ^^ s.getLsbD 11) ^^ s.getLsbD 31) := by
  simp [lfsrStep]

/-- Every other bit comes from the place below it (43_cipher.md R174). -/
@[simp] theorem lfsrStep_getLsbD_succ (s : BitVec 32) {i : Nat} (h : i < 31) :
    (lfsrStep s).getLsbD (i + 1) = s.getLsbD i := by
  have hi : i < 32 := Nat.lt_succ_of_lt h
  simp [lfsrStep, Nat.succ_lt_succ h, BitVec.getLsbD_eq_getElem hi]

/-- Settles O23: bit 0 is the feedback bit, and the other bits are shifted. -/
theorem lfsrStepFeedback : Obligations.LfsrStepFeedback :=
  fun s => ⟨lfsrStep_getLsbD_zero s, fun _ h => lfsrStep_getLsbD_succ s h⟩

theorem lfsrStep_xor (a b : BitVec 32) : lfsrStep (a ^^^ b) = lfsrStep a ^^^ lfsrStep b := by
  refine BitVec.eq_of_getLsbD_eq fun i hi => ?_
  cases i with
  | zero => simp only [lfsrStep_getLsbD_zero, BitVec.getLsbD_xor, Bool.xor_assoc, Bool.xor_left_comm]
  | succ i => simp [Nat.lt_of_succ_lt_succ hi]

theorem iterate_lfsrStep_xor (n : Nat) (a b : BitVec 32) :
    lfsrStep^[n] (a ^^^ b) = lfsrStep^[n] a ^^^ lfsrStep^[n] b := by
  induction n generalizing a b with
  | zero => rfl
  | succ n ih => simp only [Function.iterate_succ_apply, lfsrStep_xor, ih]

/-- With every tap at 0 the step only shifts (43_cipher.md R174). -/
theorem lfsrStep_eq_shiftLeft {s : BitVec 32} (h : s &&& 0x80000806#32 = 0#32) : lfsrStep s = s <<< 1 := by
  have htap : ∀ i, (0x80000806#32).getLsbD i = true → s.getLsbD i = false := fun i hi => by
    simpa [hi] using congrArg (BitVec.getLsbD · i) h
  rw [lfsrStep, htap 1 rfl, htap 2 rfl, htap 11 rfl, htap 31 rfl]
  exact BitVec.or_zero

/-- A state whose bits reach no tap in `n` steps is only shifted by them. -/
theorem iterate_lfsrStep_eq_shiftLeft {n : Nat} {s : BitVec 32}
    (h : ∀ k, k < n → s <<< k &&& 0x80000806#32 = 0#32) : lfsrStep^[n] s = s <<< n := by
  induction n with
  | zero => simp
  | succ n ih =>
    rw [Function.iterate_succ_apply', ih fun k hk => h k (by omega), lfsrStep_eq_shiftLeft (h n (by omega)),
      BitVec.shiftLeft_add]

theorem lfsrSteps_eq_iterate (n : Nat) (s : BitVec 32) : lfsrSteps n s = lfsrStep^[n] s := by
  induction n generalizing s with
  | zero => rfl
  | succ n ih => exact ih (lfsrStep s)

/-! ### The keystream -/

theorem keystreamByte_lfsrByte (s : BitVec 32) : keystreamByte (lfsrByte s) = Spec.ks s 0 := by
  rw [keystreamByte, lfsrByte, lfsrSteps_eq_iterate]
  rfl

/-- The keystream goes on where the LFSR stands (43_cipher.md R179). -/
theorem ks_iterate (s : BitVec 32) (n i : Nat) : Spec.ks (lfsrStep^[8 * n] s) i = Spec.ks s (n + i) := by
  rw [Spec.ks, Spec.ks, ← Function.iterate_add_apply, show 8 * (i + 1) + 8 * n = 8 * (n + i + 1) by omega]

theorem ks_xor (a b : BitVec 32) (i : Nat) : Spec.ks (a ^^^ b) i = Spec.ks a i ^^^ Spec.ks b i := by
  rw [Spec.ks, iterate_lfsrStep_xor, BitVec.extractLsb'_xor]
  rfl

/-- Seed bits 3 and 12 to 23 reach no tap in the first 8 steps, and are still above bit 7 after them
(43_cipher.md R184). -/
theorem ks_zero_of_ignored_bits {d : BitVec 32} (h : d &&& 0x00FFF008#32 = d) : Spec.ks d 0 = 0#8 := by
  have hmask : ∀ k, k < 8 → 0x00FFF008#32 <<< k &&& 0x80000806#32 = 0#32 := by decide
  have hshift : lfsrStep^[8] d = d <<< 8 := iterate_lfsrStep_eq_shiftLeft fun k hk => by
    rw [← h, BitVec.shiftLeft_and_distrib, BitVec.and_assoc, hmask k hk, BitVec.and_zero]
  show (lfsrStep^[8] d).extractLsb' 0 8 = 0#8
  rw [hshift]
  refine BitVec.eq_of_getLsbD_eq fun i hi => ?_
  simp [hi]

/-- A seed with keystream byte `v`: bit j of `v` is seed bit 24 + j, then at tap 31, plus the feedback bits of two and
three steps before, then at the taps 1 and 2. -/
def seedOfKeystream (v : Byte) : BitVec 32 := (v ^^^ v >>> 2 ^^^ v >>> 3) ++ 0#24

/-- ks_0 takes every value (43_cipher.md R184). -/
theorem ks_seedOfKeystream : ∀ v : Byte, Spec.ks (seedOfKeystream v) 0 = v := by
  decide +kernel

end Sys2Proof.Machine
end

section
/-! SUPPORT. DKEY and the key derivation (43_cipher.md R171). -/

namespace Sys2Proof.Machine

theorem frameBe32_of_holds {m : Memory} {f : List Byte} {a : Nat} (hf : Memory.holds m 0 f) (ha : a + 3 < f.length) :
    frameBe32 m a = .ok (Spec.be32At f a) := by
  have hread : ∀ i, i < f.length → Memory.read m i = some (byteAt f i) := fun i hi => by simpa using hf i hi
  exact frameBe32_ok.2 ⟨_, _, _, _, hread a (by omega), hread (a + 1) (by omega), hread (a + 2) (by omega),
    hread (a + 3) ha, rfl⟩

/-- A frame of fewer than 16 bytes gives no seed, whatever KEY holds (43_cipher.md R171). -/
theorem deriveKey_of_dlen_lt {key : Cell 64} {m : Memory} {d : BitVec 16} (h : d.toNat < 16) :
    deriveKey key m (some d) = .error (.status .short) := if_pos h

/-- The seed of a frame of 16 bytes or more (43_cipher.md R171). -/
theorem deriveKey_of_holds {k : BitVec 64} {m : Memory} {d : BitVec 16} {f : List Byte} (hd : 16 ≤ d.toNat)
    (hl : 16 ≤ f.length) (hf : Memory.holds m 0 f) :
    deriveKey (some k) m (some d) = .ok (Spec.seedOf k f) :=
  deriveKey_ok.2 ⟨d, k, _, _, _, rfl, hd, rfl, frameBe32_of_holds hf (by omega), frameBe32_of_holds hf (by omega),
    frameBe32_of_holds hf (by omega), rfl⟩

/-- Settles O24: below 16 bytes the derivation raises E_SHORT, from there on it gives the seed of the frame. -/
theorem dkeyDerivesTheSeed : Obligations.DkeyDerivesTheSeed := by
  refine fun s d hd => ⟨fun hlt => ?_, fun k f hle hk hl hf => ?_⟩
  · exact execDkey_next.2 (.inr ⟨.short, hd ▸ deriveKey_of_dlen_lt hlt, rfl⟩)
  · have hseed : deriveKey s.key s.frame s.dlen = .ok (Spec.seedOf k f) := by
      rw [hk, hd, deriveKey_of_holds hle (by omega) hf]
    exact execDkey_next.2 (.inl ⟨_, hseed, rfl⟩)

end Sys2Proof.Machine
end

section
/-! SUPPORT. DCRY in the terms of its ciphertext: when it answers OK and what it writes then, and its failures
(43_cipher.md R175 to R184). -/

namespace Sys2Proof.Machine

theorem byteAt_append_left {bs cs : List Byte} {i : Nat} (h : i < bs.length) : byteAt (bs ++ cs) i = byteAt bs i := by
  simp [byteAt, List.getElem?_append_left h]

theorem byteAt_append_right {bs cs : List Byte} {i : Nat} (h : bs.length ≤ i) :
    byteAt (bs ++ cs) i = byteAt cs (i - bs.length) := by
  simp [byteAt, List.getElem?_append_right h]

@[simp] theorem plain_length (x : BitVec 32) (cts : List Byte) : (Spec.plain x cts).length = cts.length := by
  simp [Spec.plain]

theorem byteAt_plain (x : BitVec 32) {cts : List Byte} {i : Nat} (h : i < cts.length) :
    byteAt (Spec.plain x cts) i = byteAt cts i ^^^ Spec.ks x i := by
  rw [byteAt_eq_getElem (by simpa using h)]
  simp [Spec.plain]

/-- The plaintext of two ciphertexts in a row: the second is met by the LFSR after the first (43_cipher.md R179). -/
theorem plain_append (x : BitVec 32) (cs ds : List Byte) :
    Spec.plain x (cs ++ ds) = Spec.plain x cs ++ Spec.plain (lfsrStep^[8 * cs.length] x) ds := by
  refine List.ext_getElem (by simp) fun i hi _ => ?_
  simp only [plain_length, List.length_append] at hi
  by_cases h : i < cs.length
  · rw [List.getElem_append_left (by simpa using h)]
    simp [Spec.plain, byteAt_append_left h]
  · have hge : cs.length ≤ i := Nat.not_lt.1 h
    rw [List.getElem_append_right (by simpa using hge)]
    simp [Spec.plain, byteAt_append_right hge, ks_iterate, Nat.add_sub_cancel' hge]

theorem plain_cons (x : BitVec 32) (ct : Byte) (cts : List Byte) :
    Spec.plain x (ct :: cts) = (ct ^^^ Spec.ks x 0) :: Spec.plain (lfsrByte x) cts := by
  rw [lfsrByte, lfsrSteps_eq_iterate]
  exact plain_append x [ct] cts

/-- The keystream loop reads the region and answers its plaintext, with the LFSR 8 steps a byte further
(43_cipher.md R175, R177). -/
theorem decryptFrom_eq (frame : Memory) (x : BitVec 32) (a n : Nat) :
    decryptFrom frame x a n =
      (frameRead frame a n).map fun cts => (Spec.plain x cts, lfsrStep^[8 * n] x) := by
  induction n generalizing x a with
  | zero => rfl
  | succ n ih =>
    have hx : lfsrStep^[8 * n] (lfsrByte x) = lfsrStep^[8 * (n + 1)] x := by
      rw [lfsrByte, lfsrSteps_eq_iterate, ← Function.iterate_add_apply, Nat.mul_succ]
    simp only [decryptFrom, ih, frameRead, memRead, frameByte, keystreamByte_lfsrByte, hx]
    cases need (.frame a) (Memory.read frame a) with
    | error e => rfl
    | ok ct =>
      cases hr : memRead .frame frame (a + 1) n with
      | error e => rfl
      | ok cts => simp [bind, Except.bind, Except.map, plain_cons]

theorem decryptFrom_of_holds {frame : Memory} {a : Nat} {cts : List Byte} (x : BitVec 32)
    (h : Memory.holds frame a cts) :
    decryptFrom frame x a cts.length = .ok (Spec.plain x cts, lfsrStep^[8 * cts.length] x) := by
  rw [decryptFrom_eq, frameRead, memRead_ok.2 ⟨rfl, h⟩]
  rfl

/-! ### The computation on each outcome -/

/-- A region that passes DLEN is not decrypted (43_cipher.md R175). -/
theorem decrypt_of_dlen_lt {seed : Cell 32} {frame : Memory} {d : BitVec 16} {off len : Nat}
    (h : d.toNat < off + len) : decrypt seed frame (some d) off len = .error (.status .bounds) := if_pos h

/-- An empty region within DLEN has no magic byte (43_cipher.md R181). -/
theorem decrypt_of_empty {seed : Cell 32} {frame : Memory} {d : BitVec 16} {off : Nat} (h : off ≤ d.toNat) :
    decrypt seed frame (some d) off 0 = .error (.status .magic) := if_neg (Nat.not_lt.2 h)

/-- In a region within DLEN the first byte alone decides between the keystream loop and E_MAGIC
(43_cipher.md R175, R178). -/
theorem decrypt_eq {x : BitVec 32} {frame : Memory} {d : BitVec 16} {off len : Nat} {ct : Byte}
    (hle : off + len ≤ d.toNat) (hpos : 0 < len) (hct : Memory.read frame off = some ct) :
    decrypt (some x) frame (some d) off len =
      if ct ^^^ Spec.ks x 0 = magicByte then decryptFrom frame x off len else .error (.status .magic) := by
  rw [decrypt, dlenNat_ok.2 ⟨d, rfl, rfl⟩, ← keystreamByte_lfsrByte]
  refine (if_neg (Nat.not_lt.2 hle)).trans ((if_neg (Nat.ne_of_gt hpos)).trans ?_)
  rw [need_some, frameByte_ok.2 hct]
  rfl

/-! ### The command -/

/-- DCRY's computation raises `e`, and the command poisons its write set (43_cipher.md R175). -/
theorem execDcry_of_status {s : State} {off len : BitVec 16} {e : Err} (hoff : s.opa = some off)
    (hlen : s.opb = some len) (h : decrypt s.seed s.frame s.dlen off.toNat len.toNat = .error (.status e)) :
    exec .dcry s = .next { dcryPoisoned s off.toNat len.toNat with err := e } :=
  execDcry_next.2 ⟨off, len, hoff, hlen, .inr ⟨e, h, rfl⟩⟩

/-- The operands of DCRY name a region within DLEN that holds the ciphertext `cts`, of one byte or more, and SEED holds
`x` (43_cipher.md R175). -/
structure HoldsCiphertext (s : State) (off : BitVec 16) (x : BitVec 32) (cts : List Byte) : Prop where
  opa : s.opa = some off
  opb : ∃ len, s.opb = some len ∧ cts.length = len.toNat
  dlen : ∃ d, s.dlen = some d ∧ off.toNat + cts.length ≤ d.toNat
  seed : s.seed = some x
  holds : Memory.holds s.frame off.toNat cts
  pos : 0 < cts.length

/-- The state after DCRY has decrypted the ciphertext `cts` at `off` under the seed `x` (43_cipher.md R175). -/
def decrypted (s : State) (off : BitVec 16) (x : BitVec 32) (cts : List Byte) : State :=
  { s with frame := Memory.writeBytes s.frame off.toNat (Spec.plain x cts),
           lfsr := some (lfsrStep^[8 * cts.length] x), fok := false, err := .ok }

theorem HoldsCiphertext.length_eq {s : State} {off n : BitVec 16} {x : BitVec 32} {cts : List Byte}
    (h : HoldsCiphertext s off x cts) (hn : s.opb = some n) : cts.length = n.toNat := by
  obtain ⟨len, hopb, hl⟩ := h.opb
  rw [hl, Option.some.inj (hopb.symm.trans hn)]

/-- On a ciphertext the first plaintext byte alone decides DCRY's outcome (43_cipher.md R178). -/
theorem HoldsCiphertext.execDcry_eq {s : State} {off : BitVec 16} {x : BitVec 32} {cts : List Byte}
    (h : HoldsCiphertext s off x cts) :
    exec .dcry s = .next (if byteAt cts 0 ^^^ Spec.ks x 0 = magicByte then decrypted s off x cts
      else { dcryPoisoned s off.toNat cts.length with err := .magic }) := by
  obtain ⟨hopa, ⟨len, hopb, hlen⟩, ⟨d, hd, hle⟩, hseed, hcts, hpos⟩ := h
  have hdec := decrypt_eq (x := x) hle hpos (hcts 0 hpos)
  rw [← hseed, ← hd, decryptFrom_of_holds x hcts, hlen] at hdec
  split
  case isTrue hm =>
    rw [decrypted, hlen]
    exact execDcry_next.2 ⟨off, len, hopa, hopb, .inl ⟨_, hdec.trans (if_pos hm), rfl⟩⟩
  case isFalse hm =>
    rw [hlen]
    exact execDcry_of_status hopa hopb (hdec.trans (if_neg hm))

/-- DCRY answers OK exactly on a ciphertext that begins with the magic byte, and decrypts it
(43_cipher.md R175, R178). -/
theorem execDcry_ok_iff {s t : State} :
    exec .dcry s = .next t ∧ t.err = .ok ↔
      ∃ off x cts, HoldsCiphertext s off x cts ∧ byteAt cts 0 ^^^ Spec.ks x 0 = magicByte ∧
        t = decrypted s off x cts := by
  constructor
  · rintro ⟨h, hok⟩
    obtain ⟨off, len, hopa, hopb, ⟨r, hr, rfl⟩ | ⟨e, he, rfl⟩⟩ := execDcry_next.1 h
    · obtain ⟨d, x, ct, hd, hle, hpos, hseed, hct, hm, hfrom⟩ := decrypt_ok.1 hr
      rw [decryptFrom_eq] at hfrom
      cases hread : frameRead s.frame off.toNat len.toNat with
      | error e => rw [hread] at hfrom; cases hfrom
      | ok cts =>
        rw [hread] at hfrom
        cases hfrom
        obtain ⟨hl, hcts⟩ := memRead_ok.1 hread
        rw [← hl] at hle hpos ⊢
        obtain rfl : ct = byteAt cts 0 := Option.some.inj (hct.symm.trans (hcts 0 hpos))
        rw [keystreamByte_lfsrByte] at hm
        exact ⟨off, x, cts, ⟨hopa, ⟨len, hopb, hl⟩, ⟨d, hd, hle⟩, hseed, hcts, hpos⟩, hm, rfl⟩
    · obtain rfl : e = .ok := hok
      obtain h | h := decrypt_status he <;> cases h
  · rintro ⟨off, x, cts, hc, hm, rfl⟩
    exact ⟨hc.execDcry_eq.trans (by rw [if_pos hm]), rfl⟩

/-- Settles O25: the region is a ciphertext that begins with the magic byte. -/
theorem dcryDecryptsTheRegion : Obligations.DcryDecryptsTheRegion := by
  intro s off len d seed cts hopa hopb hd hseed hle hl hcts hpos hm
  rw [← hl] at hle hpos ⊢
  have hc : HoldsCiphertext s off seed cts := ⟨hopa, ⟨len, hopb, hl⟩, ⟨d, hd, hle⟩, hseed, hcts, hpos⟩
  have hlen : (Spec.plain seed cts).length = cts.length := plain_length seed cts
  refine ⟨_, (execDcry_ok_iff.2 ⟨off, seed, cts, hc, hm, rfl⟩).1, rfl, fun i hi => ?_, ?_⟩
  · rw [← byteAt_plain seed hi]
    exact Memory.writeBytes_holds s.frame off.toNat _ i (hlen ▸ hi)
  · rw [← hlen]
    exact writeBytes_sameOutside s.frame off.toNat _

/-- Settles O26: each of the three failures ends the computation with its status, and the command poisons the
region. -/
theorem dcryFailuresPoisonTheRegion : Obligations.DcryFailuresPoisonTheRegion := by
  intro s off len d hopa hopb hd e hfail
  have hstatus : decrypt s.seed s.frame s.dlen off.toNat len.toNat = .error (.status e) := by
    rw [hd]
    obtain ⟨hlt, rfl⟩ | ⟨hle, hzero, rfl⟩ | ⟨hle, hpos, rfl, seed, ct, hseed, hct, hne⟩ := hfail
    · exact decrypt_of_dlen_lt hlt
    · rw [hzero]; exact decrypt_of_empty (by omega)
    · rw [hseed]; exact (decrypt_eq hle hpos hct).trans (if_neg hne)
  refine ⟨_, execDcry_of_status hopa hopb hstatus, rfl, fun a hlo hhi => ?_, fun a ha => ?_⟩
  · rw [dcryPoisoned_frame, Memory.read_poison, if_pos ⟨hlo, hhi⟩]
  · rw [dcryPoisoned_frame, Memory.read_poison, if_neg (by omega)]

/-! ### Two regions in a row -/

theorem Memory.writeBytes_append (m : Memory) (a : Nat) (bs cs : List Byte) :
    Memory.writeBytes m a (bs ++ cs) = Memory.writeBytes (Memory.writeBytes m a bs) (a + bs.length) cs := by
  induction bs generalizing m a with
  | nil => rfl
  | cons b bs ih =>
    rw [List.cons_append, Memory.writeBytes, Memory.writeBytes, ih, List.length_cons, Nat.add_right_comm, Nat.add_assoc]

theorem holds_append {m : Memory} {a : Nat} {bs cs : List Byte} (hb : Memory.holds m a bs)
    (hc : Memory.holds m (a + bs.length) cs) : Memory.holds m a (bs ++ cs) := by
  intro i hi
  rw [List.length_append] at hi
  by_cases h : i < bs.length
  · rw [hb i h, byteAt_append_left h]
  · have hrest := hc (i - bs.length) (by omega)
    rw [show a + bs.length + (i - bs.length) = a + i by omega] at hrest
    rw [hrest, byteAt_append_right (Nat.not_lt.1 h)]

/-- Bytes that stand past written ones stood there before the write. -/
theorem holds_of_writeBytes_below {m : Memory} {a b : Nat} {bs cs : List Byte} (hab : a + bs.length ≤ b)
    (h : Memory.holds (Memory.writeBytes m a bs) b cs) : Memory.holds m b cs := fun i hi => by
  rw [← Memory.read_writeBytes_outside m a (b + i) bs (.inr (by omega))]
  exact h i hi

/-- Settles O28: the two ciphertexts in a row are the ciphertext of both regions, and their plaintexts and LFSR states
follow each other. -/
theorem decryptionIsSequential : Obligations.DecryptionIsSequential := by
  intro s a b off n1 n2 hoff hwidth ha haok hb hbok
  obtain ⟨off1, x, cs, hcs, hm, rfl⟩ := execDcry_ok_iff.1 ⟨ha, haok⟩
  obtain ⟨off2, y, ds, hds, -, rfl⟩ := execDcry_ok_iff.1 ⟨hb, hbok⟩
  obtain rfl : off1 = off := Option.some.inj (hcs.opa.symm.trans hoff)
  obtain rfl : off1 + n1 = off2 := Option.some.inj hds.opa
  obtain rfl : lfsrStep^[8 * cs.length] x = y := Option.some.inj hds.seed
  have hn1 : cs.length = n1.toNat := hcs.length_eq rfl
  have hn2 : ds.length = n2.toNat := hds.length_eq rfl
  have hoff2 : (off1 + n1).toNat = off1.toNat + cs.length := by
    rw [hn1, BitVec.toNat_add, Nat.mod_eq_of_lt (by omega)]
  have hlen : (cs ++ ds).length = (n1 + n2).toNat := by
    rw [List.length_append, hn1, hn2, BitVec.toNat_add, Nat.mod_eq_of_lt (by omega)]
  have hdscts : Memory.holds s.frame (off1.toNat + cs.length) ds :=
    hoff2 ▸ holds_of_writeBytes_below (by rw [plain_length, hoff2]) hds.holds
  obtain ⟨d, hd, hle⟩ := hds.dlen
  have hboth : HoldsCiphertext { s with opb := some (n1 + n2) } off1 x (cs ++ ds) :=
    { opa := hoff
      opb := ⟨_, rfl, hlen⟩
      dlen := ⟨d, hd, by rw [List.length_append]; omega⟩
      seed := hcs.seed
      holds := holds_append hcs.holds hdscts
      pos := by rw [List.length_append]; exact Nat.add_pos_left hcs.pos _ }
  have hmagic : byteAt (cs ++ ds) 0 ^^^ Spec.ks x 0 = magicByte := by
    rwa [byteAt_append_left hcs.pos]
  refine ⟨_, (execDcry_ok_iff.2 ⟨_, _, _, hboth, hmagic, rfl⟩).1, rfl, ?_, fun i => ?_⟩
  · show some (lfsrStep^[8 * (cs ++ ds).length] x) = some (lfsrStep^[8 * ds.length] (lfsrStep^[8 * cs.length] x))
    rw [← Function.iterate_add_apply, List.length_append, Nat.mul_add, Nat.add_comm]
  · refine congrArg (Memory.read · i) ?_
    show Memory.writeBytes s.frame off1.toNat (Spec.plain x (cs ++ ds)) =
      Memory.writeBytes (Memory.writeBytes s.frame off1.toNat (Spec.plain x cs)) (off1 + n1).toNat _
    rw [plain_append, Memory.writeBytes_append, plain_length, hoff2]

/-! ### A wrong seed -/

/-- Settles O29: ks_0 of the wrong seed is ks_0 of the right one plus ks_0(d), so the first plaintext byte is the magic
byte exactly when ks_0(d) = 0. -/
theorem magicCheckOfAWrongSeed : Obligations.MagicCheckOfAWrongSeed := by
  refine ⟨fun a b => ks_xor a b 0, fun v => ⟨_, ks_seedOfKeystream v⟩, fun d => ks_zero_of_ignored_bits,
    by decide, fun s t x d hx ht hok => ?_⟩
  obtain ⟨off, y, cts, hcts, hm, rfl⟩ := execDcry_ok_iff.1 ⟨ht, hok⟩
  obtain rfl : x = y := Option.some.inj (hx.symm.trans hcts.seed)
  have hwrong : HoldsCiphertext { s with seed := some (x ^^^ d) } off (x ^^^ d) cts := { hcts with seed := rfl }
  have hiff : byteAt cts 0 ^^^ Spec.ks (x ^^^ d) 0 = magicByte ↔ Spec.ks d 0 = 0#8 := by
    rw [ks_xor, ← BitVec.xor_assoc, hm]
    simp
  refine ⟨fun h => ⟨_, hwrong.execDcry_eq, ?_⟩, fun h => ⟨_, hwrong.execDcry_eq, ?_⟩⟩
  · rw [if_pos (hiff.2 h)]; rfl
  · rw [if_neg (mt hiff.1 h)]

end Sys2Proof.Machine
end

section
/-! SUPPORT. Bit fields gathered from the payload, and PRDG on each outcome (44_reading_parser.md R190 to R205). -/

namespace Sys2Proof.Machine

/-! ### Gathered bit fields -/

theorem gather_lt {w : Nat} (a : BitVec w) (ps : List Nat) : gather a ps < 2 ^ ps.length := by
  induction ps using List.reverseRecOn with
  | nil => simp [gather]
  | append_singleton ps p ih =>
    have hb := (a.getLsbD p).toNat_lt
    simp only [gather, List.foldl_append, List.foldl_cons, List.foldl_nil, List.length_append, List.length_singleton,
      Nat.pow_succ] at ih ⊢
    omega

theorem gather_append {w : Nat} (a : BitVec w) (ps qs : List Nat) :
    gather a (ps ++ qs) = 2 ^ qs.length * gather a ps + gather a qs := by
  induction qs using List.reverseRecOn with
  | nil => simp [gather]
  | append_singleton qs q ih =>
    rw [← List.append_assoc]
    simp only [gather, List.foldl_append, List.foldl_cons, List.foldl_nil, List.length_append,
      List.length_singleton] at ih ⊢
    rw [ih]
    ring

/-- The field gathered from two runs of positions is the fields of the two runs side by side. -/
theorem ofNat_gather_append {w m n : Nat} (a : BitVec w) (ps : List Nat) {qs : List Nat} (hq : qs.length = n) :
    BitVec.ofNat (m + n) (gather a (ps ++ qs)) = BitVec.ofNat m (gather a ps) ++ BitVec.ofNat n (gather a qs) := by
  refine BitVec.eq_of_getLsbD_eq fun i hi => ?_
  rw [gather_append, hq, BitVec.getLsbD_ofNat, Nat.testBit_two_pow_mul_add _ (hq ▸ gather_lt a qs),
    BitVec.getLsbD_append, BitVec.getLsbD_ofNat, BitVec.getLsbD_ofNat]
  by_cases h : i < n
  · simp [h, hi]
  · simp [h, hi, show i - n < m by omega]

theorem gather_descending {w : Nat} (a : BitVec w) (lo n : Nat) :
    gather a ((List.range n).map fun i => lo + (n - 1 - i)) = (a.extractLsb' lo n).toNat := by
  have hlt := gather_lt a ((List.range n).map fun i => lo + (n - 1 - i))
  rw [List.length_map, List.length_range] at hlt
  rw [← ofNat_gather_descending, BitVec.toNat_ofNat, Nat.mod_eq_of_lt hlt]

/-! ### The fields of a reading in the spec's terms -/

/-- Under the default UNIT_FIELD, RD_UNIT tells whether u[7:3] is 0x02 (44_reading_parser.md R198). -/
theorem unitField_default {c : Config} (hc : c.unitField = [7, 6, 5, 4, 3]) (u : Byte) :
    unitField c u = 1#1 ↔ u.extractLsb' 3 5 = 0x02#5 := by
  have hmap : c.unitField.map Fin.val = (List.range 5).map fun i => 3 + (5 - 1 - i) := by rw [hc]; decide
  refine Iff.trans ?_ BitVec.toNat_inj
  rw [unitField, hmap, gather_descending]
  split
  case isTrue h => exact iff_of_true rfl h
  case isFalse h => exact iff_of_false (by decide) h

/-- Under the default ALARM_MAP, RD_RANDGEN is s0[6:5] (44_reading_parser.md R194). -/
theorem randGenField_default {c : Config} (hc : c.alarmMap = defaultAlarmMap) (s0 s1 s2 : Byte) :
    randGenField c s0 s1 s2 = s0.extractLsb' 5 2 := by
  have hmap : defaultAlarmMap.randGen.toList.map Fin.val = (List.range 2).map fun i => 5 + (2 - 1 - i) := by decide
  rw [randGenField, hc, hmap, ofNat_gather_descending]
  exact BitVec.extractLsb'_append_eq_of_add_le (by omega)

/-- Under the default ALARM_MAP, RD_ALARMS is s0[7], s1[7:5] and s2 side by side (44_reading_parser.md R195). -/
theorem alarmField_default {c : Config} (hc : c.alarmMap = defaultAlarmMap) (s0 s1 s2 : Byte) :
    alarmField c s0 s1 s2 = s0.extractLsb' 7 1 ++ s1.extractLsb' 5 3 ++ s2 := by
  have hmap : defaultAlarmMap.alarms.toList.map Fin.val =
      ((List.range 1).map fun i => 7 + (1 - 1 - i)) ++ ((List.range 3).map fun i => 13 + (3 - 1 - i)) ++
        ((List.range 8).map fun i => 16 + (8 - 1 - i)) := by decide
  have h0 : (statusBits s0 s1 s2).extractLsb' 7 1 = s0.extractLsb' 7 1 :=
    BitVec.extractLsb'_append_eq_of_add_le (by omega)
  have h1 : (statusBits s0 s1 s2).extractLsb' 13 3 = s1.extractLsb' 5 3 :=
    (BitVec.extractLsb'_append_eq_of_le (by omega)).trans (BitVec.extractLsb'_append_eq_of_add_le (by omega))
  have h2 : (statusBits s0 s1 s2).extractLsb' 16 8 = s2 :=
    (BitVec.extractLsb'_append_eq_of_le (by omega)).trans BitVec.extractLsb'_append_eq_left
  rw [alarmField, hc, hmap, ofNat_gather_append (m := 4) (n := 8) _ _ rfl,
    ofNat_gather_append (m := 1) (n := 3) _ _ rfl]
  simp only [ofNat_gather_descending, h0, h1, h2]

/-- The two year parts stand side by side, in the order of YEAR_ORDER (44_reading_parser.md R202). -/
theorem yearBits_eq (o : YearOrder) (p14 p15 : Byte) :
    yearBits o p14 p15 = match o with
      | .doc => (p14.extractLsb' 5 3 ++ p15.extractLsb' 4 4 : BitVec 7).toNat
      | .typeG => (p15.extractLsb' 4 4 ++ p14.extractLsb' 5 3 : BitVec 7).toNat := by
  cases o <;> simp only [yearBits] <;>
    rw [BitVec.toNat_append, ← Nat.shiftLeft_add_eq_or_of_lt (BitVec.isLt _), Nat.shiftLeft_eq]

/-- RD_EXP is u[2:0] - 6 (44_reading_parser.md R197). -/
theorem exponentField_eq_ofInt (u : Byte) :
    exponentField u = BitVec.ofInt 4 ((u.extractLsb' 0 3).toNat - 6) := by
  rw [exponentField]
  generalize u.extractLsb' 0 3 = x
  revert x
  decide

/-- RD_INTERVAL is the power of two that s0[3:0] names (44_reading_parser.md R193). -/
theorem intervalField_eq_ofNat (s0 : Byte) :
    intervalField s0 = BitVec.ofNat 32 (2 ^ ((s0.extractLsb' 0 4).toNat + 2)) :=
  BitVec.eq_of_toNat_eq (BitVec.toNat_twoPow _ _)

theorem byteAt_slice {bs : List Byte} {k n i : Nat} (h : i < n) :
    byteAt ((bs.drop k).take n) i = byteAt bs (k + i) := by
  simp [byteAt, h]

/-- The registers PRDG writes for 16 payload bytes, in the terms of 44_reading_parser.md R193 to R205. -/
theorem readingRegsOf_readingOf (c : Config) (p : List Byte) (id : BitVec 88) (q : Nat) :
    readingRegsOf (readingOf c (p.take 5) ((p.drop 6).take 10) id q) =
      { cur := some (byteAt p 9 ++ byteAt p 8 ++ byteAt p 7 ++ byteAt p 6)
        chk := some (byteAt p 13 ++ byteAt p 12 ++ byteAt p 11 ++ byteAt p 10)
        exp := some (BitVec.ofInt 4 (((byteAt p 4).extractLsb' 0 3).toNat - 6))
        unit := some (unitField c (byteAt p 4))
        unitsRaw := some (byteAt p 4)
        day := some ((byteAt p 14).extractLsb' 0 5)
        month := some ((byteAt p 15).extractLsb' 0 4)
        year := some (BitVec.ofNat 16 (fullYear (yearBits c.yearOrder (byteAt p 14) (byteAt p 15))))
        batt := some ((byteAt p 2).extractLsb' 0 5)
        interval := some (BitVec.ofNat 32 (2 ^ (((byteAt p 1).extractLsb' 0 4).toNat + 2)))
        randGen := some (randGenField c (byteAt p 1) (byteAt p 2) (byteAt p 3))
        alarms := some (alarmField c (byteAt p 1) (byteAt p 2) (byteAt p 3))
        rssi := some q
        id := some id } := by
  have hlo : ∀ i, i < 5 → byteAt (p.take 5) i = byteAt p i := fun i hi => by
    simpa using byteAt_slice (bs := p) (k := 0) hi
  have hhi : ∀ i, i < 10 → byteAt ((p.drop 6).take 10) i = byteAt p (6 + i) := fun i hi => byteAt_slice hi
  simp [readingRegsOf, readingOf, hlo, hhi, le32, exponentField_eq_ofInt, intervalField_eq_ofNat]

/-! ### The computation on each outcome -/

/-- A region that passes DLEN holds no reading (44_reading_parser.md R190). -/
theorem parseReading_of_dlen_lt {c : Config} {id : Cell 88} {q : RssiCell} {frame : Memory} {d : BitVec 16}
    {off len : Nat} (h : d.toNat < off + len) :
    parseReading c id q frame (some d) off len = .error (.status .bounds) := if_pos h

/-- Fewer than 16 bytes hold no reading (44_reading_parser.md R190). -/
theorem parseReading_of_short {c : Config} {id : Cell 88} {q : RssiCell} {frame : Memory} {d : BitVec 16}
    {off len : Nat} (hle : off + len ≤ d.toNat) (h : len < 16) :
    parseReading c id q frame (some d) off len = .error (.status .rdgShort) :=
  (if_neg (Nat.not_lt.2 hle)).trans (if_pos h)

section Payload

variable {frame : Memory} {off : Nat} {p : List Byte} (hl : p.length = 16)
  (hp : ∀ i, i < 16 → i ≠ 5 → Memory.read frame (off + i) = some (byteAt p i))

include hp in
theorem holds_payload_slice {k n : Nat} (hn : k + n ≤ 16) (h5 : 5 < k ∨ k + n ≤ 5) :
    Memory.holds frame (off + k) ((p.drop k).take n) := by
  intro i hi
  obtain hi : i < n := by simp at hi; omega
  rw [byteAt_slice hi, Nat.add_assoc]
  exact hp (k + i) (by omega) (by omega)

include hl hp

/-- The first read of PRDG takes P[0..5). -/
theorem frameRead_payload_low : frameRead frame off 5 = .ok (p.take 5) :=
  memRead_ok.2 ⟨by simp [hl], holds_payload_slice hp (k := 0) (by omega) (by omega)⟩

/-- The second read of PRDG takes P[6..16): byte 5 need hold no value (44_reading_parser.md R207). -/
theorem frameRead_payload_high : frameRead frame (off + 6) 10 = .ok ((p.drop 6).take 10) :=
  memRead_ok.2 ⟨by simp [hl], holds_payload_slice hp (by omega) (by omega)⟩

/-- On 16 bytes within DLEN the magic byte alone decides between the reading and E_MAGIC
(44_reading_parser.md R190, R191). -/
theorem parseReading_eq {c : Config} {id : Cell 88} {q : RssiCell} {d : BitVec 16} {len : Nat}
    (hle : off + len ≤ d.toNat) (hlen : 16 ≤ len) :
    parseReading c id q frame (some d) off len =
      if byteAt p 0 = magicByte then do
        let id ← need (.reg .idStr) id
        let q ← need (.reg .rssi) q
        .ok (readingOf c (p.take 5) ((p.drop 6).take 10) id q)
      else .error (.status .magic) := by
  have h0 : byteAt (p.take 5) 0 = byteAt p 0 := byteAt_slice (bs := p) (k := 0) (by omega)
  rw [parseReading, dlenNat_ok.2 ⟨d, rfl, rfl⟩]
  refine (if_neg (Nat.not_lt.2 hle)).trans ((if_neg (Nat.not_lt.2 hlen)).trans ?_)
  rw [frameRead_payload_low hl hp, frameRead_payload_high hl hp, ← h0]
  rfl

end Payload

/-! ### The command -/

/-- Settles O30: the parse succeeds on the 16 bytes, and each of its values is the spec's. -/
theorem prdgExtractsTheReading : Obligations.PrdgExtractsTheReading := by
  intro s off len d p id q hopa hopb hd hle hlen hl hp hmagic hid hq
  have hparse : parseReading s.build s.hdr.idStr s.rssi s.frame s.dlen off.toNat len.toNat =
      .ok (readingOf s.build (p.take 5) ((p.drop 6).take 10) id q) := by
    rw [hd, hid, hq, parseReading_eq hl hp hle hlen]
    exact if_pos hmagic
  refine ⟨unitField s.build (byteAt p 4), randGenField s.build (byteAt p 1) (byteAt p 2) (byteAt p 3),
    alarmField s.build (byteAt p 1) (byteAt p 2) (byteAt p 3), yearBits s.build.yearOrder (byteAt p 14) (byteAt p 15),
    ?_, yearBits_eq .., fun hc => unitField_default hc _,
    fun hc => ⟨randGenField_default hc .., alarmField_default hc ..⟩⟩
  rw [execPrdg_next.2 ⟨off, len, hopa, hopb, .inl ⟨_, hparse, rfl⟩⟩, readingRegsOf_readingOf]
  rfl

/-- Settles O31: each of the three failures ends the parse with its status. -/
theorem prdgFailuresPoisonTheReading : Obligations.PrdgFailuresPoisonTheReading := by
  intro s off len d hopa hopb hd e hfail
  have hstatus : parseReading s.build s.hdr.idStr s.rssi s.frame s.dlen off.toNat len.toNat = .error (.status e) := by
    rw [hd]
    obtain ⟨hlt, rfl⟩ | ⟨hle, hshort, rfl⟩ | ⟨hle, hlen, rfl, p, hl, hp, hne⟩ := hfail
    · exact parseReading_of_dlen_lt hlt
    · exact parseReading_of_short hle hshort
    · exact (parseReading_eq hl (fun i hi _ => hp i (by omega)) hle hlen).trans (if_neg hne)
  exact execPrdg_next.2 ⟨off, len, hopa, hopb, .inr ⟨e, hstatus, rfl⟩⟩

end Sys2Proof.Machine
end

section
/-! SUPPORT. A Host write of a plain or of a read-only register, and the Radio's Deliver (45_pipeline.md R230, R241). -/

namespace Sys2Proof.Machine

/-- A step whose action is a Host write of an assigned register writes that register. -/
theorem step_writeReg {s : State} {num : BitVec 8} {v : Nat} {r : Reg} {rest : List Action}
    (h : s.schedule = .writeReg num v :: rest) (hr : Reg.ofNumber num = some r) :
    step s = writeRegister { s with schedule := rest } (.writeReg num v) r v := by
  simp only [step_of_schedule h, perform, hr]

/-- A read-only register ignores a Host write (45_pipeline.md R241). -/
theorem writeRegister_readOnly {s : State} {a : Action} {r : Reg} {v : Nat} (h : Spec.readOnly r = true) :
    writeRegister s a r v = .next s := by
  cases r with
  | cmd | opa | opb | opc | rawLen | dlen | key | seed | rssi => exact absurd h Bool.false_ne_true
  | _ => rfl

/-- Settles O50: the step writes the register, which ignores the write. -/
theorem readOnlyWritesAreIgnored : Obligations.ReadOnlyWritesAreIgnored := by
  intro s num v rest r hs hr hro
  rw [step_writeReg hs hr, writeRegister_readOnly hro]

/-! ### A plain register -/

theorem regValue_opa_of_ne (s : State) (x : Cell 16) {r : Reg} (h : r ≠ .opa) :
    regValue { s with opa := x } r = regValue s r := by
  cases r with
  | opa => exact absurd rfl h
  | _ => rfl

theorem regValue_opb_of_ne (s : State) (x : Cell 16) {r : Reg} (h : r ≠ .opb) :
    regValue { s with opb := x } r = regValue s r := by
  cases r with
  | opb => exact absurd rfl h
  | _ => rfl

theorem regValue_opc_of_ne (s : State) (x : Cell 16) {r : Reg} (h : r ≠ .opc) :
    regValue { s with opc := x } r = regValue s r := by
  cases r with
  | opc => exact absurd rfl h
  | _ => rfl

theorem regValue_key_of_ne (s : State) (x : Cell 64) {r : Reg} (h : r ≠ .key) :
    regValue { s with key := x } r = regValue s r := by
  cases r with
  | key => exact absurd rfl h
  | _ => rfl

theorem regValue_seed_of_ne (s : State) (x : Cell 32) {r : Reg} (h : r ≠ .seed) :
    regValue { s with seed := x } r = regValue s r := by
  cases r with
  | seed => exact absurd rfl h
  | _ => rfl

theorem regValue_rssi_of_ne (s : State) (x : RssiCell) {r : Reg} (h : r ≠ .rssi) :
    regValue { s with rssi := x } r = regValue s r := by
  cases r with
  | rssi => exact absurd rfl h
  | _ => rfl

theorem cellNat_ofNat (w v : Nat) : cellNat (some (BitVec.ofNat w v)) = some (v % 2 ^ w) :=
  congrArg some (BitVec.toNat_ofNat v w)

/-- From `s` to `t` register `r` has taken the value `v`, and every other register, the buffers, the mailbox, EVLOG and
the schedule stay. -/
structure WritesRegister (s t : State) (r : Reg) (v : Nat) : Prop where
  value : regValue t r = some v
  others : ∀ r', r' ≠ r → regValue t r' = regValue s r'
  raw : t.raw = s.raw
  frame : t.frame = s.frame
  mbox : t.mbox = s.mbox
  mboxLen : t.mboxLen = s.mboxLen
  mboxRssi : t.mboxRssi = s.mboxRssi
  evlog : t.evlog = s.evlog
  schedule : t.schedule = s.schedule

/-- A plain register takes the value cut to its width (45_pipeline.md R241). -/
theorem writeRegister_plain (s : State) (a : Action) {r : Reg} (v : Nat)
    (hr : r ∈ [Reg.opa, .opb, .opc, .key, .seed, .rssi]) :
    ∃ t, writeRegister s a r v = .next t ∧ WritesRegister s t r (v % 2 ^ Reg.width s.build r) := by
  simp only [List.mem_cons, List.not_mem_nil, or_false] at hr
  obtain rfl | rfl | rfl | rfl | rfl | rfl := hr
  · exact ⟨_, rfl, cellNat_ofNat 16 v, fun _ h => regValue_opa_of_ne s _ h, rfl, rfl, rfl, rfl, rfl, rfl, rfl⟩
  · exact ⟨_, rfl, cellNat_ofNat 16 v, fun _ h => regValue_opb_of_ne s _ h, rfl, rfl, rfl, rfl, rfl, rfl, rfl⟩
  · exact ⟨_, rfl, cellNat_ofNat 16 v, fun _ h => regValue_opc_of_ne s _ h, rfl, rfl, rfl, rfl, rfl, rfl, rfl⟩
  · exact ⟨_, rfl, cellNat_ofNat 64 v, fun _ h => regValue_key_of_ne s _ h, rfl, rfl, rfl, rfl, rfl, rfl, rfl⟩
  · exact ⟨_, rfl, cellNat_ofNat 32 v, fun _ h => regValue_seed_of_ne s _ h, rfl, rfl, rfl, rfl, rfl, rfl, rfl⟩
  · exact ⟨_, rfl, rfl, fun _ h => regValue_rssi_of_ne s _ h, rfl, rfl, rfl, rfl, rfl, rfl, rfl⟩

/-- Settles O48: the step writes the register, and the schedule it takes the action from is no part of any register. -/
theorem hostWriteCutsToTheWidth : Obligations.HostWriteCutsToTheWidth := by
  intro s num v rest r hs hr hmem
  obtain ⟨t, ht, hw⟩ := writeRegister_plain { s with schedule := rest } (.writeReg num v) v hmem
  exact ⟨t, (step_writeReg hs hr).trans ht, hw.value, fun r' h => (hw.others r' h).trans (regValue_schedule s rest r'),
    hw.raw, hw.frame, hw.mbox, hw.mboxLen, hw.mboxRssi, hw.evlog, hw.schedule⟩

/-! ### Deliver -/

theorem rssiFits_iff {c : Config} {q : Int} :
    rssiFits c q = true ↔ -(2 ^ (c.rssiW - 1) : Int) ≤ q ∧ q < (2 ^ (c.rssiW - 1) : Int) := by
  simp only [rssiFits, decide_eq_true_eq]

/-- A delivery that meets the Radio's preconditions is performed (45_pipeline.md R230). -/
theorem step_deliver {s : State} {bs : List Byte} {q : Int} {rest : List Action}
    (h : s.schedule = .deliver bs q :: rest) (hlen : bs.length ≤ s.build.rawMax) (hq : rssiFits s.build q = true) :
    step s = .next (deliverPacket { s with schedule := rest } bs q) := by
  simp only [step_of_schedule h, perform, hlen, hq, decide_true, Bool.and_true, if_true]

/-- Under DROP_NEW a full mailbox loses the packet (45_pipeline.md R230). -/
theorem deliverPacket_dropNew {s : State} {bs : List Byte} {q : Int} (hp : s.pend = true)
    (hpol : s.build.mailboxPolicy = .dropNew) : deliverPacket s bs q = s := by
  simp only [deliverPacket, hp, hpol, if_true]

/-- An empty mailbox, and under OVERWRITE also a full one, accepts the packet (45_pipeline.md R230). -/
theorem deliverPacket_accepts {s : State} {bs : List Byte} {q : Int}
    (h : s.pend = false ∨ s.build.mailboxPolicy = .overwrite) : deliverPacket s bs q = acceptPacket s bs q := by
  rw [deliverPacket]
  split
  case isTrue hp => rw [h.resolve_left (by simp [hp])]
  case isFalse => rfl

/-- A two's complement pattern is congruent to its number modulo 2^RSSI_W (10_state.md R34). -/
theorem rssiPattern_emod (c : Config) (q : Int) : (rssiPattern c q : Int) % 2 ^ c.rssiW = q % 2 ^ c.rssiW := by
  rw [rssiPattern, Int.toNat_of_nonneg (Int.emod_nonneg q (by positivity)), Int.emod_emod]

theorem rawMax_le {c : Config} (h : c.wf = true) : c.rawMax ≤ 65535 := by
  simp only [Config.wf, Config.rawMaxWf, Bool.and_eq_true, decide_eq_true_eq] at h
  exact h.1.1.1.1.2

/-- A length below 2^16 is what its 16-bit register holds. -/
theorem toNat_ofNat_of_lt {n : Nat} (h : n < 65536) : (BitVec.ofNat 16 n).toNat = n := by
  rw [BitVec.toNat_ofNat, Nat.mod_eq_of_lt h]

/-- Settles O53: the delivery is performed, and it loses the packet or accepts it whole. -/
theorem deliverFillsTheMailbox : Obligations.DeliverFillsTheMailbox := by
  intro s bs q rest hs hwf hlen hlo hhi
  have hstep := step_deliver hs hlen (rssiFits_iff.2 ⟨hlo, hhi⟩)
  have hn : (BitVec.ofNat 16 bs.length).toNat = bs.length :=
    toNat_ofNat_of_lt (by have := rawMax_le hwf; omega)
  have hout := writeBytes_sameOutside s.mbox 0 bs
  rw [Nat.zero_add] at hout
  refine ⟨fun hp hpol => ?_, fun h => ?_⟩
  · exact hstep.trans (congrArg Host.Outcome.next (deliverPacket_dropNew hp hpol))
  · exact ⟨_, _, _, hstep.trans (congrArg Host.Outcome.next (deliverPacket_accepts h)), rfl, hn,
      rssiPattern_lt s.build q, rssiPattern_emod s.build q, Memory.writeBytes_holds s.mbox 0 bs, hout⟩

end Sys2Proof.Machine
end

section
/-! SUPPORT. PFRM: its first pass, the line code of a frame, and where each of its checks stops it
(45_pipeline.md R221, R222). -/

namespace Sys2Proof.Machine

/-! ### Where PFRM stops -/

section Stops

variable {s : State} {x : Stop} {l : Nat}

theorem frameStage_of_firstPass (hx : firstPass s = .error x) : frameStage s = .error x :=
  bind_error.2 (.inl hx)

/-- Fewer raw bytes than need(L + 5) raise E_LENGTH (45_pipeline.md R222). -/
theorem frameStage_of_rawLen_lt (hl : firstPass s = .ok l)
    (hlt : s.rawLen.toNat < requiredRaw (expectedLength l)) : frameStage s = .error (.status .length) :=
  bind_error.2 (.inr ⟨l, hl, if_pos hlt⟩)

/-- A failure of the second pass is PFRM's (45_pipeline.md R221). -/
theorem frameStage_of_dbufBytes (hl : firstPass s = .ok l) (hle : requiredRaw (expectedLength l) ≤ s.rawLen.toNat)
    (hx : dbufBytes s (requiredRaw (expectedLength l)) = .error x) : frameStage s = .error x :=
  bind_error.2 (.inr ⟨l, hl, (if_neg (Nat.not_lt.2 hle)).trans (bind_error.2 (.inl hx))⟩)

end Stops

/-- A PFRM whose computation raises `e` ends with `e` (45_pipeline.md R221). -/
theorem execPfrm_of_status {s : State} {e : Err} (h : frameStage s = .error (.status e)) :
    ∃ t, exec .pfrm s = .next t ∧ t.err = e :=
  ⟨_, execPfrm_next.2 (.inr ⟨e, h, rfl⟩), rfl⟩

/-! ### The line code of a frame -/

/-- Symbols that all spell codewords decode to their nibbles; raw bytes after them need hold no value
(40_line_codec.md R104). -/
theorem decodeSymbols_of_spells {c : Config} {raw : Memory} {bs : List Byte} {g : Nat} {nibs : List (BitVec 4)}
    (hwf : c.sixbitWf = true) (hbs : Memory.holds raw 0 bs) (hlen : nibs.length = g) (hg : 6 * g ≤ 8 * bs.length)
    (hspells : ∀ k < g, Spec.spells bs k (Spec.codeword c (nibs.getD k 0))) :
    decodeSymbols c raw 0 g = .ok nibs := by
  refine decodeSymbols_ok.2 ⟨hlen, fun k hk => ⟨_, ?_, (nibbleOf_eq_some_iff hwf).2 rfl⟩⟩
  rw [Nat.zero_add, symbol_ok_iff_spells hbs (by omega)]
  exact hspells k hk

theorem firstPass_eq {s : State} (h : 2 ≤ s.rawLen.toNat) :
    firstPass s =
      (decodeSymbols s.build s.raw 0 2).map fun nibs => (byteAt (packNibbles nibs) 0).toNat := by
  refine (if_neg (Nat.not_lt.2 h)).trans ?_
  show (lineDecode s.build s.raw 2 >>= _) = _
  rw [lineDecode, show symbolCount 2 = 2 from rfl]
  cases decodeSymbols s.build s.raw 0 2 <;> rfl

/-- The first two symbols spell the L-field, high nibble first (45_pipeline.md R222). -/
theorem firstPass_of_spells {s : State} {bs : List Byte} {l : Byte} (hwf : s.build.sixbitWf = true)
    (hraw : 2 ≤ s.rawLen.toNat) (hlen : 2 ≤ bs.length) (hbs : Memory.holds s.raw 0 bs)
    (hhi : Spec.spells bs 0 (Spec.codeword s.build (l.extractLsb' 4 4)))
    (hlo : Spec.spells bs 1 (Spec.codeword s.build (l.extractLsb' 0 4))) : firstPass s = .ok l.toNat := by
  have hnibs : decodeSymbols s.build s.raw 0 2 = .ok [l.extractLsb' 4 4, l.extractLsb' 0 4] :=
    decodeSymbols_of_spells hwf hbs rfl (by omega) fun k hk => by
      match k, hk with
      | 0, _ => exact hhi
      | 1, _ => exact hlo
  have hl : l.extractLsb' 4 4 ++ l.extractLsb' 0 4 = l := BitVec.extractLsb'_append_extractLsb'
  rw [firstPass_eq hraw, hnibs]
  exact congrArg (fun b : Byte => Except.ok b.toNat) hl

/-- The nibbles of decoded bytes in stream order (20_memory.md R63). -/
def nibblesOf (f : List Byte) : List (BitVec 4) := (List.range (2 * f.length)).map (Spec.nibbleAt f)

theorem nibblesOf_length (f : List Byte) : (nibblesOf f).length = 2 * f.length := by simp [nibblesOf]

theorem getD_nibblesOf {f : List Byte} {k : Nat} (h : k < 2 * f.length) :
    (nibblesOf f).getD k 0 = Spec.nibbleAt f k := by
  simp [nibblesOf, List.getD_eq_getElem?_getD, h]

theorem nibbleAt_append (f : List Byte) (j : Nat) :
    Spec.nibbleAt f (2 * j) ++ Spec.nibbleAt f (2 * j + 1) = byteAt f j := by
  rw [Spec.nibbleAt, Spec.nibbleAt, if_pos (by omega), if_neg (by omega), show 2 * j / 2 = j by omega,
    show (2 * j + 1) / 2 = j by omega]
  exact BitVec.extractLsb'_append_extractLsb'

theorem packNibbles_nibblesOf (f : List Byte) : packNibbles (nibblesOf f) = f := by
  have hlen : (packNibbles (nibblesOf f)).length = f.length := by
    rw [packNibbles_length, nibblesOf_length]
    omega
  refine List.ext_getElem hlen fun i hi hif => ?_
  rw [← byteAt_eq_getElem hi, ← byteAt_eq_getElem hif, byteAt_packNibbles, getD_nibblesOf (by omega),
    getD_nibblesOf (by omega), nibbleAt_append]

/-- need(E) raw bytes have 2E complete symbols (40_line_codec.md R106). -/
theorem symbolCount_requiredRaw (e : Nat) : symbolCount (requiredRaw e) = 2 * e := by
  simp only [symbolCount, requiredRaw]
  omega

/-- RAW holds, within RAW_LEN, the line code `bs` of the bytes `f`, as many as their L-field says
(40_line_codec.md R106, 45_pipeline.md R222). -/
structure HoldsLineCode (s : State) (bs f : List Byte) : Prop where
  table : s.build.sixbitWf = true
  raw : Memory.holds s.raw 0 bs
  within : bs.length ≤ s.rawLen.toNat
  code : Spec.rawEncodes s.build bs f
  length : f.length = (byteAt f 0).toNat + 5

namespace HoldsLineCode

variable {s : State} {bs f : List Byte} (h : HoldsLineCode s bs f)
include h

theorem length_lt : f.length < 65536 := by
  have hlen := h.length
  have := (byteAt f 0).isLt
  omega

theorem dlen_toNat : (BitVec.ofNat 16 f.length).toNat = f.length := toNat_ofNat_of_lt h.length_lt

/-- PFRM asks for as many raw bytes as the line code of the frame has (40_line_codec.md R106). -/
theorem requiredRaw_eq : requiredRaw (expectedLength (byteAt f 0).toNat) = bs.length :=
  (congrArg requiredRaw h.length.symm).trans h.code.1.symm

theorem requiredRaw_le : requiredRaw (expectedLength (byteAt f 0).toNat) ≤ s.rawLen.toNat :=
  h.requiredRaw_eq.trans_le h.within

/-- PFRM's first pass reads the L-field of the frame (45_pipeline.md R222). -/
theorem firstPass_ok : firstPass s = .ok (byteAt f 0).toNat := by
  obtain ⟨hbs, hspells⟩ := h.code
  have hlen := h.length
  have hwithin := h.within
  exact firstPass_of_spells h.table (by omega) (by omega) h.raw (hspells 0 (by omega)) (hspells 1 (by omega))

/-- PFRM's second pass decodes the frame (40_line_codec.md R104, R106). -/
theorem dbufBytes_ok : dbufBytes s (requiredRaw (expectedLength (byteAt f 0).toNat)) = .ok f := by
  obtain ⟨hbs, hspells⟩ := h.code
  have hnibs : decodeSymbols s.build s.raw 0 (2 * f.length) = .ok (nibblesOf f) :=
    decodeSymbols_of_spells h.table h.raw (nibblesOf_length f) (by omega) fun k hk =>
      (getD_nibblesOf hk).symm ▸ hspells k hk
  rw [dbufBytes_eq h.requiredRaw_le, symbolCount_requiredRaw, expectedLength, ← h.length, hnibs]
  exact congrArg Except.ok (packNibbles_nibblesOf f)

/-- A failure of the header check is PFRM's (45_pipeline.md R221). -/
theorem frameStage_of_parseHeader {x : Stop}
    (hx : parseHeader s.build (Memory.writeBytes s.frame 0 f) (some (BitVec.ofNat 16 f.length)) = .error x) :
    frameStage s = .error x :=
  bind_error.2 (.inr ⟨_, h.firstPass_ok, (if_neg (Nat.not_lt.2 h.requiredRaw_le)).trans
    (bind_error.2 (.inr ⟨f, h.dbufBytes_ok, bind_error.2 (.inl hx)⟩))⟩)

/-- A failure of the transport check, once the header check has passed, is PFRM's (45_pipeline.md R221). -/
theorem frameStage_of_splitTransport {x : Stop} {hd : Header}
    (hh : parseHeader s.build (Memory.writeBytes s.frame 0 f) (some (BitVec.ofNat 16 f.length)) = .ok hd)
    (hx : splitTransport (Memory.writeBytes s.frame 0 f) (some (BitVec.ofNat 16 f.length)) = .error x) :
    frameStage s = .error x :=
  bind_error.2 (.inr ⟨_, h.firstPass_ok, (if_neg (Nat.not_lt.2 h.requiredRaw_le)).trans
    (bind_error.2 (.inr ⟨f, h.dbufBytes_ok, bind_error.2 (.inr ⟨hd, hh, bind_error.2 (.inl hx)⟩)⟩))⟩)

end HoldsLineCode

/-! ### The two checks of a frame -/

/-- On a frame of 12 bytes or more the header CRC alone decides between its header and E_HDR_CRC
(42_frame_parser.md R141, R142). -/
theorem parseHeader_frame {c : Config} {m : Memory} {d : BitVec 16} {f : List Byte} (hd : 12 ≤ d.toNat)
    (hl : 12 ≤ f.length) (hf : Memory.holds m 0 f) :
    parseHeader c m (some d) =
      if crc16 (f.take 10) = be16 (byteAt f 10) (byteAt f 11) then
        .ok (headerOf c (f.take 10) (be16 (byteAt f 10) (byteAt f 11)))
      else .error (.status .hdrCrc) := by
  have hf12 : Memory.holds m 0 (f.take 12) := holds_slice (k := 0) hf
  have hbyte : ∀ i < 12, byteAt (f.take 12) i = byteAt f i := fun i hi => by
    simpa using byteAt_slice (bs := f) (k := 0) hi
  have htake : (f.take 12).take 10 = f.take 10 := by rw [List.take_take]; rfl
  rw [parseHeader_eq hd (by simp [hl]) hf12, htake, hbyte 10 (by omega), hbyte 11 (by omega)]

/-- On a frame of 14 bytes or more whose length is DLEN the transport CRC alone decides between its payload length and
E_TPL_CRC (42_frame_parser.md R150). -/
theorem splitTransport_frame {m : Memory} {d : BitVec 16} {f : List Byte} (hd : d.toNat = f.length)
    (hl : 14 ≤ f.length) (hf : Memory.holds m 0 f) :
    splitTransport m (some d) =
      if crc16 ((f.drop 12).take (f.length - 14)) = be16 (byteAt f (f.length - 2)) (byteAt f (f.length - 1)) then
        .ok (f.length - 14)
      else .error (.status .tplCrc) := by
  have hp : Memory.holds m (0 + 12) ((f.drop 12).take (f.length - 14)) := holds_slice hf
  have h0 := hf (f.length - 2) (by omega)
  have h1 := hf (f.length - 1) (by omega)
  rw [Nat.zero_add] at hp h0 h1
  rw [splitTransport_eq (hd ▸ hl) (by simp; omega) hp (hd ▸ h0) (hd ▸ h1), hd]

end Sys2Proof.Machine
end

section
/-! SUPPORT. The outcomes of TAKE and PFRM, and the poison of PFRM and PPAY (45_pipeline.md R220 to R225). -/

namespace Sys2Proof.Machine

/-- Settles O33: the packet is what the mailbox read gives, and TAKE writes its bytes to RAW. -/
theorem takeDrainsTheMailbox : Obligations.TakeDrainsTheMailbox := by
  refine fun s => ⟨fun hp => execTake_next.2 (.inl ⟨hp, rfl⟩), fun n q bs hp hn hq hlen hbs => ?_⟩
  have hout := writeBytes_sameOutside s.raw 0 bs
  rw [Nat.zero_add, hlen] at hout
  exact ⟨_, execTake_next.2 (.inr ⟨hp, n, bs, q, mailboxPacket_ok.2 ⟨hn, hlen, hbs, hq⟩, rfl⟩), rfl,
    Memory.writeBytes_holds s.raw 0 bs, hout⟩

/-- Settles O38: without FOK, PPAY raises E_SEQ over the state as it is. -/
theorem ppayWithoutFrameRaisesSeq : Obligations.PpayWithoutFrameRaisesSeq :=
  fun _ hfok => execPpay_next.2 (.inl ⟨hfok, rfl⟩)

/-! ### PFRM's failures -/

/-- A line decoding meets a symbol that is no codeword, all raw bytes up to it holding values
(40_line_codec.md R104). -/
theorem dbufBytes_of_badSymbol {s : State} {n k : Nat} {bs : List Byte} (hle : n ≤ s.rawLen.toNat)
    (hbs : Memory.holds s.raw 0 bs) (hk : k < symbolCount n) (hlen : 6 * k + 5 < 8 * bs.length)
    (hbad : Spec.badSymbol s.build bs k) : dbufBytes s n = .error (.status .codeword) := by
  rw [dbufBytes_eq hle, decodeSymbols_of_badSymbol hbs hk hlen hbad]
  rfl

/-- Settles O35: RAW_LEN is compared with 2, then with need(L + 5) for the L-field of the first pass. -/
theorem pfrmRejectsMissingBytes : Obligations.PfrmRejectsMissingBytes := by
  refine fun s => ⟨fun hlt => ?_, fun bs l hwf hraw hlen hbs hhi hlo hlt => ?_⟩
  · exact execPfrm_of_status (frameStage_of_firstPass (if_pos hlt))
  · exact execPfrm_of_status (frameStage_of_rawLen_lt (firstPass_of_spells hwf hraw hlen.ge hbs hhi hlo) hlt)

/-- A frame that is not accepted stops PFRM at its first failing check (45_pipeline.md R221, 60_exceptions.md R256). -/
theorem HoldsLineCode.frameStage_of_rejected {s : State} {bs f : List Byte} (h : HoldsLineCode s bs f)
    (hrej : acceptedFrame f = false) :
    frameStage s = .error (.status (if f.length < 12 then .short
      else if crc16 (f.take 10) ≠ be16 (byteAt f 10) (byteAt f 11) then .hdrCrc
      else if f.length < 14 then .tplShort
      else .tplCrc)) := by
  have hdlen := h.dlen_toNat
  have hf := Memory.writeBytes_holds s.frame 0 f
  split
  case isTrue hlt => exact h.frameStage_of_parseHeader (parseHeader_of_dlen_lt (hdlen.symm ▸ hlt))
  case isFalse h12 =>
    have hparse := parseHeader_frame (c := s.build) (hdlen.symm ▸ Nat.not_lt.1 h12) (Nat.not_lt.1 h12) hf
    split
    case isTrue hne => exact h.frameStage_of_parseHeader (hparse.trans (if_neg hne))
    case isFalse hcrc =>
      have hcrc := not_not.1 hcrc
      have hparse := hparse.trans (if_pos hcrc)
      split
      case isTrue hlt => exact h.frameStage_of_splitTransport hparse (splitTransport_of_dlen_lt (hdlen.symm ▸ hlt))
      case isFalse h14 =>
        have h14 := Nat.not_lt.1 h14
        have htcrc := fun htcrc =>
          Bool.false_ne_true (hrej.symm.trans (acceptedFrame_iff.2 ⟨h14, h.length, hcrc, htcrc⟩))
        exact h.frameStage_of_splitTransport hparse ((splitTransport_frame hdlen h14 hf).trans (if_neg htcrc))

/-- Settles O36: the first pass decodes two symbols, the second 2E, and then the checks of the frame follow. -/
theorem pfrmReportsTheFirstFailingCheck : Obligations.PfrmReportsTheFirstFailingCheck := by
  refine ⟨fun s bs k hraw hlen hbs hk hbad => ?_, fun s bs l k hwf hlen hbs hhi hlo hraw hk hwithin hbad => ?_,
    fun s bs f hwf hbs hwithin hcode hlen hrej => ?_⟩
  · refine execPfrm_of_status (frameStage_of_firstPass ?_)
    rw [firstPass_eq hraw, decodeSymbols_of_badSymbol hbs hk (by omega) hbad]
    rfl
  · have hl := firstPass_of_spells hwf (by omega) hlen hbs hhi hlo
    have hk' : k < symbolCount (requiredRaw (expectedLength l.toNat)) := by
      rw [symbolCount_requiredRaw]
      exact hk
    exact execPfrm_of_status (frameStage_of_dbufBytes hl hraw (dbufBytes_of_badSymbol hraw hbs hk' hwithin hbad))
  · exact execPfrm_of_status (HoldsLineCode.frameStage_of_rejected ⟨hwf, hbs, hwithin, hcode, hlen⟩ hrej)

/-! ### PFRM's success -/

/-- What PFRM computes from an accepted frame `f` and the signal strength `q` (45_pipeline.md R221). -/
def acceptedResult (s : State) (f : List Byte) (q : Nat) : FrameResult where
  frame := Memory.writeBytes s.frame 0 f
  bytes := f
  header := headerOf s.build (f.take 10) (be16 (byteAt f 10) (byteAt f 11))
  tpLen := f.length - 14
  rssi := q

theorem HoldsLineCode.frameStage_of_accepted {s : State} {bs f : List Byte} {q : Nat} (h : HoldsLineCode s bs f)
    (hacc : acceptedFrame f = true) (hq : s.rssi = some q) : frameStage s = .ok (acceptedResult s f q) := by
  obtain ⟨h14, -, hcrc, htcrc⟩ := acceptedFrame_iff.1 hacc
  have h12 : 12 ≤ f.length := by omega
  have hdlen := h.dlen_toNat
  have hf := Memory.writeBytes_holds s.frame 0 f
  exact frameStage_ok.2 ⟨_, h.firstPass_ok, h.requiredRaw_le, h.dbufBytes_ok, rfl,
    (parseHeader_frame (hdlen.symm ▸ h12) h12 hf).trans (if_pos hcrc),
    (splitTransport_frame hdlen h14 hf).trans (if_pos htcrc), hq⟩

/-- Settles O34: the frame passes both checks, and PFRM's effect is that of its result. -/
theorem pfrmAcceptsAFrame : Obligations.PfrmAcceptsAFrame := by
  intro s bs f q hwf hbs hwithin hcode hacc hq
  have h : HoldsLineCode s bs f := ⟨hwf, hbs, hwithin, hcode, (acceptedFrame_iff.1 hacc).2.1⟩
  have hout := writeBytes_sameOutside s.frame 0 f
  rw [Nat.zero_add] at hout
  exact ⟨_, _, execPfrm_next.2 (.inl ⟨_, h.frameStage_of_accepted hacc hq, rfl⟩), rfl, rfl,
    Memory.writeBytes_holds s.frame 0 f, hout⟩

/-! ### Poison -/

theorem undefWithin_poison (m : Memory) (lo hi : Nat) : Spec.undefWithin (Memory.poison m lo hi) lo hi :=
  fun a hlo hhi => by rw [Memory.read_poison, if_pos ⟨hlo, hhi⟩]

theorem sameOutside_poison (m : Memory) (lo hi : Nat) : Spec.sameOutside (Memory.poison m lo hi) m lo hi :=
  fun a ha => by rw [Memory.read_poison, if_neg (by omega)]

/-- Settles O37: a failed PFRM leaves `framePoisoned`, a failed PPAY on a frame `payloadPoisoned`. -/
theorem compositeFailuresPoison : Obligations.CompositeFailuresPoison := by
  refine ⟨fun s t h herr => ?_, fun s t hfok h herr => ?_⟩
  · obtain ⟨r, -, rfl⟩ | ⟨e, -, rfl⟩ := execPfrm_next.1 h
    · exact absurd rfl herr
    · exact ⟨rfl, fun a => rfl⟩
  · obtain ⟨hfok', -⟩ | ⟨-, off, len, hoff, hlen, ⟨r, -, rfl⟩ | ⟨e, -, rfl⟩⟩ := execPpay_next.1 h
    · exact absurd (hfok'.symm.trans hfok) Bool.false_ne_true
    · exact absurd rfl herr
    · exact ⟨off, len, hoff, hlen, rfl, undefWithin_poison s.frame _ _, sameOutside_poison s.frame _ _⟩

end Sys2Proof.Machine
end

section
/-! SUPPORT. PPAY on the frame in FRAME: where each of its checks stops it, and what it computes
(45_pipeline.md R224). -/

namespace Sys2Proof.Machine

/-! ### Where PPAY stops -/

section Stops

variable {s : State} {x : Stop} {off len : Nat} {seed : BitVec 32} {ps : List Byte} {t : BitVec 32}

theorem payloadStage_of_deriveKey (hx : deriveKey s.key s.frame s.dlen = .error x) :
    payloadStage s off len = .error x :=
  bind_error.2 (.inl hx)

variable (hseed : deriveKey s.key s.frame s.dlen = .ok seed)
include hseed

/-- A payload shorter than CIPHER_OFF raises E_RDG_SHORT (45_pipeline.md R224). -/
theorem payloadStage_of_len_lt (hlt : len < s.build.cipherOff) :
    payloadStage s off len = .error (.status .rdgShort) :=
  bind_error.2 (.inr ⟨seed, hseed, if_pos hlt⟩)

variable (hle : s.build.cipherOff ≤ len)
include hle

theorem payloadStage_of_decrypt
    (hx : decrypt (some seed) s.frame s.dlen (off + s.build.cipherOff) (len - s.build.cipherOff) = .error x) :
    payloadStage s off len = .error x :=
  bind_error.2 (.inr ⟨seed, hseed, (if_neg (Nat.not_lt.2 hle)).trans (bind_error.2 (.inl hx))⟩)

theorem payloadStage_of_parseReading
    (hp : decrypt (some seed) s.frame s.dlen (off + s.build.cipherOff) (len - s.build.cipherOff) = .ok (ps, t))
    (hx : parseReading s.build s.hdr.idStr s.rssi (Memory.writeBytes s.frame (off + s.build.cipherOff) ps) s.dlen
      (off + s.build.cipherOff) (len - s.build.cipherOff) = .error x) :
    payloadStage s off len = .error x :=
  bind_error.2 (.inr ⟨seed, hseed, (if_neg (Nat.not_lt.2 hle)).trans
    (bind_error.2 (.inr ⟨(ps, t), hp, bind_error.2 (.inl hx)⟩))⟩)

end Stops

/-! ### The stages on a frame -/

/-- FRAME[0..DLEN) holds the bytes `f`, and KEY holds `key`. -/
structure HoldsFrame (s : State) (key : BitVec 64) (f : List Byte) : Prop where
  key : s.key = some key
  dlen : ∃ d, s.dlen = some d ∧ f.length = d.toNat
  frame : Memory.holds s.frame 0 f

/-- The ciphertext of the payload slice (`off`, `len`) of the frame `f` (45_pipeline.md R224). -/
def payloadCts (c : Config) (f : List Byte) (off len : Nat) : List Byte :=
  (f.drop (off + c.cipherOff)).take (len - c.cipherOff)

theorem payloadCts_length {c : Config} {f : List Byte} {off len : Nat} (hle : c.cipherOff ≤ len)
    (hslice : off + len ≤ f.length) : (payloadCts c f off len).length = len - c.cipherOff := by
  simp only [payloadCts, List.length_take, List.length_drop]
  omega

theorem byteAt_payloadCts_zero {c : Config} {f : List Byte} {off len : Nat} (hlt : c.cipherOff < len) :
    byteAt (payloadCts c f off len) 0 = byteAt f (off + c.cipherOff) :=
  byteAt_slice (Nat.sub_pos_of_lt hlt)

namespace HoldsFrame

variable {s : State} {key : BitVec 64} {f : List Byte} (h : HoldsFrame s key f)
include h

theorem deriveKey_eq :
    deriveKey s.key s.frame s.dlen =
      if f.length < 16 then .error (.status .short) else .ok (Spec.seedOf key f) := by
  obtain ⟨hkey, ⟨d, hd, hlen⟩, hf⟩ := h
  rw [hkey, hd]
  split
  case isTrue hlt => exact deriveKey_of_dlen_lt (hlen ▸ hlt)
  case isFalse hge =>
    have hge := Nat.not_lt.1 hge
    exact deriveKey_of_holds (hlen ▸ hge) hge hf

variable {off len : Nat} (hslice : off + len ≤ f.length)
include hslice

/-- A payload of CIPHER_OFF bytes leaves an empty region, which has no magic byte (43_cipher.md R181). -/
theorem decrypt_empty_region {x : BitVec 32} (hlen : len = s.build.cipherOff) :
    decrypt (some x) s.frame s.dlen (off + s.build.cipherOff) (len - s.build.cipherOff) =
      .error (.status .magic) := by
  obtain ⟨d, hd, hfd⟩ := h.dlen
  rw [hd, hlen, Nat.sub_self]
  exact decrypt_of_empty (by omega)

/-- In a longer payload the first byte of the region decides between its plaintext and E_MAGIC
(43_cipher.md R175, R178). -/
theorem decrypt_region {x : BitVec 32} (hlt : s.build.cipherOff < len) :
    decrypt (some x) s.frame s.dlen (off + s.build.cipherOff) (len - s.build.cipherOff) =
      if byteAt f (off + s.build.cipherOff) ^^^ Spec.ks x 0 = magicByte then
        .ok (Spec.plain x (payloadCts s.build f off len), lfsrStep^[8 * (len - s.build.cipherOff)] x)
      else .error (.status .magic) := by
  obtain ⟨d, hd, hfd⟩ := h.dlen
  have hcts : Memory.holds s.frame (0 + (off + s.build.cipherOff)) (payloadCts s.build f off len) :=
    holds_slice h.frame
  have hct := h.frame (off + s.build.cipherOff) (by omega)
  rw [Nat.zero_add] at hcts hct
  rw [hd, decrypt_eq (by omega) (by omega) hct, ← payloadCts_length hlt.le hslice, decryptFrom_of_holds x hcts]

end HoldsFrame

/-! ### The command -/

/-- A PPAY on a frame whose computation raises `e` ends with `e` (45_pipeline.md R224). -/
theorem execPpay_of_status {s : State} {off len : BitVec 16} {e : Err} (hfok : s.fok = true)
    (hoff : s.tpOff = some off) (hlen : s.tpLen = some len)
    (h : payloadStage s off.toNat len.toNat = .error (.status e)) : ∃ t, exec .ppay s = .next t ∧ t.err = e :=
  ⟨_, execPpay_next.2 (.inr ⟨hfok, off, len, hoff, hlen, .inr ⟨e, h, rfl⟩⟩), rfl⟩

/-- A payload without a reading stops PPAY at its first failing check (45_pipeline.md R224, 60_exceptions.md R256). -/
theorem HoldsFrame.payloadStage_of_unreadable {s : State} {key : BitVec 64} {f : List Byte} {off len : Nat}
    (h : HoldsFrame s key f) (hslice : off + len ≤ f.length)
    (hbad : f.length < 16 ∨ len < s.build.cipherOff + 16 ∨
      byteAt f (off + s.build.cipherOff) ^^^ Spec.ks (Spec.seedOf key f) 0 ≠ magicByte) :
    payloadStage s off len = .error (.status (if f.length < 16 then .short
      else if len < s.build.cipherOff then .rdgShort
      else if len = s.build.cipherOff then .magic
      else if byteAt f (off + s.build.cipherOff) ^^^ Spec.ks (Spec.seedOf key f) 0 ≠ magicByte then .magic
      else .rdgShort)) := by
  have hkey := h.deriveKey_eq
  split
  case isTrue hshort => exact payloadStage_of_deriveKey (hkey.trans (if_pos hshort))
  case isFalse hlong =>
    have hseed := hkey.trans (if_neg hlong)
    split
    case isTrue hlt => exact payloadStage_of_len_lt hseed hlt
    case isFalse hge =>
      have hge := Nat.not_lt.1 hge
      split
      case isTrue heq => exact payloadStage_of_decrypt hseed hge (h.decrypt_empty_region hslice heq)
      case isFalse hne =>
        have hdec := h.decrypt_region hslice (x := Spec.seedOf key f) (by omega)
        split
        case isTrue hmagic => exact payloadStage_of_decrypt hseed hge (hdec.trans (if_neg hmagic))
        case isFalse hmagic =>
          obtain ⟨d, hd, hfd⟩ := h.dlen
          have hshort : len - s.build.cipherOff < 16 := by
            have := (hbad.resolve_left hlong).resolve_right hmagic
            omega
          refine payloadStage_of_parseReading hseed hge (hdec.trans (if_pos (not_not.1 hmagic))) ?_
          rw [hd]
          exact parseReading_of_short (by omega) hshort

/-- Settles O40: each check of DKEY, PPAY, DCRY and PRDG in turn, the next one only where the last has passed. -/
theorem ppayReportsTheFirstFailingCheck : Obligations.PpayReportsTheFirstFailingCheck := by
  intro s off len d key f hfok hoff hlen hd hkey hfd hf hslice hbad
  rw [← hfd] at hslice hbad ⊢
  exact execPpay_of_status hfok hoff hlen
    (HoldsFrame.payloadStage_of_unreadable ⟨hkey, ⟨d, hd, hfd⟩, hf⟩ hslice hbad)

/-- A payload whose region is at least 16 bytes long and begins with the magic byte has a reading
(45_pipeline.md R224). -/
theorem HoldsFrame.payloadStage_of_readable {s : State} {key : BitVec 64} {f p : List Byte} {off len : Nat}
    {id : BitVec 88} {q : Nat} (h : HoldsFrame s key f) (hslice : off + len ≤ f.length) (h16 : 16 ≤ f.length)
    (hlen : s.build.cipherOff + 16 ≤ len) (hid : s.hdr.idStr = some id) (hq : s.rssi = some q)
    (hmagic : byteAt f (off + s.build.cipherOff) ^^^ Spec.ks (Spec.seedOf key f) 0 = magicByte)
    (hp : p = Spec.plain (Spec.seedOf key f) (payloadCts s.build f off len)) :
    payloadStage s off len = .ok
      { seed := Spec.seedOf key f
        lfsr := lfsrStep^[8 * (len - s.build.cipherOff)] (Spec.seedOf key f)
        frame := Memory.writeBytes s.frame (off + s.build.cipherOff) p
        reading := readingOf s.build (p.take 5) ((p.drop 6).take 10) id q } := by
  obtain ⟨d, hd, hfd⟩ := h.dlen
  have hcts := payloadCts_length (c := s.build) (f := f) (off := off) (by omega) hslice
  have hpl : p.length = len - s.build.cipherOff := by rw [hp, plain_length, hcts]
  have hp0 : byteAt p 0 = magicByte := by
    rw [hp, byteAt_plain _ (by omega), byteAt_payloadCts_zero (by omega), hmagic]
  have hheld := Memory.writeBytes_holds s.frame (off + s.build.cipherOff) p
  refine payloadStage_ok.2 ⟨p, h.deriveKey_eq.trans (if_neg (by omega)), by omega, ?_, rfl, ?_⟩
  · rw [hp]
    exact (h.decrypt_region hslice (by omega)).trans (if_pos hmagic)
  · refine parseReading_ok.2 ⟨d, p.take 5, (p.drop 6).take 10, id, q, hd, by omega, by omega, ?_, ?_, ?_, ?_, ?_, hid,
      hq, rfl⟩
    · simp; omega
    · exact holds_slice (k := 0) hheld
    · simp; omega
    · exact holds_slice hheld
    · exact (byteAt_slice (bs := p) (k := 0) (by omega)).trans hp0

/-- Settles O39: the payload has a reading, and PPAY's effect is that of its result. -/
theorem ppayReadsThePayload : Obligations.PpayReadsThePayload := by
  intro s off len d key f id q hfok hoff hlen hd hkey hid hq hfd hf h16 hslice hlong hmagic
  rw [← hfd] at h16 hslice
  have h : HoldsFrame s key f := ⟨hkey, ⟨d, hd, hfd⟩, hf⟩
  have hpl := payloadCts_length (c := s.build) (f := f) (off := off.toNat) (len := len.toNat) (by omega) hslice
  have hout := writeBytes_sameOutside s.frame (off.toNat + s.build.cipherOff)
    (Spec.plain (Spec.seedOf key f) (payloadCts s.build f off.toNat len.toNat))
  rw [plain_length, hpl, show off.toNat + s.build.cipherOff + (len.toNat - s.build.cipherOff) =
    off.toNat + len.toNat by omega] at hout
  exact ⟨_, _, _, execPpay_next.2 (.inr ⟨hfok, off, len, hoff, hlen,
    .inl ⟨_, h.payloadStage_of_readable hslice h16 hlong hid hq hmagic rfl, rfl⟩⟩), rfl, rfl, rfl,
    Memory.writeBytes_holds _ _ _, hout⟩

end Sys2Proof.Machine
end

section
/-! SUPPORT. PPAY against the commands a Host issues by hand, and PPKT (45_pipeline.md R224, R227). -/

namespace Sys2Proof.Machine

/-! ### The hand chain -/

/-- A DKEY that answers OK wrote the derived seed (43_cipher.md R171). -/
theorem execDkey_ok {s t : State} (h : exec .dkey s = .next t) (hok : t.err = .ok) :
    ∃ x, deriveKey s.key s.frame s.dlen = .ok x ∧ t = { s with seed := some x, err := .ok } := by
  obtain hx | ⟨e, he, rfl⟩ := execDkey_next.1 h
  · exact hx
  · obtain rfl : e = .ok := hok
    cases deriveKey_status he

/-- A DCRY that answers OK wrote the plaintext and the LFSR after it (43_cipher.md R175). -/
theorem execDcry_ok {s t : State} {off len : BitVec 16} (hoff : s.opa = some off) (hlen : s.opb = some len)
    (h : exec .dcry s = .next t) (hok : t.err = .ok) :
    ∃ r, decrypt s.seed s.frame s.dlen off.toNat len.toNat = .ok r ∧
      t = { s with frame := Memory.writeBytes s.frame off.toNat r.1, lfsr := some r.2, fok := false, err := .ok } := by
  obtain ⟨off', len', hoff', hlen', hr⟩ := execDcry_next.1 h
  obtain rfl := Option.some.inj (hoff.symm.trans hoff')
  obtain rfl := Option.some.inj (hlen.symm.trans hlen')
  obtain hr | ⟨e, he, rfl⟩ := hr
  · exact hr
  · obtain rfl : e = .ok := hok
    obtain h | h := decrypt_status he <;> cases h

/-- A PRDG that answers OK wrote the reading of its region (44_reading_parser.md R190). -/
theorem execPrdg_ok {s t : State} {off len : BitVec 16} (hoff : s.opa = some off) (hlen : s.opb = some len)
    (h : exec .prdg s = .next t) (hok : t.err = .ok) :
    ∃ r, parseReading s.build s.hdr.idStr s.rssi s.frame s.dlen off.toNat len.toNat = .ok r ∧
      t = { s with rd := readingRegsOf r, err := .ok } := by
  obtain ⟨off', len', hoff', hlen', hr⟩ := execPrdg_next.1 h
  obtain rfl := Option.some.inj (hoff.symm.trans hoff')
  obtain rfl := Option.some.inj (hlen.symm.trans hlen')
  obtain hr | ⟨e, he, rfl⟩ := hr
  · exact hr
  · obtain rfl : e = .ok := hok
    obtain h | h | h := parseReading_status he <;> cases h

/-- Settles O41: the three commands compute, on the same region, the three parts of PPAY's computation. -/
theorem ppayRefinesTheHandChain : Obligations.PpayRefinesTheHandChain := by
  intro s a b e off len hfok hoff hlen hcoff hwidth ha haok hb hbok he heok
  have hstart : (BitVec.ofNat 16 (off.toNat + s.build.cipherOff)).toNat = off.toNat + s.build.cipherOff :=
    toNat_ofNat_of_lt (by omega)
  have hcount : (BitVec.ofNat 16 (len.toNat - s.build.cipherOff)).toNat = len.toNat - s.build.cipherOff :=
    toNat_ofNat_of_lt (by omega)
  obtain ⟨x, hseed, rfl⟩ := execDkey_ok ha haok
  obtain ⟨⟨ps, l⟩, hdec, rfl⟩ := execDcry_ok rfl rfl hb hbok
  obtain ⟨g, hread, rfl⟩ := execPrdg_ok rfl rfl he heok
  dsimp only at hdec hread
  rw [hstart, hcount] at hdec hread
  have hstage : payloadStage s off.toNat len.toNat = .ok
      { seed := x, lfsr := l, frame := Memory.writeBytes s.frame (off.toNat + s.build.cipherOff) ps, reading := g } :=
    payloadStage_ok.2 ⟨ps, hseed, hcoff, hdec, rfl, hread⟩
  refine ⟨g, rfl, execPpay_next.2 (.inr ⟨hfok, off, len, hoff, hlen, .inl ⟨_, hstage, ?_⟩⟩)⟩
  dsimp only [payloadDone]
  rw [hstart]

/-! ### PPKT -/

/-- PPKT goes on to PPAY exactly when PFRM answers OK (45_pipeline.md R227). -/
theorem execPpkt_of_pfrm {s t : State} (h : exec .pfrm s = .next t) :
    exec .ppkt s = if t.err = .ok then exec .ppay t else .next t := by
  have hrun : runFrameStage s = .next t := h
  simp only [exec, execPpkt, execPpay, hrun]

/-- PFRM appends one PKT_EVENT and sets FOK when it answers OK, and leaves EVLOG when it fails (45_pipeline.md R221). -/
theorem execPfrm_events {s t : State} (h : exec .pfrm s = .next t) :
    (t.err = .ok ∧ t.fok = true ∧ ∃ id f a b q, t.evlog = s.evlog ++ [.pkt id f a b q]) ∨
      (t.err ≠ .ok ∧ t.fok = false ∧ t.evlog = s.evlog) := by
  obtain ⟨r, -, rfl⟩ | ⟨e, he, rfl⟩ := execPfrm_next.1 h
  · exact .inl ⟨rfl, rfl, _, _, _, _, _, rfl⟩
  · exact .inr ⟨frameStage_status he, rfl, rfl⟩

/-- PPAY with FOK = 1 appends one READING_EVENT when it answers OK, leaves EVLOG when it fails, and leaves FOK = 0
(45_pipeline.md R224). -/
theorem execPpay_events {s t : State} (hfok : s.fok = true) (h : exec .ppay s = .next t) :
    t.fok = false ∧
      ((t.err = .ok ∧ ∃ g, t.evlog = s.evlog ++ [.reading g]) ∨ (t.err ≠ .ok ∧ t.evlog = s.evlog)) := by
  obtain ⟨hfok', -⟩ | ⟨-, off, len, -, -, ⟨r, -, rfl⟩ | ⟨e, he, rfl⟩⟩ := execPpay_next.1 h
  · exact absurd (hfok'.symm.trans hfok) Bool.false_ne_true
  · exact ⟨rfl, .inl ⟨rfl, _, rfl⟩⟩
  · exact ⟨rfl, .inr ⟨payloadStage_status he, rfl⟩⟩

/-- Settles O42: the events of PPKT are those of PFRM, then those of PPAY. -/
theorem ppktIsPfrmThenPpay : Obligations.PpktIsPfrmThenPpay := by
  refine ⟨fun s t h => ⟨fun herr => ?_, fun hok => ?_⟩, fun s u h => ?_⟩
  · rw [execPpkt_of_pfrm h, if_neg herr]
  · rw [execPpkt_of_pfrm h, if_pos hok]
  · obtain ⟨t, ht, ⟨herr, rfl⟩ | ⟨hok, hp⟩⟩ := execPpkt_next.1 h
    · obtain ⟨hok, -⟩ | ⟨-, hfok, hlog⟩ := execPfrm_events ht
      · exact absurd hok herr
      · exact ⟨hfok, .inl ⟨herr, hlog⟩⟩
    · obtain ⟨-, hfok, id, f, a, b, q, hlog⟩ | ⟨herr, -⟩ := execPfrm_events ht
      · obtain ⟨hu, ⟨hok', g, hlog'⟩ | ⟨herr', hlog'⟩⟩ := execPpay_events hfok hp
        · refine ⟨hu, .inr (.inr ⟨hok', id, f, a, b, q, g, ?_⟩)⟩
          rw [hlog', hlog, List.append_assoc, List.singleton_append]
        · exact ⟨hu, .inr (.inl ⟨herr', id, f, a, b, q, hlog'.trans hlog⟩)⟩
      · exact absurd hok herr

/-- Bytes that no write has touched stand where they stood. -/
theorem holds_of_sameOutside {m n : Memory} {a lo hi : Nat} {bs : List Byte} (h : Memory.holds n a bs)
    (hout : Spec.sameOutside m n lo hi) (hb : a + bs.length ≤ lo ∨ hi ≤ a) : Memory.holds m a bs :=
  fun i hi => (hout (a + i) (by omega)).trans (h i hi)

/-- What remains of standing bytes after the first `k` stands `k` further. -/
theorem holds_drop {m : Memory} {a k : Nat} {bs : List Byte} (h : Memory.holds m a bs) :
    Memory.holds m (a + k) (bs.drop k) := by
  have hs : Memory.holds m (a + k) ((bs.drop k).take (bs.drop k).length) := holds_slice h
  rwa [List.take_length] at hs

/-- Settles O43: PFRM accepts the frame, and PPAY reads the payload of the frame it leaves. -/
theorem ppktRunsTheWholeChain : Obligations.PpktRunsTheWholeChain := by
  intro s bs f key q hwf hbs hwithin hcode hacc hq hkey hlen hmagic
  obtain ⟨t, id, ht, heq, hid, hf, hfout⟩ := pfrmAcceptsAFrame s bs f q hwf hbs hwithin hcode hacc hq
  have hd : (BitVec.ofNat 16 f.length).toNat = f.length := toNat_ofNat_of_lt (acceptedFrame_length_lt hacc)
  have htp : (BitVec.ofNat 16 (f.length - 14)).toNat = f.length - 14 := toNat_ofNat_of_lt (by omega)
  have hbuild : t.build = s.build := (congrArg State.build heq :)
  have hpay := ppayReadsThePayload t 12#16 (BitVec.ofNat 16 (f.length - 14)) (BitVec.ofNat 16 f.length) key f id q
    (congrArg State.fok heq) (congrArg State.tpOff heq) (congrArg State.tpLen heq) (congrArg State.dlen heq)
    ((congrArg State.key heq).trans hkey) hid ((congrArg State.rssi heq).trans hq) hd.symm hf
  rw [hd, htp, show (12#16).toNat = 12 from rfl, hbuild] at hpay
  obtain ⟨u, g, p, hu, hp, hg, hueq, hpheld, hpout⟩ := hpay (by omega) (by omega) (by omega) hmagic
  have hppkt : exec .ppkt s = .next u := by
    rw [execPpkt_of_pfrm ht, if_pos (congrArg State.err heq), hu]
  have hlast : Memory.holds t.frame (0 + (f.length - 2)) (f.drop (f.length - 2)) := holds_drop hf
  rw [Nat.zero_add] at hlast
  refine ⟨u, id, g, p, hppkt, hp, hg, hueq.trans ?_, (congrArg (·.hdr.idStr) hueq).trans hid, hpheld,
    holds_of_sameOutside (holds_slice (k := 0) hf) hpout (.inl (by simp)),
    holds_of_sameOutside hlast hpout (.inr (by omega)),
    fun a ha => (hpout a (by omega)).trans (hfout a ha)⟩
  have hlog : t.evlog ++ [.reading g] =
      s.evlog ++ [.pkt id f 12#16 (BitVec.ofNat 16 (f.length - 14)) q, .reading g] := by
    rw [congrArg State.evlog heq, List.append_assoc]
    rfl
  rw [hlog, heq]

end Sys2Proof.Machine
end

section
/-! SUPPORT. What each command leaves unchanged: the registers it does not name, and the bytes outside those it stores
to (60_exceptions.md R252). -/

namespace Sys2Proof.Machine

/-! ### The commands that store no byte -/

/-- PHDR keeps FOK on success and clears it on failure (42_frame_parser.md R141). -/
theorem execPhdr_fok {s t : State} (h : exec .phdr s = .next t) :
    (t.err = .ok → t.fok = s.fok) ∧ (t.err ≠ .ok → t.fok = false) := by
  obtain ⟨hd, -, rfl⟩ | ⟨e, he, rfl⟩ := execPhdr_next.1 h
  · exact ⟨fun _ => rfl, fun herr => absurd rfl herr⟩
  · have hne : e ≠ .ok := by obtain rfl | rfl := parseHeader_status he <;> decide
    exact ⟨fun hok => absurd hok hne, fun _ => rfl⟩

/-- STPL keeps FOK on success and clears it on failure (42_frame_parser.md R150). -/
theorem execStpl_fok {s t : State} (h : exec .stpl s = .next t) :
    (t.err = .ok → t.fok = s.fok) ∧ (t.err ≠ .ok → t.fok = false) := by
  obtain ⟨n, -, rfl⟩ | ⟨e, he, rfl⟩ := execStpl_next.1 h
  · exact ⟨fun _ => rfl, fun herr => absurd rfl herr⟩
  · have hne : e ≠ .ok := by obtain rfl | rfl := splitTransport_status he <;> decide
    exact ⟨fun hok => absurd hok hne, fun _ => rfl⟩

/-- The commands that write registers alone leave the three buffers as they are. -/
theorem registerCommands_keep_buffers {i : Instr} {s t : State}
    (hi : i ∈ [Instr.dnib, .crc, .crcv, .phdr, .stpl, .dkey, .prdg]) (h : exec i s = .next t) :
    t.raw = s.raw ∧ t.frame = s.frame ∧ t.mbox = s.mbox := by
  simp only [List.mem_cons, List.not_mem_nil, or_false] at hi
  obtain rfl | rfl | rfl | rfl | rfl | rfl | rfl := hi
  · obtain ⟨_, _, rfl⟩ := execDnib_writes h; exact ⟨rfl, rfl, rfl⟩
  · obtain ⟨_, _, rfl⟩ := execCrc_writes h; exact ⟨rfl, rfl, rfl⟩
  · obtain ⟨_, _, rfl⟩ := execCrcv_writes h; exact ⟨rfl, rfl, rfl⟩
  · obtain ⟨_, _, _, rfl⟩ := execPhdr_writes h; exact ⟨rfl, rfl, rfl⟩
  · obtain ⟨_, _, _, _, rfl⟩ := execStpl_writes h; exact ⟨rfl, rfl, rfl⟩
  · obtain ⟨_, _, rfl⟩ := execDkey_writes h; exact ⟨rfl, rfl, rfl⟩
  · obtain ⟨_, _, rfl⟩ := execPrdg_writes h; exact ⟨rfl, rfl, rfl⟩

/-- Settles O45, from the write set of each command and what PHDR and STPL do to FOK. -/
theorem registerCommandsFrame : Obligations.RegisterCommandsFrame := by
  refine fun s t => ⟨fun h => ?_, fun h => ?_, fun h => ?_, fun h => ⟨?_, execPhdr_fok h⟩,
    fun h => ⟨?_, execStpl_fok h⟩, fun h => ?_, fun h => ?_, fun i hi h => ?_⟩
  · obtain ⟨_, _, rfl⟩ := execDnib_writes h; rfl
  · obtain ⟨_, _, rfl⟩ := execCrc_writes h; rfl
  · obtain ⟨_, _, rfl⟩ := execCrcv_writes h; rfl
  · obtain ⟨_, _, _, rfl⟩ := execPhdr_writes h; rfl
  · obtain ⟨_, _, _, _, rfl⟩ := execStpl_writes h; rfl
  · obtain ⟨_, _, rfl⟩ := execDkey_writes h; rfl
  · obtain ⟨_, _, rfl⟩ := execPrdg_writes h; rfl
  · obtain ⟨hraw, hframe, hmbox⟩ := registerCommands_keep_buffers hi h
    simp only [Spec.sameBytes, hraw, hframe, hmbox, implies_true, and_self]

/-! ### The commands that store bytes -/

theorem sameOutside_mono {m n : Memory} {lo hi lo' hi' : Nat} (h : Spec.sameOutside m n lo hi) (hlo : lo' ≤ lo)
    (hhi : hi ≤ hi') : Spec.sameOutside m n lo' hi' :=
  fun a ha => h a (by omega)

theorem sameOutside_trans {m n p : Memory} {lo hi : Nat} (h : Spec.sameOutside m n lo hi)
    (h' : Spec.sameOutside n p lo hi) : Spec.sameOutside m p lo hi :=
  fun a ha => (h a ha).trans (h' a ha)

/-- Bytes written from `lo` up to `hi` leave every byte outside as it was. -/
theorem writeBytes_sameOutside_of_end {lo hi : Nat} {bs : List Byte} (m : Memory) (h : lo + bs.length = hi) :
    Spec.sameOutside (Memory.writeBytes m lo bs) m lo hi :=
  h ▸ writeBytes_sameOutside m lo bs

/-- DBUF stores to FRAME[0..m) (40_line_codec.md R104). -/
theorem execDbuf_frame {s t : State} (h : exec .dbuf s = .next t) : ∃ n : BitVec 16, s.opb = some n ∧
    t = { s with frame := t.frame, dlen := t.dlen, fok := false, err := t.err } ∧
    Spec.sameOutside t.frame s.frame 0 (decodedLength n.toNat) := by
  obtain ⟨n, hn, ⟨bs, hbs, rfl⟩ | ⟨e, -, rfl⟩⟩ := execDbuf_next.1 h
  · exact ⟨n, hn, rfl, writeBytes_sameOutside_of_end s.frame ((Nat.zero_add _).trans (dbufBytes_length hbs))⟩
  · exact ⟨n, hn, rfl, sameOutside_poison s.frame 0 _⟩

/-- DCRY stores to its region (43_cipher.md R175). -/
theorem execDcry_frame {s t : State} (h : exec .dcry s = .next t) : ∃ off len : BitVec 16,
    s.opa = some off ∧ s.opb = some len ∧
    t = { s with frame := t.frame, lfsr := t.lfsr, fok := false, err := t.err } ∧
    Spec.sameOutside t.frame s.frame off.toNat (off.toNat + len.toNat) := by
  obtain ⟨off, len, hoff, hlen, ⟨r, hr, rfl⟩ | ⟨e, -, rfl⟩⟩ := execDcry_next.1 h
  · exact ⟨off, len, hoff, hlen, rfl,
      writeBytes_sameOutside_of_end s.frame (congrArg (off.toNat + ·) (decrypt_length hr))⟩
  · exact ⟨off, len, hoff, hlen, rfl, sameOutside_poison s.frame _ _⟩

/-- TAKE stores to RAW[0..MBOX_LEN), and to nothing when the mailbox is empty (45_pipeline.md R220). -/
theorem execTake_frame {s t : State} (h : exec .take s = .next t) :
    t = { s with raw := t.raw, rawLen := t.rawLen, rssi := t.rssi, pend := false, fok := t.fok, err := t.err } ∧
    (∀ n, s.mboxLen = some n → Spec.sameOutside t.raw s.raw 0 n.toNat) := by
  obtain ⟨hp, rfl⟩ | ⟨-, n, bs, r, hr, rfl⟩ := execTake_next.1 h
  · exact ⟨by rw [← hp], fun _ _ _ _ => rfl⟩
  · obtain ⟨hn, hlen, -, -⟩ := mailboxPacket_ok.1 hr
    refine ⟨rfl, fun n' hn' => ?_⟩
    obtain rfl := Option.some.inj (hn.symm.trans hn')
    exact writeBytes_sameOutside_of_end s.raw ((Nat.zero_add _).trans hlen)

/-- The frame of a PFRM that succeeds: its payload begins at 12 and ends 2 bytes before its end, and FRAME is written
up to DLEN (45_pipeline.md R221). -/
theorem frameStage_slice {s : State} {r : FrameResult} (h : frameStage s = .ok r) :
    (BitVec.ofNat 16 r.bytes.length).toNat = r.bytes.length ∧
      12 + (BitVec.ofNat 16 r.tpLen).toNat ≤ r.bytes.length ∧
      Spec.sameOutside r.frame s.frame 0 r.bytes.length := by
  have hlt : r.bytes.length < 65536 := by
    have := frameStage_length h
    have := (byteAt r.bytes 0).isLt
    omega
  obtain ⟨l, -, -, -, hframe, -, htp, -⟩ := frameStage_ok.1 h
  have hf : Memory.holds r.frame 0 r.bytes := hframe ▸ Memory.writeBytes_holds s.frame 0 r.bytes
  obtain ⟨h14, hn, -⟩ := splitTransport_of_holds hf hlt htp
  refine ⟨toNat_ofNat_of_lt hlt, ?_, hframe ▸ writeBytes_sameOutside_of_end s.frame (Nat.zero_add _)⟩
  rw [hn, toNat_ofNat_of_lt (by omega)]
  omega

/-- PFRM stores, when it succeeds, to FRAME[0..DLEN) alone (45_pipeline.md R221). -/
theorem execPfrm_frame {s t : State} (h : exec .pfrm s = .next t) :
    t = { s with frame := t.frame, dlen := t.dlen, hdr := t.hdr, tpOff := t.tpOff, tpLen := t.tpLen,
                 evlog := t.evlog, fok := t.fok, err := t.err } ∧
    (t.err = .ok → ∃ d : BitVec 16, t.dlen = some d ∧ Spec.sameOutside t.frame s.frame 0 d.toNat) := by
  obtain ⟨r, hr, rfl⟩ | ⟨e, he, rfl⟩ := execPfrm_next.1 h
  · obtain ⟨hd, -, hout⟩ := frameStage_slice hr
    exact ⟨rfl, fun _ => ⟨_, rfl, by rw [hd]; exact hout⟩⟩
  · exact ⟨rfl, fun hok => absurd hok (frameStage_status he)⟩

/-- PPAY's computation stores to its region (45_pipeline.md R224). -/
theorem payloadStage_sameOutside {s : State} {off len : Nat} {r : PayloadResult}
    (h : payloadStage s off len = .ok r) :
    Spec.sameOutside r.frame s.frame (off + s.build.cipherOff) (off + len) := by
  obtain ⟨ps, -, hle, hdec, hframe, -⟩ := payloadStage_ok.1 h
  have hlen : ps.length = len - s.build.cipherOff := decrypt_length hdec
  exact hframe ▸ writeBytes_sameOutside_of_end s.frame (by omega)

/-- PPAY with FOK = 1 stores to its region alone (45_pipeline.md R224). -/
theorem execPpay_sameOutside {s t : State} {off len : BitVec 16} (hfok : s.fok = true) (hoff : s.tpOff = some off)
    (hlen : s.tpLen = some len) (h : exec .ppay s = .next t) :
    Spec.sameOutside t.frame s.frame (off.toNat + s.build.cipherOff) (off.toNat + len.toNat) := by
  obtain ⟨hfok', -⟩ | ⟨-, off', len', hoff', hlen', hr⟩ := execPpay_next.1 h
  · exact absurd (hfok'.symm.trans hfok) Bool.false_ne_true
  · obtain rfl := Option.some.inj (hoff.symm.trans hoff')
    obtain rfl := Option.some.inj (hlen.symm.trans hlen')
    obtain ⟨r, hr, rfl⟩ | ⟨e, -, rfl⟩ := hr
    · exact payloadStage_sameOutside hr
    · exact sameOutside_poison s.frame _ _

/-- PPAY stores to its region when FOK = 1, and to nothing when FOK = 0 (45_pipeline.md R224, R225). -/
theorem execPpay_frame {s t : State} (h : exec .ppay s = .next t) :
    t = { s with seed := t.seed, lfsr := t.lfsr, frame := t.frame, rd := t.rd, evlog := t.evlog, fok := false,
                 err := t.err } ∧
    (s.fok = true → ∃ off len : BitVec 16, s.tpOff = some off ∧ s.tpLen = some len ∧
      Spec.sameOutside t.frame s.frame (off.toNat + s.build.cipherOff) (off.toNat + len.toNat)) ∧
    (s.fok = false → Spec.sameBytes t.frame s.frame) := by
  refine ⟨?_, fun hfok => ?_, fun hfok => ?_⟩
  · obtain ⟨_, _, _, _, _, _, rfl⟩ := execPpay_writes h; rfl
  · obtain ⟨hfok', -⟩ | ⟨-, off, len, hoff, hlen, -⟩ := execPpay_next.1 h
    · exact absurd (hfok'.symm.trans hfok) Bool.false_ne_true
    · exact ⟨off, len, hoff, hlen, execPpay_sameOutside hfok hoff hlen h⟩
  · obtain rfl : t = { s with err := .seq } :=
      Host.Outcome.next.inj (h.symm.trans (ppayWithoutFrameRaisesSeq s hfok))
    exact fun _ => rfl

/-- PPKT stores, when DLEN holds a value after it, to FRAME[0..DLEN) alone: PPAY's region lies within the frame that
PFRM has written (45_pipeline.md R227). -/
theorem execPpkt_sameOutside {s u : State} {d : BitVec 16} (h : exec .ppkt s = .next u) (hd : u.dlen = some d) :
    Spec.sameOutside u.frame s.frame 0 d.toNat := by
  obtain ⟨t, ht, hu⟩ := execPpkt_next.1 h
  obtain ⟨r, hr, rfl⟩ | ⟨e, he, rfl⟩ := execPfrm_next.1 ht
  · obtain ⟨herr, -⟩ | ⟨-, hp⟩ := hu
    · exact absurd rfl herr
    · obtain ⟨hlen, hslice, hout⟩ := frameStage_slice hr
      have hpay := execPpay_sameOutside rfl rfl rfl hp
      obtain ⟨_, _, _, _, _, _, rfl⟩ := execPpay_writes hp
      obtain rfl := Option.some.inj hd
      rw [hlen]
      exact sameOutside_trans (sameOutside_mono hpay (Nat.zero_le _) hslice) hout
  · obtain ⟨-, rfl⟩ | ⟨hok, -⟩ := hu
    · cases hd
    · exact absurd hok (frameStage_status he)

/-- Settles O46, from the bytes each command stores to. -/
theorem storingCommandsFrame : Obligations.StoringCommandsFrame := by
  refine fun s t => ⟨execDbuf_frame, execDcry_frame, execTake_frame, execPfrm_frame, execPpay_frame,
    fun h => ⟨?_, fun d hd => execPpkt_sameOutside h hd⟩⟩
  obtain ⟨_, _, _, _, _, _, _, _, _, _, rfl⟩ := execPpkt_writes h
  rfl

end Sys2Proof.Machine
end

section
/-! SUPPORT. No packet faults the Core: what TAKE leaves in RAW is read through the whole chain without a read of
UNDEF (60_exceptions.md R254). -/

namespace Sys2Proof.Machine

/-- The computation reads no cell holding UNDEF: it answers a value or raises a status (10_state.md R21). -/
def ReadsNoUndef {α : Type} (x : Except Stop α) : Prop := ∀ c, x ≠ .error (.undef c)

section ReadsNoUndef

variable {α β : Type} {x : Except Stop α}

theorem readsNoUndef_ok (a : α) : ReadsNoUndef (.ok a) := fun _ h => by cases h

theorem readsNoUndef_status (e : Err) : ReadsNoUndef (.error (.status e) : Except Stop α) := fun _ h => by cases h

/-- A check that raises a status leaves the rest to read. -/
theorem readsNoUndef_check {p : Prop} [Decidable p] {e : Err} (h : ¬ p → ReadsNoUndef x) :
    ReadsNoUndef (if p then .error (.status e) else x) := by
  split
  · exact readsNoUndef_status e
  · exact h ‹_›

theorem ReadsNoUndef.bind {f : α → Except Stop β} (hx : ReadsNoUndef x)
    (hf : ∀ a, x = .ok a → ReadsNoUndef (f a)) : ReadsNoUndef (x >>= f) := by
  intro c h
  obtain h | ⟨a, ha, h⟩ := bind_error.1 h
  · exact hx c h
  · exact hf a ha c h

/-- A computation that reads no UNDEF ends in one of the two ways in which a command answers a next state
(60_exceptions.md R258). -/
theorem ReadsNoUndef.ok_or_status (h : ReadsNoUndef x) : (∃ a, x = .ok a) ∨ ∃ e, x = .error (.status e) := by
  match x, h with
  | .ok a, _ => exact .inl ⟨a, rfl⟩
  | .error (.status e), _ => exact .inr ⟨e, rfl⟩
  | .error (.undef c), h => exact absurd rfl (h c)

end ReadsNoUndef

/-! ### The line code -/

/-- Symbols that can be read decode, or one of them is no codeword (40_line_codec.md R104). -/
theorem decodeSymbols_readsNoUndef {c : Config} {raw : Memory} {k g : Nat}
    (h : ∀ i < g, ∃ sym, symbol raw (k + i) = .ok sym) : ReadsNoUndef (decodeSymbols c raw k g) := by
  induction g generalizing k with
  | zero => exact readsNoUndef_ok []
  | succ g ih =>
    obtain ⟨sym, hsym⟩ := h 0 (Nat.succ_pos g)
    have hrest : ReadsNoUndef (decodeSymbols c raw (k + 1) g) := ih fun i hi => by
      rw [Nat.add_assoc, Nat.add_comm 1]
      exact h (i + 1) (Nat.succ_lt_succ hi)
    rw [decodeSymbols]
    refine ReadsNoUndef.bind (fun _ hundef => by cases hsym.symm.trans hundef) fun y _ => ?_
    cases nibbleOf c y with
    | none => exact readsNoUndef_status .codeword
    | some nb => exact hrest.bind fun _ _ => readsNoUndef_ok _

/-- Raw bytes that hold values decode, or one of their symbols is no codeword (40_line_codec.md R104). -/
theorem lineDecode_readsNoUndef {c : Config} {raw : Memory} {bs : List Byte} {n : Nat} (hbs : Memory.holds raw 0 bs)
    (hn : n ≤ bs.length) : ReadsNoUndef (lineDecode c raw n) := by
  have hsym : ∀ k < symbolCount n, ∃ sym, symbol raw (0 + k) = .ok sym := fun k hk => by
    have hk := symbol_within hk
    rw [Nat.zero_add]
    exact ⟨_, (symbol_ok_iff_spells hbs (by omega)).2 (spells_symbolAt bs k)⟩
  exact (decodeSymbols_readsNoUndef hsym).bind fun nibs _ => readsNoUndef_ok (packNibbles nibs)

/-! ### PFRM -/

/-- PHDR's check on a frame whose length is DLEN (42_frame_parser.md R141). -/
theorem parseHeader_readsNoUndef {c : Config} {m : Memory} {d : BitVec 16} {f : List Byte} (hd : d.toNat = f.length)
    (hf : Memory.holds m 0 f) : ReadsNoUndef (parseHeader c m (some d)) := by
  by_cases hlt : d.toNat < 12
  · rw [parseHeader_of_dlen_lt hlt]
    exact readsNoUndef_status .short
  · rw [parseHeader_frame (Nat.not_lt.1 hlt) (hd ▸ Nat.not_lt.1 hlt) hf]
    split
    · exact readsNoUndef_ok _
    · exact readsNoUndef_status .hdrCrc

/-- STPL's check on a frame whose length is DLEN (42_frame_parser.md R150). -/
theorem splitTransport_readsNoUndef {m : Memory} {d : BitVec 16} {f : List Byte} (hd : d.toNat = f.length)
    (hf : Memory.holds m 0 f) : ReadsNoUndef (splitTransport m (some d)) := by
  by_cases hlt : d.toNat < 14
  · rw [splitTransport_of_dlen_lt hlt]
    exact readsNoUndef_status .tplShort
  · rw [splitTransport_frame hd (hd ▸ Nat.not_lt.1 hlt) hf]
    split
    · exact readsNoUndef_ok _
    · exact readsNoUndef_status .tplCrc

/-- PFRM on RAW_LEN raw bytes reads no UNDEF, whatever the bytes (45_pipeline.md R221). -/
theorem frameStage_readsNoUndef {s : State} {bs : List Byte} {q : Nat} (hbs : Memory.holds s.raw 0 bs)
    (hlen : bs.length = s.rawLen.toNat) (hq : s.rssi = some q) : ReadsNoUndef (frameStage s) := by
  have hfirst : ReadsNoUndef (firstPass s) :=
    readsNoUndef_check fun hge => (lineDecode_readsNoUndef hbs (by omega)).bind fun _ _ => readsNoUndef_ok _
  refine hfirst.bind fun l _ => readsNoUndef_check fun hge => ?_
  have hdbuf : ReadsNoUndef (dbufBytes s (requiredRaw (expectedLength l))) :=
    readsNoUndef_check fun _ => lineDecode_readsNoUndef hbs (by omega)
  refine hdbuf.bind fun f hf => ?_
  have hd : (BitVec.ofNat 16 f.length).toNat = f.length := toNat_ofNat_of_lt (by
    rw [dbufBytes_length hf, decodedLength_requiredRaw]
    simp only [requiredRaw] at hge
    omega)
  have hframe := Memory.writeBytes_holds s.frame 0 f
  refine (parseHeader_readsNoUndef hd hframe).bind fun h _ =>
    (splitTransport_readsNoUndef hd hframe).bind fun n _ => ?_
  rw [hq]
  exact readsNoUndef_ok _

/-- PFRM answers a next state on RAW_LEN raw bytes with a signal strength, whatever the bytes (45_pipeline.md R221). -/
theorem execPfrm_answers {s : State} {bs : List Byte} {q : Nat} (hbs : Memory.holds s.raw 0 bs)
    (hlen : bs.length = s.rawLen.toNat) (hq : s.rssi = some q) : ∃ t, exec .pfrm s = .next t := by
  obtain ⟨r, hr⟩ | ⟨e, he⟩ := (frameStage_readsNoUndef hbs hlen hq).ok_or_status
  · exact ⟨_, execPfrm_next.2 (.inl ⟨r, hr, rfl⟩)⟩
  · exact ⟨_, execPfrm_next.2 (.inr ⟨e, he, rfl⟩)⟩

/-! ### PPAY -/

/-- PPAY on a payload slice within the frame reads no UNDEF, whatever its bytes: it has a reading, or one of the checks
fails (45_pipeline.md R224). -/
theorem HoldsFrame.payloadStage_readsNoUndef {s : State} {key : BitVec 64} {f : List Byte} {off len : Nat}
    {id : BitVec 88} {q : Nat} (h : HoldsFrame s key f) (hslice : off + len ≤ f.length)
    (hid : s.hdr.idStr = some id) (hq : s.rssi = some q) : ReadsNoUndef (payloadStage s off len) := by
  by_cases hbad : f.length < 16 ∨ len < s.build.cipherOff + 16 ∨
      byteAt f (off + s.build.cipherOff) ^^^ Spec.ks (Spec.seedOf key f) 0 ≠ magicByte
  · rw [h.payloadStage_of_unreadable hslice hbad]
    exact readsNoUndef_status _
  · obtain ⟨h16, hlen, hmagic⟩ : 16 ≤ f.length ∧ s.build.cipherOff + 16 ≤ len ∧
        byteAt f (off + s.build.cipherOff) ^^^ Spec.ks (Spec.seedOf key f) 0 = magicByte := by
      simpa only [not_or, not_lt, not_not] using hbad
    rw [h.payloadStage_of_readable hslice h16 hlen hid hq hmagic rfl]
    exact readsNoUndef_ok _

/-- PPAY answers a next state where FOK keeps its promise and KEY is written (45_pipeline.md R224, R240 item 4). -/
theorem execPpay_answers {s : State} {key : BitVec 64} (hv : FrameValidated s) (hkey : s.key = some key) :
    ∃ t, exec .ppay s = .next t := by
  cases hfok : s.fok with
  | false => exact ⟨_, ppayWithoutFrameRaisesSeq s hfok⟩
  | true =>
    obtain ⟨f, hacc, hf, hd, hhdr, hoff, hlen, hq⟩ := hv hfok
    obtain ⟨q, hq⟩ := Option.isSome_iff_exists.1 hq
    have hlt := acceptedFrame_length_lt hacc
    have h14 := (acceptedFrame_iff.1 hacc).1
    have hframe : HoldsFrame s key f := ⟨hkey, ⟨_, hd, (toNat_ofNat_of_lt hlt).symm⟩, hf⟩
    have htp : (BitVec.ofNat 16 (f.length - 14)).toNat = f.length - 14 := toNat_ofNat_of_lt (by omega)
    have hslice : (12#16).toNat + (BitVec.ofNat 16 (f.length - 14)).toNat ≤ f.length := by
      rw [htp, show (12#16).toNat = 12 from rfl]
      omega
    obtain ⟨r, hr⟩ | ⟨e, he⟩ :=
      (hframe.payloadStage_readsNoUndef hslice (congrArg HeaderRegs.idStr hhdr) hq).ok_or_status
    · exact ⟨_, execPpay_next.2 (.inr ⟨hfok, _, _, hoff, hlen, .inl ⟨r, hr, rfl⟩⟩)⟩
    · exact ⟨_, execPpay_next.2 (.inr ⟨hfok, _, _, hoff, hlen, .inr ⟨e, he, rfl⟩⟩)⟩

/-! ### The mailbox and the whole chain -/

/-- PPKT answers a next state on RAW_LEN raw bytes with a signal strength and KEY written, whatever the bytes: a PFRM
that succeeds leaves what PPAY reads (45_pipeline.md R227). -/
theorem execPpkt_answers {s : State} {bs : List Byte} {q : Nat} {key : BitVec 64} (hbs : Memory.holds s.raw 0 bs)
    (hlen : bs.length = s.rawLen.toNat) (hq : s.rssi = some q) (hkey : s.key = some key) :
    ∃ u, exec .ppkt s = .next u := by
  obtain ⟨t, ht⟩ := execPfrm_answers hbs hlen hq
  rw [execPpkt_of_pfrm ht]
  split
  · obtain ⟨-, -, -, -, hkey', -⟩ := whatNoCommandWrites .pfrm s t ht
    exact execPpay_answers (execPfrm_validated ht) (hkey'.trans hkey)
  · exact ⟨t, rfl⟩

/-- Settles O44: TAKE moves the whole packet and its signal strength, and those are all that PPKT asks for. -/
theorem noPacketFaultsTheCore : Obligations.NoPacketFaultsTheCore := by
  intro s hkey hp hfull
  obtain ⟨key, hkey⟩ := Option.isSome_iff_exists.1 hkey
  obtain ⟨n, q, hn, hq, hfilled⟩ := hfull hp
  obtain ⟨bs, hlen, hbs⟩ := holds_of_filled hfilled
  exact ⟨_, execTake_next.2 (.inr ⟨hp, n, bs, q, mailboxPacket_ok.2 ⟨hn, hlen, hbs, hq⟩, rfl⟩), rfl,
    execPpkt_answers (Memory.writeBytes_holds s.raw 0 bs) hlen rfl hkey⟩

end Sys2Proof.Machine
end

section
/-! SUPPORT. DCRY a second time with the same seed (70_reset_and_hazards.md R295). -/

namespace Sys2Proof.Machine

/-- The keystream is its own inverse: the same seed turns the plaintext back into the ciphertext. -/
theorem plain_plain (x : BitVec 32) (cts : List Byte) : Spec.plain x (Spec.plain x cts) = cts := by
  refine List.ext_getElem (by simp) fun i _ hi => ?_
  have hp : i < (Spec.plain x cts).length := by rwa [plain_length]
  rw [← byteAt_eq_getElem, ← byteAt_eq_getElem hi, byteAt_plain x hp, byteAt_plain x hi, BitVec.xor_assoc,
    BitVec.xor_self, BitVec.xor_zero]

/-- Bytes that stood somewhere, written back over others of their number, undo that write. -/
theorem writeBytes_sameBytes_of_holds {m : Memory} {a : Nat} {bs cs : List Byte} (hl : bs.length = cs.length)
    (h : Memory.holds m a cs) : Spec.sameBytes (Memory.writeBytes (Memory.writeBytes m a bs) a cs) m := fun b => by
  by_cases hb : a ≤ b ∧ b < a + cs.length
  · obtain ⟨i, rfl⟩ := Nat.exists_eq_add_of_le hb.1
    have hi : i < cs.length := Nat.lt_of_add_lt_add_left hb.2
    rw [Memory.read_writeBytes_inside _ _ _ _ hi, h i hi]
  · rw [Memory.read_writeBytes_outside _ _ _ _ (by omega), Memory.read_writeBytes_outside _ _ _ _ (by omega)]

/-- After DCRY its region holds the plaintext, and its operands and SEED are as before: the plaintext is the ciphertext
of a second DCRY. -/
theorem HoldsCiphertext.decrypted {s : State} {off : BitVec 16} {x : BitVec 32} {cts : List Byte}
    (h : HoldsCiphertext s off x cts) : HoldsCiphertext (decrypted s off x cts) off x (Spec.plain x cts) where
  opa := h.opa
  opb := by rw [plain_length]; exact h.opb
  dlen := by rw [plain_length]; exact h.dlen
  seed := h.seed
  holds := Memory.writeBytes_holds s.frame off.toNat _
  pos := by rw [plain_length]; exact h.pos

/-- Settles O27: the first plaintext byte of the second DCRY is the magic byte plus ks_0, and where it passes it writes
back the ciphertext of the first. -/
theorem secondDecryptionRestoresOrFails : Obligations.SecondDecryptionRestoresOrFails := by
  intro s t ht hok
  obtain ⟨off, x, cts, hcts, hm, rfl⟩ := execDcry_ok_iff.1 ⟨ht, hok⟩
  have hmagic : byteAt (Spec.plain x cts) 0 ^^^ Spec.ks x 0 = magicByte ↔ Spec.ks x 0 = 0#8 := by
    rw [byteAt_plain x hcts.pos, hm]
    simp
  refine ⟨x, _, hcts.seed, hcts.decrypted.execDcry_eq, fun h => ?_, fun h => ?_⟩
  · rw [if_pos (hmagic.2 h)]
    refine ⟨rfl, ?_⟩
    rw [decrypted, plain_plain]
    exact writeBytes_sameBytes_of_holds (plain_length x cts) hcts.holds
  · rw [if_neg (mt hmagic.1 h)]

end Sys2Proof.Machine
end
